-- ==== Sys2Proof/Word.lean ====
section
/-! DEFINITION. The word types of the block and its value primitives (00_scope.md R8 to R10): host registers are 32 bits,
bus bytes 8 bits, assembled words 16 bits; bit 0 is the least significant. -/

namespace Sys2Proof

/-- A host register or a command word (R8: "Host registers are 32 bits"). -/
abbrev Word := BitVec 32

/-- A byte on the two-wire bus (R8). -/
abbrev Byte := BitVec 8

/-- An assembled word, the poll counter and TIMEOUT.LIMIT (R8: 16 bits each). -/
abbrev Half := BitVec 16

/-- The direction of a transaction (R24, R103): 0 Write, 1 Read. -/
inductive Dir where
  | write
  | read
deriving DecidableEq, Repr

/-- The direction bit `D` (R103), which is also the low bit of the address byte (R129). -/
def Dir.bit : Dir → Bool
  | .write => false
  | .read => true

/-- The direction a bit `D` names (R103). -/
def Dir.ofBit (b : Bool) : Dir := if b then .read else .write

/-- `zext_16` of a bus byte (R10). -/
def zext16 (b : Byte) : Half := b.setWidth 16

end Sys2Proof
end

