-- ==== Sys2Proof/Config.lean ====
section
/-! DEFINITION. The implementation parameters of 00_scope.md R6: what the spec fixes has a value here, what it leaves OPEN
is an opaque constant, and what it gives a default and a range (TXBUF_DEPTH, MAX_WORDS, RX_PREFETCH) is a field of `Params`. -/

namespace Sys2Proof

/-- PERIPH_ADDR (R6, D30): the 7-bit bus address of the peripheral, OPEN. No value of it is known to any proof (log 4). -/
opaque Config.periphAddr : BitVec 7

/-- REG_BASE (R6, D2): the platform address of the register window, OPEN (log 4). The spec gives a platform address no width;
it is a natural number here, so that no width and no wrap is chosen (log 25). -/
opaque Config.regBase : Nat

/-- PREQ_CAP (R6, D16): the capacity of the primitive request FIFO. -/
def Config.preqCap : Nat := 2

/-- TIMEOUT_RESET (R6, D12): the reset value of TIMEOUT.LIMIT; 0 is unbounded waits. -/
def Config.timeoutReset : Half := 0

/-- The size in bytes of the host register window (R60). -/
def Config.windowBytes : Nat := 0x100

/-- The parameters of the step relation that have a default and a range (R6, R52). They are fixed for a machine: no step
changes them, RESET included (log 3). -/
structure Params where
  /-- TXBUF_DEPTH: payload bytes of a WRITE; 1 to 12 (D9). -/
  txbufDepth : Nat
  /-- MAX_WORDS: words of RESULT; 2 to 48 (D8). -/
  maxWords : Nat
  /-- RX_PREFETCH: whether reception is double-buffered (D18). -/
  rxPrefetch : Bool
deriving DecidableEq, Repr

/-- The values R6 fixes: TXBUF_DEPTH = 8, MAX_WORDS = 7, RX_PREFETCH = false. -/
def Params.standard : Params where
  txbufDepth := 8
  maxWords := 7
  rxPrefetch := false

/-- The ranges R6 allows: 1 ≤ TXBUF_DEPTH ≤ 12 and 2 ≤ MAX_WORDS ≤ 48. -/
def Params.legal (p : Params) : Bool :=
  decide (1 ≤ p.txbufDepth) && decide (p.txbufDepth ≤ 12) && decide (2 ≤ p.maxWords) && decide (p.maxWords ≤ 48)

end Sys2Proof
end

