-- ==== Sys2Proof/Syntax.lean ====
section
/-! DEFINITION. The six commands of 30_encoding.md R103 to R108, one constructor per row of spec/opcode_table.json. -/

namespace Sys2Proof

/-- A command of the ITE command set, edition 1 (R17, R18): what a 32-bit word written to CMD stands for. -/
inductive Instr where
  /-- BEGIN, `begin_and_address(direction)` (R103, R140). -/
  | begin (d : Dir)
  /-- WRITE, `write_bytes(bytes)`: LEN payload bytes, taken from TXBUF (R104, R145). -/
  | write (len : Nat)
  /-- READB, `read_byte()` (R105, R150). -/
  | readb
  /-- SETACK, `set_ack_enabled(bool)` (R106, R155). -/
  | setack (en : Bool)
  /-- STOP, the stop condition (R107, R160). -/
  | stop
  /-- BURST, `burst_read(start_register, word_count)` (R108, R170). -/
  | burst (reg : Byte) (wc : Nat)
deriving DecidableEq, Repr

end Sys2Proof
end

