-- ==== Sys2Proof/Machine/State.lean ====
section
/-! DEFINITION. The state of the machine as plain data (10_state.md): every element of the block, of its bus-primitive
interface and of the model's marks, what the environment hands the machine (its steps and the oracle's draws), and reset. -/

namespace Sys2Proof.Machine

/-- TransactionPhase (R23): the names of §3. Its values 5 to 7 are never produced, so they are no constructors. -/
inductive Phase where
  | idle
  | started
  | addressSent
  | transferring
  | stopped
deriving DecidableEq, Repr

/-- STATUS.ERR (R28, R200). Its values 5 to 15 are never produced. -/
inductive ErrCode where
  | none
  | illegalCmd
  | sequence
  | badLength
  | busTimeout
deriving DecidableEq, Repr

/-- The four bus-side flags a wait polls (R32, R127). -/
inductive WaitFlag where
  | startSent
  | addrAcked
  | txEmpty
  | rxNotEmpty
deriving DecidableEq, Repr

/-- A primitive request queued for BUS (R46). -/
inductive Request where
  | start
  | stop
  | addr (b : Byte)
  | tx (b : Byte)
deriving DecidableEq, Repr

/-- A bus event BUS has performed (R50). -/
inductive BusEvent where
  | start
  | stop
  | addr (b : Byte) (ack : Bool)
  | tx (b : Byte)
  | rx (b : Byte) (ack : Bool)
deriving DecidableEq, Repr

/-- A HOST access: an offset into the window, a width in bytes, and the value of a write (R12, R62, R69). -/
inductive Access where
  | read (off n : Nat)
  | write (off n : Nat) (v : Word)
deriving DecidableEq, Repr

/-- A step of the environment agent BUS (R79 to R84), with the value its oracle draws (R86) where it draws one. -/
inductive BusMove where
  | bStart
  | bAddr (ack : Bool)
  | bTx
  | bStop
  | bRx (v : Byte)
  | bShift (v : Byte)
  | bMove
deriving DecidableEq, Repr

/-- One step of a run: which agent steps (R13), or RESET (R230). -/
inductive Event where
  | host (a : Access)
  | engine
  | bus (m : BusMove)
  | reset
deriving DecidableEq, Repr

/-- A value HOST has read from the window (R19). -/
structure HostRead where
  off : Nat
  value : Word
deriving DecidableEq, Repr

/-- The machine's state. The comments give the rule of 10_state.md that names an element. -/
structure State where
  /-- R22 BUSY. -/
  busy : Bool
  /-- R23 PHASE. -/
  phase : Phase
  /-- R24 DIR. -/
  dir : Dir
  /-- R25 ACK_EN. -/
  ackEn : Bool
  /-- R26 RESULT_VALID. -/
  resultValid : Bool
  /-- R27 CMD_OVR. -/
  cmdOvr : Bool
  /-- R28 ERR. -/
  err : ErrCode
  /-- R29 TMO_WHERE; `none` is its value 0. -/
  tmoWhere : Option WaitFlag
  /-- R31 BYTES. -/
  bytes : Byte
  /-- R35 RXDATA[7:0]. -/
  rxdata : Byte
  /-- R36 TIMEOUT.LIMIT. -/
  limit : Half
  /-- R37 TXBUF[i][7:0], TXBUF_DEPTH of them. -/
  txbuf : List Byte
  /-- R38 RESULT[i][15:0], MAX_WORDS of them. -/
  result : List Half
  /-- R44 CUR; `none` while no command runs. -/
  cur : Option Instr
  /-- R21 MPC. -/
  mpc : Byte
  /-- R43 SPIN. -/
  spin : Half
  /-- R45 PAYLOAD[i], TXBUF_DEPTH of them. -/
  payload : List Byte
  /-- R40 WORK[i], MAX_WORDS of them. -/
  work : List Half
  /-- R41 ACC. -/
  acc : Half
  /-- R42 WIDX. -/
  widx : Byte
  /-- R32 START_SENT. -/
  startSent : Bool
  /-- R32 ADDR_ACKED. -/
  addrAcked : Bool
  /-- R32 RX_NOT_EMPTY. -/
  rxNotEmpty : Bool
  /-- R46 PREQ, head first. -/
  preq : List Request
  /-- R47 DR. -/
  dr : Byte
  /-- R48 RXMODE. -/
  rxmode : Bool
  /-- R48 RXMORE. -/
  rxmore : Bool
  /-- R49 SHIFT. -/
  shift : Option (Byte × Bool)
  /-- R50 TRACE, oldest first. -/
  trace : List BusEvent
  /-- R51 REFUSED. -/
  refused : Bool
  /-- R51 FAULT. -/
  fault : Bool
  /-- R52: the parameters of the step relation, carried along unchanged (log 3). -/
  params : Params
  /-- The steps the environment and the interleaving have still to take, next first (the MODEL's own field, log 1). -/
  inputs : List Event
  /-- R19: the values HOST has read, oldest first (the MODEL's own field, log 6). -/
  reads : List HostRead
deriving DecidableEq, Repr

/-- Reasons the machine stops. The spec's own FAULT (R51, R212) is a sticky mark in the state, not a stop. -/
inductive Fault where
  /-- Raised by the sequencer when BUSY = 1 and CUR and MPC name no µop. The rules never reach such a state (R21, R125)
  and give it no step; safe: the machine stops (log 8). -/
  | noMicroOp
deriving DecidableEq, Repr

/-- Reasons a step has no meaning. The spec's own HOST_ACCESS refusal (R63, R211) is a sticky mark, not a stop. -/
inductive Refusal where
  /-- An instruction without a meaning in this model; no arm of `exec` raises it. -/
  | notModelled (mnemonic : String)
  /-- Raised by a HOST access at an offset of 0x100 or more: R62, "the platform decides what it does, and the model has no
  such access"; safe: the machine stops (log 7). -/
  | outsideWindow
deriving DecidableEq, Repr

/-- Every element at its reset value (R53, R230), for given parameters and with given steps still to come. -/
def State.afterReset (p : Params) (inputs : List Event) : State where
  busy := false
  phase := .idle
  dir := .write
  ackEn := true
  resultValid := false
  cmdOvr := false
  err := .none
  tmoWhere := none
  bytes := 0
  rxdata := 0
  limit := Config.timeoutReset
  txbuf := List.replicate p.txbufDepth 0
  result := List.replicate p.maxWords 0
  cur := none
  mpc := 0
  spin := 0
  payload := List.replicate p.txbufDepth 0
  work := List.replicate p.maxWords 0
  acc := 0
  widx := 0
  startSent := false
  addrAcked := false
  rxNotEmpty := false
  preq := []
  dr := 0
  rxmode := false
  rxmore := false
  shift := none
  trace := []
  refused := false
  fault := false
  params := p
  inputs := inputs
  reads := []

/-- The machine right after reset (R53, R230 to R232), with the parameters of R6 and no step scheduled. -/
def State.reset : State := State.afterReset Params.standard []

/-- The state with other steps to come. -/
def State.withInputs (es : List Event) (s : State) : State := { s with inputs := es }

end Sys2Proof.Machine
end

