-- ==== Sys2Proof/Machine/Ops.lean ====
section
/-! DEFINITION. The named operations over the state that the meanings and the agents' steps share: the request FIFO, the bus
trace, how a command is taken, rejected or accepted (40_engine_commands.md R120, R121), and the one error entry that
ends a running command, the abort (60_exceptions.md R207). -/

namespace Sys2Proof.Machine

/-! ### Requests and events -/

/-- `enqueue(q)` (R135): a full PREQ sets FAULT and loses the request. Lengths beyond PREQ_CAP, which no run has (R90),
count as full. -/
def enqueue (q : Request) (s : State) : State :=
  if Config.preqCap ≤ s.preq.length then { s with fault := true } else { s with preq := s.preq ++ [q] }

/-- `pop PREQ` (R79 to R82). -/
def popRequest (s : State) : State := { s with preq := s.preq.tail }

/-- `trace_append(e)` (R12). -/
def traceAppend (e : BusEvent) (s : State) : State := { s with trace := s.trace ++ [e] }

/-! ### Taking a command (R120, R121) -/

/-- R121: a CMD write with BUSY = 1. -/
def overrun (s : State) : State := { s with cmdOvr := true }

/-- The fields every CMD write taken with BUSY = 0 clears first (R120, R216). -/
def clearOutcome (s : State) : State := { s with err := .none, cmdOvr := false, tmoWhere := none }

/-- `raise CmdError(code)` at acceptance (R12, R215): the rejection records ERR only. -/
def reject (e : ErrCode) (s : State) : State := { s with err := e }

/-- Latch an accepted command (R120). -/
def accept (c : Instr) (s : State) : State := { s with cur := some c, mpc := 0, spin := 0, busy := true }

/-- R120, WRITE(n): PAYLOAD[i] ← TXBUF[i] for i < n. -/
def latchPayload (n : Nat) (s : State) : State := { s with payload := s.txbuf.take n ++ s.payload.drop n }

/-- R120, BURST: what its acceptance clears. -/
def openBurst (s : State) : State :=
  { s with
    resultValid := false
    bytes := 0
    widx := 0
    acc := 0
    work := List.replicate s.params.maxWords 0 }

/-- Present a decoded command (R120, R121), with the outcome of its range check (R122) and of its phase check (R123) and
what it latches besides CUR. The checks run in the order of R213: overrun, BAD_LENGTH, SEQUENCE. -/
def present (c : Instr) (rangeOk phaseOk : Bool) (latch : State → State) (s : State) : State :=
  if s.busy then overrun s
  else if rangeOk = false then reject .badLength (clearOutcome s)
  else if phaseOk = false then reject .sequence (clearOutcome s)
  else latch (accept c (clearOutcome s))

/-! ### Ending a command -/

/-- R125, Advance on the last µop: the command ends. -/
def endCommand (s : State) : State := { s with busy := false, cur := none, mpc := 0 }

/-- Whether the running command is a BURST (R207, R208). -/
def burstRunning (s : State) : Bool :=
  match s.cur with
  | some (.burst _ _) => true
  | _ => false

/-- `PREQ <- [q in PREQ | q = Stop]` (R207): flush every non-Stop request. -/
def flushRequests (s : State) : State := { s with preq := s.preq.filter (fun q => decide (q = .stop)) }

/-- R207: request the Stop of an aborted transaction if its Start has left PREQ. -/
def stopIfStarted (s : State) : State :=
  if Request.start ∈ s.preq then flushRequests s else enqueue .stop (flushRequests s)

/-- `abort(f)` (R207, R208): the error entry of a timed-out wait. -/
def abort (f : WaitFlag) (s : State) : State :=
  { stopIfStarted s with
    phase := .stopped
    ackEn := burstRunning s || s.ackEn
    err := .busTimeout
    tmoWhere := some f
    busy := false
    cur := none
    mpc := 0
    spin := 0 }

/-! ### Host-side marks and observations -/

/-- R63: a refused access sets REFUSED and has no other effect. -/
def refuseAccess (s : State) : State := { s with refused := true }

/-- Record a value HOST has read (R19). -/
def recordRead (off : Nat) (v : Word) (s : State) : State := { s with reads := s.reads ++ [⟨off, v⟩] }

/-! ### Reset -/

/-- The RESET step (R230, R233): power-on reset and a later reset are the same operation. -/
def resetStep (s : State) : State := State.afterReset s.params s.inputs

end Sys2Proof.Machine
end

