-- ==== Sys2Proof/Machine/Bus.lean ====
section
/-! DEFINITION. The steps of the environment agent BUS (20_memory.md R78 to R85), each with its enabling condition. The values
its oracle draws (R86) come with the move. -/

namespace Sys2Proof.Machine

/-- `B_START` (R79). -/
def bStart (s : State) : State := traceAppend .start { popRequest s with startSent := true }

/-- `B_ADDR` on the request `Addr(b)`, with the drawn ACK (R80). -/
def bAddr (b : Byte) (ack : Bool) (s : State) : State :=
  traceAppend (.addr b ack)
    { popRequest s with
      addrAcked := ack || s.addrAcked
      rxmode := (ack && b.getLsbD 0) || s.rxmode
      rxmore := (ack && b.getLsbD 0) || s.rxmore }

/-- `B_TX` on the request `Tx(b)` (R81). -/
def bTx (b : Byte) (s : State) : State := traceAppend (.tx b) (popRequest s)

/-- `B_STOP` (R82). -/
def bStop (s : State) : State :=
  { traceAppend .stop (popRequest s) with
    startSent := false
    addrAcked := false
    rxNotEmpty := false
    rxmode := false
    rxmore := false
    shift := none }

/-- `B_RX` with the drawn byte (R83): the byte's ACK is ACK_EN at this step. -/
def bRx (v : Byte) (s : State) : State :=
  traceAppend (.rx v s.ackEn) { s with dr := v, rxNotEmpty := true, rxmore := s.ackEn }

/-- `B_SHIFT` with the drawn byte (R84). -/
def bShift (v : Byte) (s : State) : State :=
  traceAppend (.rx v s.ackEn) { s with shift := some (v, s.ackEn), rxmore := s.ackEn }

/-- `B_MOVE` (R84) of a shifted byte. -/
def bMove (v : Byte) (s : State) : State := { s with dr := v, rxNotEmpty := true, shift := none }

/-- What R83 and R84 both ask before a byte is received: PREQ empty, RXMODE = RXMORE = 1, ADDR_ACKED = 0. -/
def canReceive (s : State) : Bool := s.preq.isEmpty && s.rxmode && s.rxmore && !s.addrAcked

/-- The condition that enables a BUS step (R79 to R84). B_RX exists with RX_PREFETCH = false only, B_SHIFT and B_MOVE with
RX_PREFETCH = true only. -/
def busEnabled (m : BusMove) (s : State) : Bool :=
  match m with
  | .bStart =>
    match s.preq with
    | .start :: _ => true
    | _ => false
  | .bAddr _ =>
    match s.preq with
    | .addr _ :: _ => true
    | _ => false
  | .bTx =>
    match s.preq with
    | .tx _ :: _ => true
    | _ => false
  | .bStop =>
    match s.preq with
    | .stop :: _ => true
    | _ => false
  | .bRx _ => !s.params.rxPrefetch && canReceive s && !s.rxNotEmpty
  | .bShift _ => s.params.rxPrefetch && canReceive s && s.shift.isNone
  | .bMove => s.params.rxPrefetch && s.shift.isSome && !s.rxNotEmpty

/-- An enabled BUS step is performed; one that is not enabled is no step, and the state stays (log 1). -/
def busStep (m : BusMove) (s : State) : State :=
  if busEnabled m s then
    match m, s.preq, s.shift with
    | .bStart, _, _ => bStart s
    | .bAddr ack, .addr b :: _, _ => bAddr b ack s
    | .bAddr _, _, _ => s
    | .bTx, .tx b :: _, _ => bTx b s
    | .bTx, _, _ => s
    | .bStop, _, _ => bStop s
    | .bRx v, _, _ => bRx v s
    | .bShift v, _, _ => bShift v s
    | .bMove, _, some (v, _) => bMove v s
    | .bMove, _, none => s
  else s

end Sys2Proof.Machine
end

