-- ==== Sys2Proof/WellFormed.lean ====
section
/-! DEFINITION. When a command has an encoding: its counts fit the 8-bit fields A and B of CMD32 (30_encoding.md R101, R109). -/

namespace Sys2Proof

/-- LEN and WC "are 8-bit values" (R109); every other operand fits its field by its type. The ranges R109 checks at
acceptance (LEN ≤ TXBUF_DEPTH, 2 ≤ WC ≤ MAX_WORDS) are no part of this: such words decode. -/
def Instr.wellFormed : Instr → Bool
  | .begin _ => true
  | .write len => decide (len < 256)
  | .readb => true
  | .setack _ => true
  | .stop => true
  | .burst _ wc => decide (wc < 256)

end Sys2Proof
end

