-- ==== Sys2Proof/Decode.lean ====
section
/-! DEFINITION. The decoder of 30_encoding.md R110, total on any 32-bit word and rejecting by name, then the encoder written
from the same tables (R101 to R108), the rows of the opcode table, and the host's `decodeTableWord`. -/

namespace Sys2Proof

/-! ### Fields of the CMD32 format (R101) -/

/-- OP, bits [31:28]. -/
def Word.op (w : Word) : BitVec 4 := w.extractLsb' 28 4

/-- RSV, bits [27:16]; must be 0. -/
def Word.rsv (w : Word) : BitVec 12 := w.extractLsb' 16 12

/-- B, bits [15:8]. -/
def Word.fieldB (w : Word) : Byte := w.extractLsb' 8 8

/-- A, bits [7:0]. -/
def Word.fieldA (w : Word) : Byte := w.extractLsb' 0 8

/-! ### The decoder -/

/-- Why a word is illegal (R111). All of them are the one outcome `Illegal` of R110: ERR = ILLEGAL_CMD. -/
inductive IllegalWord where
  /-- A bit of [27:16] is set. -/
  | reservedBits
  /-- OP is 0x0 or 0x7 to 0xF. -/
  | reservedOp
  /-- A bit of A or B that the operation does not use is set. -/
  | operandBits
deriving DecidableEq, Repr

/-- `decode(w)` of R110. -/
def decode (w : Word) : Except IllegalWord Instr :=
  if Word.rsv w ≠ 0 then .error .reservedBits
  else if Word.op w = 0x1 then
    if w.extractLsb' 1 15 = 0 then .ok (.begin (Dir.ofBit (w.getLsbD 0))) else .error .operandBits
  else if Word.op w = 0x2 then
    if w.extractLsb' 8 8 = 0 then .ok (.write (Word.fieldA w).toNat) else .error .operandBits
  else if Word.op w = 0x3 then
    if w.extractLsb' 0 16 = 0 then .ok .readb else .error .operandBits
  else if Word.op w = 0x4 then
    if w.extractLsb' 1 15 = 0 then .ok (.setack (w.getLsbD 0)) else .error .operandBits
  else if Word.op w = 0x5 then
    if w.extractLsb' 0 16 = 0 then .ok .stop else .error .operandBits
  else if Word.op w = 0x6 then .ok (.burst (Word.fieldA w) (Word.fieldB w).toNat)
  else .error .reservedOp

/-- `decodeTableWord nbits w`: what the decoder reads from an instruction whose bits are `w`, every bit from `nbits` up
being 0. A command is one 32-bit word (R100), so a value that needs more than 32 bits is no command. -/
def decodeTableWord (nbits w : Nat) : Option Instr :=
  if w % 2 ^ nbits < 2 ^ 32 then
    match decode (BitVec.ofNat 32 (w % 2 ^ nbits)) with
    | .ok i => some i
    | .error _ => none
  else none

/-! ### The encoder -/

/-- The word `{OP, RSV = 0, B, A}` (R101). -/
def cmdWord (op : BitVec 4) (b a : Byte) : Word := op ++ (0#12 ++ (b ++ a))

/-- A bit in A[0], A[7:1] being 0 (R103, R106). -/
def bitOperand (b : Bool) : Byte := 0#7 ++ BitVec.ofBool b

/-- The word of a well-formed command (R103 to R108). -/
def encode : Instr → Word
  | .begin d => cmdWord 0x1 0 (bitOperand d.bit)
  | .write len => cmdWord 0x2 0 (BitVec.ofNat 8 len)
  | .readb => cmdWord 0x3 0 0
  | .setack en => cmdWord 0x4 0 (bitOperand en)
  | .stop => cmdWord 0x5 0 0
  | .burst reg wc => cmdWord 0x6 (BitVec.ofNat 8 wc) reg

/-! ### The rows of the opcode table (R103 to R108: mask and match) -/

/-- A row of spec/opcode_table.json: a word belongs to it when `w &&& mask = pattern`. -/
structure OpcodeRow where
  mnemonic : String
  mask : Word
  pattern : Word
deriving DecidableEq, Repr

/-- The six rows, in the table's order. -/
def opcodeRows : List OpcodeRow :=
  [⟨"BEGIN", 0xFFFFFFFE, 0x10000000⟩, ⟨"WRITE", 0xFFFFFF00, 0x20000000⟩, ⟨"READB", 0xFFFFFFFF, 0x30000000⟩,
   ⟨"SETACK", 0xFFFFFFFE, 0x40000000⟩, ⟨"STOP", 0xFFFFFFFF, 0x50000000⟩, ⟨"BURST", 0xFFFF0000, 0x60000000⟩]

/-- Whether a word belongs to a row. -/
def OpcodeRow.matchesWord (r : OpcodeRow) (w : Word) : Bool := w &&& r.mask = r.pattern

/-- The mnemonic of a command (R113). -/
def Instr.mnemonic : Instr → String
  | .begin _ => "BEGIN"
  | .write _ => "WRITE"
  | .readb => "READB"
  | .setack _ => "SETACK"
  | .stop => "STOP"
  | .burst _ _ => "BURST"

end Sys2Proof
end

