-- ==== Sys2Proof/Machine/Operands.lean ====
section
/-! DEFINITION. The operand forms: the address byte (40_engine_commands.md R129), the operand ranges (R122), the payload
bytes of a WRITE (R45, R124), and taking a received byte into RXDATA or the accumulator (R133, R175 to R178). -/

namespace Sys2Proof.Machine

/-- `(PERIPH_ADDR << 1) | d`, 8 bits (R129, D14; log 10 for the polarity). -/
def addressByte (d : Dir) : Byte := Config.periphAddr ++ BitVec.ofBool d.bit

/-- R122: 0 ≤ LEN ≤ TXBUF_DEPTH. -/
def lenInRange (p : Params) (len : Nat) : Bool := decide (len ≤ p.txbufDepth)

/-- R122: 2 ≤ WC ≤ MAX_WORDS. -/
def wcInRange (p : Params) (wc : Nat) : Bool := decide (2 ≤ wc) && decide (wc ≤ p.maxWords)

/-- PAYLOAD[i] (R45). -/
def payloadByte (payload : List Byte) (i : Nat) : Byte := payload.getD i 0

/-- The high byte of a word in its place: `zext_16(DR) << 8` (R175, R177). -/
def highByte (b : Byte) : Half := zext16 b <<< 8

/-- Combine the low byte of a non-final word: OR (R176). -/
def orLow (acc : Half) (b : Byte) : Half := acc ||| zext16 b

/-- Combine the final byte: addition modulo 2^16 (R178). -/
def addLow (acc : Half) (b : Byte) : Half := acc + zext16 b

/-- A µop takes the byte in DR for the host (R133). -/
def takeToRxdata (s : State) : State := { s with rxdata := s.dr, rxNotEmpty := false }

/-- A burst µop takes the byte in DR into the accumulator, and counts it (R175 to R178). -/
def takeToAcc (v : Half) (s : State) : State := { s with acc := v, rxNotEmpty := false, bytes := s.bytes + 1 }

/-- `WORK[WIDX] <- ACC; WIDX <- WIDX + 1` (R176, R178). -/
def storeWord (s : State) : State := { s with work := s.work.set s.widx.toNat s.acc, widx := s.widx + 1 }

end Sys2Proof.Machine
end

