-- ==== Sys2Proof/Machine/Flags.lean ====
section
/-! DEFINITION. The flag computations: the bus-side flags (10_state.md R32), the phase checks (40_engine_commands.md R123),
the field codes (R23, R28, R30) and the poll counter's arithmetic (R43, R206). -/

namespace Sys2Proof.Machine

/-- TX_EMPTY is not stored: it is 1 exactly when no Tx request is in PREQ (R32, R127). -/
def txEmpty (preq : List Request) : Bool :=
  preq.all fun q =>
    match q with
    | .tx _ => false
    | _ => true

/-- `flag(f)` (R127). -/
def flagValue (f : WaitFlag) (s : State) : Bool :=
  match f with
  | .startSent => s.startSent
  | .addrAcked => s.addrAcked
  | .txEmpty => txEmpty s.preq
  | .rxNotEmpty => s.rxNotEmpty

/-- R123 for BEGIN, WRITE and BURST: PHASE ∈ {Idle, Stopped}. -/
def phaseClosed (s : State) : Bool := decide (s.phase = .idle) || decide (s.phase = .stopped)

/-- R123 for STOP: PHASE = Transferring. -/
def phaseTransferring (s : State) : Bool := decide (s.phase = .transferring)

/-- R123 for READB: PHASE = Transferring and DIR = 1. -/
def phaseReading (s : State) : Bool := decide (s.phase = .transferring) && decide (s.dir = .read)

/-- The code of PHASE in STATUS[6:4] (R23). -/
def Phase.code : Phase → BitVec 3
  | .idle => 0
  | .started => 1
  | .addressSent => 2
  | .transferring => 3
  | .stopped => 4

/-- The code of ERR in STATUS[11:8] (R28). -/
def ErrCode.code : ErrCode → BitVec 4
  | .none => 0
  | .illegalCmd => 1
  | .sequence => 2
  | .badLength => 3
  | .busTimeout => 4

/-- `code(f)` (R29, R30). -/
def WaitFlag.code : WaitFlag → BitVec 3
  | .startSent => 1
  | .addrAcked => 2
  | .txEmpty => 3
  | .rxNotEmpty => 4

/-- SPIN after a failed poll: `min(SPIN + 1, 0xFFFF)` (R43, R206). -/
def spinAfterFail (spin : Half) : Half := if spin = 0xFFFF then spin else spin + 1

/-- Whether a failed poll that left SPIN at `spin` times out: LIMIT ≠ 0 and SPIN ≥ LIMIT (R127, R206). -/
def timesOut (limit spin : Half) : Bool := decide (limit ≠ 0) && decide (limit ≤ spin)

end Sys2Proof.Machine
end

