-- ==== Sys2Proof/Machine/MicroOp.lean ====
section
/-! DEFINITION. The micro-operations: their names (40_engine_commands.md R127 to R134, 41_burst_read.md R175 to R181) and the
effect of each, with its verdict for the sequencer (R125). -/

namespace Sys2Proof.Machine

/-- A µop (R17). -/
inductive MicroOp where
  | wait (f : WaitFlag)
  | start
  | addr (d : Dir)
  | clrAddr
  | tx (b : Byte)
  | stop
  | rxb
  | setAck (e : Bool)
  | rxHi
  | rxLo
  | rxHiNack
  | rxAdd
  | ackOn
  | commit
deriving DecidableEq, Repr

/-- What a µop returns to the sequencer (R125): Advance, Stay or Abort(f). -/
inductive Verdict where
  | advance
  | stay
  | abort (f : WaitFlag)
deriving DecidableEq, Repr

/-- `exec(WAIT(f))` (R127): the state after the poll and its verdict. -/
def microWait (f : WaitFlag) (s : State) : State × Verdict :=
  if flagValue f s then ({ s with spin := 0 }, .advance)
  else if timesOut s.limit (spinAfterFail s.spin) then ({ s with spin := spinAfterFail s.spin }, .abort f)
  else ({ s with spin := spinAfterFail s.spin }, .stay)

/-- START (R128). -/
def microStart (s : State) : State := { enqueue .start s with phase := .started }

/-- ADDR(d) (R129). -/
def microAddr (d : Dir) (s : State) : State :=
  { enqueue (.addr (addressByte d)) s with startSent := false, dir := d, phase := .addressSent }

/-- CLRADDR (R130). -/
def microClrAddr (s : State) : State := { s with addrAcked := false, phase := .transferring }

/-- TX(b) (R131). -/
def microTx (b : Byte) (s : State) : State := enqueue (.tx b) s

/-- STOP (R132). -/
def microStop (s : State) : State := { enqueue .stop s with phase := .stopped }

/-- RXB (R133). -/
def microRxb (s : State) : State := takeToRxdata s

/-- SETACK(e) (R134). -/
def microSetAck (e : Bool) (s : State) : State := { s with ackEn := e }

/-- RXHI (R175). -/
def microRxHi (s : State) : State := takeToAcc (highByte s.dr) s

/-- RXLO (R176). -/
def microRxLo (s : State) : State := storeWord (takeToAcc (orLow s.acc s.dr) s)

/-- RXHI_NACK (R177): the byte is taken, then acknowledge generation is disabled, in one step. -/
def microRxHiNack (s : State) : State := { takeToAcc (highByte s.dr) s with ackEn := false }

/-- RXADD (R178). -/
def microRxAdd (s : State) : State := storeWord (takeToAcc (addLow s.acc s.dr) s)

/-- ACKON (R180). -/
def microAckOn (s : State) : State := { s with ackEn := true }

/-- COMMIT (R181): RESULT and RESULT_VALID change together. -/
def microCommit (s : State) : State := { s with result := s.work, resultValid := true }

/-- `exec(u)` (R125): a µop's effect and its verdict. Only a WAIT returns anything but Advance. -/
def runMicro (u : MicroOp) (s : State) : State × Verdict :=
  match u with
  | .wait f => microWait f s
  | .start => (microStart s, .advance)
  | .addr d => (microAddr d s, .advance)
  | .clrAddr => (microClrAddr s, .advance)
  | .tx b => (microTx b s, .advance)
  | .stop => (microStop s, .advance)
  | .rxb => (microRxb s, .advance)
  | .setAck e => (microSetAck e s, .advance)
  | .rxHi => (microRxHi s, .advance)
  | .rxLo => (microRxLo s, .advance)
  | .rxHiNack => (microRxHiNack s, .advance)
  | .rxAdd => (microRxAdd s, .advance)
  | .ackOn => (microAckOn s, .advance)
  | .commit => (microCommit s, .advance)

end Sys2Proof.Machine
end

