-- ==== Sys2Proof/Machine/Commands.lean ====
section
/-! DEFINITION. BEGIN, WRITE, READB, SETACK and STOP (40_engine_commands.md R140 to R160): for each, how a CMD write of it is
taken (`exec…`, the HOST step of R120 and R121) and the µprogram an accepted one runs (`uprog…`, the ENGINE steps of R124). -/

namespace Sys2Proof.Machine

open Host

/-! ### Taking the commands (R120 to R123) -/

/-- BEGIN d is presented (R140): no operand range, PHASE ∈ {Idle, Stopped}. -/
def execBegin (d : Dir) (s : State) : Outcome State Fault Refusal :=
  .next (present (.begin d) true (phaseClosed s) id s)

/-- WRITE n is presented (R145): LEN ≤ TXBUF_DEPTH, PHASE ∈ {Idle, Stopped}; acceptance copies the payload. -/
def execWrite (len : Nat) (s : State) : Outcome State Fault Refusal :=
  .next (present (.write len) (lenInRange s.params len) (phaseClosed s) (latchPayload len) s)

/-- READB is presented (R150): PHASE = Transferring and DIR = 1. -/
def execReadb (s : State) : Outcome State Fault Refusal :=
  .next (present .readb true (phaseReading s) id s)

/-- SETACK e is presented (R155): always legal. -/
def execSetack (en : Bool) (s : State) : Outcome State Fault Refusal :=
  .next (present (.setack en) true true id s)

/-- STOP is presented (R160): PHASE = Transferring. -/
def execStop (s : State) : Outcome State Fault Refusal :=
  .next (present .stop true (phaseTransferring s) id s)

/-! ### Their µprograms (R124) -/

/-- `BEGIN_SEQ(d)` (R124). -/
def beginSeq (d : Dir) : List MicroOp := [.start, .wait .startSent, .addr d, .wait .addrAcked, .clrAddr]

/-- The three µops that send one byte (R124, R145, R172). -/
def txSeq (b : Byte) : List MicroOp := [.wait .txEmpty, .tx b, .wait .txEmpty]

def uprogBegin (d : Dir) : List MicroOp := beginSeq d

def uprogWrite (len : Nat) (payload : List Byte) : List MicroOp :=
  beginSeq .write ++ ((List.range len).flatMap fun i => txSeq (payloadByte payload i)) ++ [.stop]

def uprogReadb : List MicroOp := [.wait .rxNotEmpty, .rxb]

def uprogSetack (en : Bool) : List MicroOp := [.setAck en]

def uprogStop : List MicroOp := [.stop]

end Sys2Proof.Machine
end

