-- ==== Sys2Proof/Machine/Burst.lean ====
section
/-! DEFINITION. BURST (41_burst_read.md R170 to R172): how it is taken, and its µprogram. -/

namespace Sys2Proof.Machine

open Host

/-- BURST r, wc is presented (R170, R171): 2 ≤ WC ≤ MAX_WORDS, PHASE ∈ {Idle, Stopped}; acceptance clears RESULT_VALID,
BYTES, WIDX, ACC and WORK. -/
def execBurst (reg : Byte) (wc : Nat) (s : State) : Outcome State Fault Refusal :=
  .next (present (.burst reg wc) (wcInRange s.params wc) (phaseClosed s) openBurst s)

/-- The four µops of a word of step 3 (R172). -/
def wordSeq : List MicroOp := [.wait .rxNotEmpty, .rxHi, .wait .rxNotEmpty, .rxLo]

/-- The four µops of the final word, step 4 (R172). -/
def lastWordSeq : List MicroOp := [.wait .rxNotEmpty, .rxHiNack, .wait .rxNotEmpty, .rxAdd]

/-- `µprog(BURST r, wc)`: R172's list. The list has 6 + 2·wc waits, where R170, R172's prose and R255 count 7 + 2·wc; the list
is followed (log 24). -/
def uprogBurst (reg : Byte) (wc : Nat) : List MicroOp :=
  beginSeq .write ++ txSeq reg ++ [.stop] ++ beginSeq .read ++ (List.replicate (wc - 1) wordSeq).flatten ++ lastWordSeq
    ++ [.stop, .ackOn, .commit]

end Sys2Proof.Machine
end

