-- ==== Sys2Proof/Machine/Dispatch.lean ====
section
/-! DEFINITION. `exec`: the step in which HOST's CMD write of a command is performed (40_engine_commands.md R120, R121), one
arm per row of the opcode table. An accepted command then runs its µprogram in ENGINE steps (Machine/Sequencer.lean; log 11). -/

namespace Sys2Proof.Machine

open Host

def exec (i : Instr) (s : State) : Host.Outcome State Fault Refusal :=
  match i with
  | .begin d => Sys2Proof.Machine.execBegin d s
  | .write len => Sys2Proof.Machine.execWrite len s
  | .readb => Sys2Proof.Machine.execReadb s
  | .setack en => Sys2Proof.Machine.execSetack en s
  | .stop => Sys2Proof.Machine.execStop s
  | .burst reg wc => Sys2Proof.Machine.execBurst reg wc s

end Sys2Proof.Machine
end

