-- ==== Sys2Proof/Machine/Sequencer.lean ====
section
/-! DEFINITION. The micro-sequencer ENGINE (40_engine_commands.md R124 to R126): the µprogram of a command, the µop at MPC, and
one ENGINE step. -/

namespace Sys2Proof.Machine

open Host

/-- `µprog(c)`, computed from CUR and PAYLOAD (R124). -/
def uprog (c : Instr) (payload : List Byte) : List MicroOp :=
  match c with
  | .begin d => uprogBegin d
  | .write len => uprogWrite len payload
  | .readb => uprogReadb
  | .setack en => uprogSetack en
  | .stop => uprogStop
  | .burst reg wc => uprogBurst reg wc

/-- The µprogram that is running; empty when CUR = none. -/
def runningProg (s : State) : List MicroOp :=
  match s.cur with
  | some c => uprog c s.payload
  | none => []

/-- `µprog(CUR)[MPC]` (R125). -/
def currentMicro (s : State) : Option MicroOp := (runningProg s)[s.mpc.toNat]?

/-- Advance (R125): past the last µop the command ends, otherwise MPC moves by 1. `len` is the µprogram's length. -/
def advance (len : Nat) (s : State) : State :=
  if s.mpc.toNat + 1 = len then endCommand s else { s with mpc := s.mpc + 1 }

/-- What the sequencer does with a µop's verdict (R125). -/
def applyVerdict (len : Nat) (r : State × Verdict) : State :=
  match r.2 with
  | .advance => advance len r.1
  | .stay => r.1
  | .abort f => abort f r.1

/-- `engine_step()` (R125), enabled exactly when BUSY = 1; with BUSY = 0 ENGINE has no step and the state stays (R22; log 1).
BUSY = 1 without a µop at MPC is no state of the spec (log 8). -/
def engineStep (s : State) : Outcome State Fault Refusal :=
  if s.busy then
    match currentMicro s with
    | some u => .next (applyVerdict (runningProg s).length (runMicro u s))
    | none => .fault .noMicroOp
  else .next s

/-- STATUS.WAIT (R30). -/
def waitField (s : State) : BitVec 3 :=
  if s.busy then
    match currentMicro s with
    | some (.wait f) => f.code
    | _ => 0
  else
    match s.tmoWhere with
    | some f => f.code
    | none => 0

end Sys2Proof.Machine
end

