-- ==== Sys2Proof/Machine/Host.lean ====
section
/-! DEFINITION. The agent HOST and the host register window (20_memory.md R61 to R70): STATUS, the read and write primitives,
and the CMD write that presents a command (40_engine_commands.md R120, R121). -/

namespace Sys2Proof.Machine

open Host

/-- STATUS (R34, R69): `{8'b0, BYTES, 1'b0, WAIT, ERR, CMD_OVR, PHASE, DIR, ACK_EN, RESULT_VALID, BUSY}`. -/
def statusWord (s : State) : Word :=
  0#8 ++ (s.bytes ++ (0#1 ++ (waitField s ++ (s.err.code ++ (BitVec.ofBool s.cmdOvr ++ (s.phase.code ++
    (BitVec.ofBool s.dir.bit ++ (BitVec.ofBool s.ackEn ++ (BitVec.ofBool s.resultValid ++ BitVec.ofBool s.busy)))))))))

/-- Whether an access is supported: 32 bits wide at an offset that is a multiple of 4 (R63). -/
def accessSupported (off n : Nat) : Bool := decide (n = 4) && decide (off % 4 = 0)

/-- The index of the TXBUF register at an aligned offset, if there is one (R61). -/
def txbufIndex (s : State) (off : Nat) : Option Nat :=
  if 0x10 ≤ off ∧ off < 0x10 + 4 * s.params.txbufDepth then some ((off - 0x10) / 4) else none

/-- The index of the RESULT register at an aligned offset, if there is one (R61). -/
def resultIndex (s : State) (off : Nat) : Option Nat :=
  if 0x40 ≤ off ∧ off < 0x40 + 4 * s.params.maxWords then some ((off - 0x40) / 4) else none

/-- The value a supported read returns (R69); reserved offsets and CMD read 0 (R64, R65). -/
def readReg (s : State) (off : Nat) : Word :=
  if off = 0x00 then 0
  else if off = 0x04 then statusWord s
  else if off = 0x08 then s.rxdata.setWidth 32
  else if off = 0x0C then s.limit.setWidth 32
  else
    match txbufIndex s off with
    | some i => (s.txbuf.getD i 0).setWidth 32
    | none =>
      match resultIndex s off with
      | some i => (s.result.getD i 0).setWidth 32
      | none => 0

/-- Byte `k` of the register at `off`, for a platform that puts the window on a byte-addressed bus: bits [8k+7:8k] at
REG_BASE + off + k, little-endian (R70, D29; log 20). -/
def regByte (s : State) (off k : Nat) : Byte := (readReg s off).extractLsb' (8 * k) 8

/-- The platform address of that byte, REG_BASE + off + k (R62, R70), a natural number that does not wrap (log 25). -/
def windowAddress (off k : Nat) : Nat := Config.regBase + off + k

/-- A CMD write (R120, R121): dropped with CMD_OVR while BUSY = 1; otherwise an illegal word is rejected with ILLEGAL_CMD
(R201), and a command is taken. -/
def presentWord (v : Word) (s : State) : Outcome State Fault Refusal :=
  if s.busy then .next (overrun s)
  else
    match decode v with
    | .error _ => .next (reject .illegalCmd (clearOutcome s))
    | .ok i => exec i s

/-- A supported write (R69); what is read-only or reserved ignores it (R64, R65). -/
def writeReg (off : Nat) (v : Word) (s : State) : Outcome State Fault Refusal :=
  if off = 0x00 then presentWord v s
  else if off = 0x0C then .next { s with limit := v.setWidth 16 }
  else
    match txbufIndex s off with
    | some i => .next { s with txbuf := s.txbuf.set i (v.setWidth 8) }
    | none => .next s

/-- `MemRead(off, n)` (R69): the value returned is recorded as HOST's observation (R19). -/
def memRead (off n : Nat) (s : State) : Outcome State Fault Refusal :=
  if accessSupported off n then .next (recordRead off (readReg s off) s) else .next (refuseAccess s)

/-- `MemWrite(off, n, v)` (R69). -/
def memWrite (off n : Nat) (v : Word) (s : State) : Outcome State Fault Refusal :=
  if accessSupported off n then writeReg off v s else .next (refuseAccess s)

/-- The offset of an access. -/
def Access.offset : Access → Nat
  | .read off _ => off
  | .write off _ _ => off

/-- A HOST step: one access (R13, R67). Only offsets below 0x100 belong to the block (R62; log 7). -/
def hostStep (a : Access) (s : State) : Outcome State Fault Refusal :=
  if Config.windowBytes ≤ a.offset then .refused .outsideWindow
  else
    match a with
    | .read off n => memRead off n s
    | .write off n v => memWrite off n v s

/-- The access by which HOST presents a command word: `wr 0x00, w` (R114). -/
def cmdWrite (w : Word) : Access := .write 0x00 4 w

end Sys2Proof.Machine
end

