-- ==== Sys2Proof/Machine/Step.lean ====
section
/-! DEFINITION. One step of the machine: the next step of the interleaving (00_scope.md R13, 20_memory.md R73), and where the
host's check places an instruction for it. -/

namespace Sys2Proof.Machine

open Host

/-- The step an event names: HOST (R69), ENGINE (R125), BUS (R78) or RESET (R230). -/
def applyEvent (e : Event) (s : State) : Outcome State Fault Refusal :=
  match e with
  | .host a => hostStep a s
  | .engine => engineStep s
  | .bus m => .next (busStep m s)
  | .reset => .next (resetStep s)

/-- The next step: the first of `inputs`; with none left, HOST and BUS take no further step and a busy ENGINE does (R252:
ENGINE is weakly fair, HOST and BUS need not step; log 2). -/
def step (s : State) : Outcome State Fault Refusal :=
  match s.inputs with
  | [] => engineStep s
  | e :: es => applyEvent e (s.withInputs es)

/-- The state in which the next step is HOST's CMD write of the given word (log 11). -/
def State.withFetchWord (s : State) (nbits w : Nat) : State :=
  s.withInputs (.host (cmdWrite (BitVec.ofNat 32 (w % 2 ^ nbits))) :: s.inputs)

end Sys2Proof.Machine
end

