-- ==== Sys2Proof/Laws/State.lean ====
section
/-! SUPPORT. One lemma per field per update of the state: what each named operation of Machine/Ops.lean and
Machine/Operands.lean writes, and that it leaves every other field alone. -/

namespace Sys2Proof.Machine

/-! ### withInputs -/

@[simp] theorem withInputs_busy (es : List Event) (s : State) : (State.withInputs es s).busy = s.busy := rfl
@[simp] theorem withInputs_phase (es : List Event) (s : State) : (State.withInputs es s).phase = s.phase := rfl
@[simp] theorem withInputs_dir (es : List Event) (s : State) : (State.withInputs es s).dir = s.dir := rfl
@[simp] theorem withInputs_ackEn (es : List Event) (s : State) : (State.withInputs es s).ackEn = s.ackEn := rfl
@[simp] theorem withInputs_resultValid (es : List Event) (s : State) : (State.withInputs es s).resultValid = s.resultValid := rfl
@[simp] theorem withInputs_cmdOvr (es : List Event) (s : State) : (State.withInputs es s).cmdOvr = s.cmdOvr := rfl
@[simp] theorem withInputs_err (es : List Event) (s : State) : (State.withInputs es s).err = s.err := rfl
@[simp] theorem withInputs_tmoWhere (es : List Event) (s : State) : (State.withInputs es s).tmoWhere = s.tmoWhere := rfl
@[simp] theorem withInputs_bytes (es : List Event) (s : State) : (State.withInputs es s).bytes = s.bytes := rfl
@[simp] theorem withInputs_rxdata (es : List Event) (s : State) : (State.withInputs es s).rxdata = s.rxdata := rfl
@[simp] theorem withInputs_limit (es : List Event) (s : State) : (State.withInputs es s).limit = s.limit := rfl
@[simp] theorem withInputs_txbuf (es : List Event) (s : State) : (State.withInputs es s).txbuf = s.txbuf := rfl
@[simp] theorem withInputs_result (es : List Event) (s : State) : (State.withInputs es s).result = s.result := rfl
@[simp] theorem withInputs_cur (es : List Event) (s : State) : (State.withInputs es s).cur = s.cur := rfl
@[simp] theorem withInputs_mpc (es : List Event) (s : State) : (State.withInputs es s).mpc = s.mpc := rfl
@[simp] theorem withInputs_spin (es : List Event) (s : State) : (State.withInputs es s).spin = s.spin := rfl
@[simp] theorem withInputs_payload (es : List Event) (s : State) : (State.withInputs es s).payload = s.payload := rfl
@[simp] theorem withInputs_work (es : List Event) (s : State) : (State.withInputs es s).work = s.work := rfl
@[simp] theorem withInputs_acc (es : List Event) (s : State) : (State.withInputs es s).acc = s.acc := rfl
@[simp] theorem withInputs_widx (es : List Event) (s : State) : (State.withInputs es s).widx = s.widx := rfl
@[simp] theorem withInputs_startSent (es : List Event) (s : State) : (State.withInputs es s).startSent = s.startSent := rfl
@[simp] theorem withInputs_addrAcked (es : List Event) (s : State) : (State.withInputs es s).addrAcked = s.addrAcked := rfl
@[simp] theorem withInputs_rxNotEmpty (es : List Event) (s : State) : (State.withInputs es s).rxNotEmpty = s.rxNotEmpty := rfl
@[simp] theorem withInputs_preq (es : List Event) (s : State) : (State.withInputs es s).preq = s.preq := rfl
@[simp] theorem withInputs_dr (es : List Event) (s : State) : (State.withInputs es s).dr = s.dr := rfl
@[simp] theorem withInputs_rxmode (es : List Event) (s : State) : (State.withInputs es s).rxmode = s.rxmode := rfl
@[simp] theorem withInputs_rxmore (es : List Event) (s : State) : (State.withInputs es s).rxmore = s.rxmore := rfl
@[simp] theorem withInputs_shift (es : List Event) (s : State) : (State.withInputs es s).shift = s.shift := rfl
@[simp] theorem withInputs_trace (es : List Event) (s : State) : (State.withInputs es s).trace = s.trace := rfl
@[simp] theorem withInputs_refused (es : List Event) (s : State) : (State.withInputs es s).refused = s.refused := rfl
@[simp] theorem withInputs_fault (es : List Event) (s : State) : (State.withInputs es s).fault = s.fault := rfl
@[simp] theorem withInputs_params (es : List Event) (s : State) : (State.withInputs es s).params = s.params := rfl
@[simp] theorem withInputs_inputs (es : List Event) (s : State) : (State.withInputs es s).inputs = es := rfl
@[simp] theorem withInputs_reads (es : List Event) (s : State) : (State.withInputs es s).reads = s.reads := rfl

/-! ### popRequest -/

@[simp] theorem popRequest_busy (s : State) : (popRequest s).busy = s.busy := rfl
@[simp] theorem popRequest_phase (s : State) : (popRequest s).phase = s.phase := rfl
@[simp] theorem popRequest_dir (s : State) : (popRequest s).dir = s.dir := rfl
@[simp] theorem popRequest_ackEn (s : State) : (popRequest s).ackEn = s.ackEn := rfl
@[simp] theorem popRequest_resultValid (s : State) : (popRequest s).resultValid = s.resultValid := rfl
@[simp] theorem popRequest_cmdOvr (s : State) : (popRequest s).cmdOvr = s.cmdOvr := rfl
@[simp] theorem popRequest_err (s : State) : (popRequest s).err = s.err := rfl
@[simp] theorem popRequest_tmoWhere (s : State) : (popRequest s).tmoWhere = s.tmoWhere := rfl
@[simp] theorem popRequest_bytes (s : State) : (popRequest s).bytes = s.bytes := rfl
@[simp] theorem popRequest_rxdata (s : State) : (popRequest s).rxdata = s.rxdata := rfl
@[simp] theorem popRequest_limit (s : State) : (popRequest s).limit = s.limit := rfl
@[simp] theorem popRequest_txbuf (s : State) : (popRequest s).txbuf = s.txbuf := rfl
@[simp] theorem popRequest_result (s : State) : (popRequest s).result = s.result := rfl
@[simp] theorem popRequest_cur (s : State) : (popRequest s).cur = s.cur := rfl
@[simp] theorem popRequest_mpc (s : State) : (popRequest s).mpc = s.mpc := rfl
@[simp] theorem popRequest_spin (s : State) : (popRequest s).spin = s.spin := rfl
@[simp] theorem popRequest_payload (s : State) : (popRequest s).payload = s.payload := rfl
@[simp] theorem popRequest_work (s : State) : (popRequest s).work = s.work := rfl
@[simp] theorem popRequest_acc (s : State) : (popRequest s).acc = s.acc := rfl
@[simp] theorem popRequest_widx (s : State) : (popRequest s).widx = s.widx := rfl
@[simp] theorem popRequest_startSent (s : State) : (popRequest s).startSent = s.startSent := rfl
@[simp] theorem popRequest_addrAcked (s : State) : (popRequest s).addrAcked = s.addrAcked := rfl
@[simp] theorem popRequest_rxNotEmpty (s : State) : (popRequest s).rxNotEmpty = s.rxNotEmpty := rfl
@[simp] theorem popRequest_preq (s : State) : (popRequest s).preq = s.preq.tail := rfl
@[simp] theorem popRequest_dr (s : State) : (popRequest s).dr = s.dr := rfl
@[simp] theorem popRequest_rxmode (s : State) : (popRequest s).rxmode = s.rxmode := rfl
@[simp] theorem popRequest_rxmore (s : State) : (popRequest s).rxmore = s.rxmore := rfl
@[simp] theorem popRequest_shift (s : State) : (popRequest s).shift = s.shift := rfl
@[simp] theorem popRequest_trace (s : State) : (popRequest s).trace = s.trace := rfl
@[simp] theorem popRequest_refused (s : State) : (popRequest s).refused = s.refused := rfl
@[simp] theorem popRequest_fault (s : State) : (popRequest s).fault = s.fault := rfl
@[simp] theorem popRequest_params (s : State) : (popRequest s).params = s.params := rfl
@[simp] theorem popRequest_inputs (s : State) : (popRequest s).inputs = s.inputs := rfl
@[simp] theorem popRequest_reads (s : State) : (popRequest s).reads = s.reads := rfl

/-! ### traceAppend -/

@[simp] theorem traceAppend_busy (e : BusEvent) (s : State) : (traceAppend e s).busy = s.busy := rfl
@[simp] theorem traceAppend_phase (e : BusEvent) (s : State) : (traceAppend e s).phase = s.phase := rfl
@[simp] theorem traceAppend_dir (e : BusEvent) (s : State) : (traceAppend e s).dir = s.dir := rfl
@[simp] theorem traceAppend_ackEn (e : BusEvent) (s : State) : (traceAppend e s).ackEn = s.ackEn := rfl
@[simp] theorem traceAppend_resultValid (e : BusEvent) (s : State) : (traceAppend e s).resultValid = s.resultValid := rfl
@[simp] theorem traceAppend_cmdOvr (e : BusEvent) (s : State) : (traceAppend e s).cmdOvr = s.cmdOvr := rfl
@[simp] theorem traceAppend_err (e : BusEvent) (s : State) : (traceAppend e s).err = s.err := rfl
@[simp] theorem traceAppend_tmoWhere (e : BusEvent) (s : State) : (traceAppend e s).tmoWhere = s.tmoWhere := rfl
@[simp] theorem traceAppend_bytes (e : BusEvent) (s : State) : (traceAppend e s).bytes = s.bytes := rfl
@[simp] theorem traceAppend_rxdata (e : BusEvent) (s : State) : (traceAppend e s).rxdata = s.rxdata := rfl
@[simp] theorem traceAppend_limit (e : BusEvent) (s : State) : (traceAppend e s).limit = s.limit := rfl
@[simp] theorem traceAppend_txbuf (e : BusEvent) (s : State) : (traceAppend e s).txbuf = s.txbuf := rfl
@[simp] theorem traceAppend_result (e : BusEvent) (s : State) : (traceAppend e s).result = s.result := rfl
@[simp] theorem traceAppend_cur (e : BusEvent) (s : State) : (traceAppend e s).cur = s.cur := rfl
@[simp] theorem traceAppend_mpc (e : BusEvent) (s : State) : (traceAppend e s).mpc = s.mpc := rfl
@[simp] theorem traceAppend_spin (e : BusEvent) (s : State) : (traceAppend e s).spin = s.spin := rfl
@[simp] theorem traceAppend_payload (e : BusEvent) (s : State) : (traceAppend e s).payload = s.payload := rfl
@[simp] theorem traceAppend_work (e : BusEvent) (s : State) : (traceAppend e s).work = s.work := rfl
@[simp] theorem traceAppend_acc (e : BusEvent) (s : State) : (traceAppend e s).acc = s.acc := rfl
@[simp] theorem traceAppend_widx (e : BusEvent) (s : State) : (traceAppend e s).widx = s.widx := rfl
@[simp] theorem traceAppend_startSent (e : BusEvent) (s : State) : (traceAppend e s).startSent = s.startSent := rfl
@[simp] theorem traceAppend_addrAcked (e : BusEvent) (s : State) : (traceAppend e s).addrAcked = s.addrAcked := rfl
@[simp] theorem traceAppend_rxNotEmpty (e : BusEvent) (s : State) : (traceAppend e s).rxNotEmpty = s.rxNotEmpty := rfl
@[simp] theorem traceAppend_preq (e : BusEvent) (s : State) : (traceAppend e s).preq = s.preq := rfl
@[simp] theorem traceAppend_dr (e : BusEvent) (s : State) : (traceAppend e s).dr = s.dr := rfl
@[simp] theorem traceAppend_rxmode (e : BusEvent) (s : State) : (traceAppend e s).rxmode = s.rxmode := rfl
@[simp] theorem traceAppend_rxmore (e : BusEvent) (s : State) : (traceAppend e s).rxmore = s.rxmore := rfl
@[simp] theorem traceAppend_shift (e : BusEvent) (s : State) : (traceAppend e s).shift = s.shift := rfl
@[simp] theorem traceAppend_trace (e : BusEvent) (s : State) : (traceAppend e s).trace = s.trace ++ [e] := rfl
@[simp] theorem traceAppend_refused (e : BusEvent) (s : State) : (traceAppend e s).refused = s.refused := rfl
@[simp] theorem traceAppend_fault (e : BusEvent) (s : State) : (traceAppend e s).fault = s.fault := rfl
@[simp] theorem traceAppend_params (e : BusEvent) (s : State) : (traceAppend e s).params = s.params := rfl
@[simp] theorem traceAppend_inputs (e : BusEvent) (s : State) : (traceAppend e s).inputs = s.inputs := rfl
@[simp] theorem traceAppend_reads (e : BusEvent) (s : State) : (traceAppend e s).reads = s.reads := rfl

/-! ### overrun -/

@[simp] theorem overrun_busy (s : State) : (overrun s).busy = s.busy := rfl
@[simp] theorem overrun_phase (s : State) : (overrun s).phase = s.phase := rfl
@[simp] theorem overrun_dir (s : State) : (overrun s).dir = s.dir := rfl
@[simp] theorem overrun_ackEn (s : State) : (overrun s).ackEn = s.ackEn := rfl
@[simp] theorem overrun_resultValid (s : State) : (overrun s).resultValid = s.resultValid := rfl
@[simp] theorem overrun_cmdOvr (s : State) : (overrun s).cmdOvr = true := rfl
@[simp] theorem overrun_err (s : State) : (overrun s).err = s.err := rfl
@[simp] theorem overrun_tmoWhere (s : State) : (overrun s).tmoWhere = s.tmoWhere := rfl
@[simp] theorem overrun_bytes (s : State) : (overrun s).bytes = s.bytes := rfl
@[simp] theorem overrun_rxdata (s : State) : (overrun s).rxdata = s.rxdata := rfl
@[simp] theorem overrun_limit (s : State) : (overrun s).limit = s.limit := rfl
@[simp] theorem overrun_txbuf (s : State) : (overrun s).txbuf = s.txbuf := rfl
@[simp] theorem overrun_result (s : State) : (overrun s).result = s.result := rfl
@[simp] theorem overrun_cur (s : State) : (overrun s).cur = s.cur := rfl
@[simp] theorem overrun_mpc (s : State) : (overrun s).mpc = s.mpc := rfl
@[simp] theorem overrun_spin (s : State) : (overrun s).spin = s.spin := rfl
@[simp] theorem overrun_payload (s : State) : (overrun s).payload = s.payload := rfl
@[simp] theorem overrun_work (s : State) : (overrun s).work = s.work := rfl
@[simp] theorem overrun_acc (s : State) : (overrun s).acc = s.acc := rfl
@[simp] theorem overrun_widx (s : State) : (overrun s).widx = s.widx := rfl
@[simp] theorem overrun_startSent (s : State) : (overrun s).startSent = s.startSent := rfl
@[simp] theorem overrun_addrAcked (s : State) : (overrun s).addrAcked = s.addrAcked := rfl
@[simp] theorem overrun_rxNotEmpty (s : State) : (overrun s).rxNotEmpty = s.rxNotEmpty := rfl
@[simp] theorem overrun_preq (s : State) : (overrun s).preq = s.preq := rfl
@[simp] theorem overrun_dr (s : State) : (overrun s).dr = s.dr := rfl
@[simp] theorem overrun_rxmode (s : State) : (overrun s).rxmode = s.rxmode := rfl
@[simp] theorem overrun_rxmore (s : State) : (overrun s).rxmore = s.rxmore := rfl
@[simp] theorem overrun_shift (s : State) : (overrun s).shift = s.shift := rfl
@[simp] theorem overrun_trace (s : State) : (overrun s).trace = s.trace := rfl
@[simp] theorem overrun_refused (s : State) : (overrun s).refused = s.refused := rfl
@[simp] theorem overrun_fault (s : State) : (overrun s).fault = s.fault := rfl
@[simp] theorem overrun_params (s : State) : (overrun s).params = s.params := rfl
@[simp] theorem overrun_inputs (s : State) : (overrun s).inputs = s.inputs := rfl
@[simp] theorem overrun_reads (s : State) : (overrun s).reads = s.reads := rfl

/-! ### clearOutcome -/

@[simp] theorem clearOutcome_busy (s : State) : (clearOutcome s).busy = s.busy := rfl
@[simp] theorem clearOutcome_phase (s : State) : (clearOutcome s).phase = s.phase := rfl
@[simp] theorem clearOutcome_dir (s : State) : (clearOutcome s).dir = s.dir := rfl
@[simp] theorem clearOutcome_ackEn (s : State) : (clearOutcome s).ackEn = s.ackEn := rfl
@[simp] theorem clearOutcome_resultValid (s : State) : (clearOutcome s).resultValid = s.resultValid := rfl
@[simp] theorem clearOutcome_cmdOvr (s : State) : (clearOutcome s).cmdOvr = false := rfl
@[simp] theorem clearOutcome_err (s : State) : (clearOutcome s).err = .none := rfl
@[simp] theorem clearOutcome_tmoWhere (s : State) : (clearOutcome s).tmoWhere = none := rfl
@[simp] theorem clearOutcome_bytes (s : State) : (clearOutcome s).bytes = s.bytes := rfl
@[simp] theorem clearOutcome_rxdata (s : State) : (clearOutcome s).rxdata = s.rxdata := rfl
@[simp] theorem clearOutcome_limit (s : State) : (clearOutcome s).limit = s.limit := rfl
@[simp] theorem clearOutcome_txbuf (s : State) : (clearOutcome s).txbuf = s.txbuf := rfl
@[simp] theorem clearOutcome_result (s : State) : (clearOutcome s).result = s.result := rfl
@[simp] theorem clearOutcome_cur (s : State) : (clearOutcome s).cur = s.cur := rfl
@[simp] theorem clearOutcome_mpc (s : State) : (clearOutcome s).mpc = s.mpc := rfl
@[simp] theorem clearOutcome_spin (s : State) : (clearOutcome s).spin = s.spin := rfl
@[simp] theorem clearOutcome_payload (s : State) : (clearOutcome s).payload = s.payload := rfl
@[simp] theorem clearOutcome_work (s : State) : (clearOutcome s).work = s.work := rfl
@[simp] theorem clearOutcome_acc (s : State) : (clearOutcome s).acc = s.acc := rfl
@[simp] theorem clearOutcome_widx (s : State) : (clearOutcome s).widx = s.widx := rfl
@[simp] theorem clearOutcome_startSent (s : State) : (clearOutcome s).startSent = s.startSent := rfl
@[simp] theorem clearOutcome_addrAcked (s : State) : (clearOutcome s).addrAcked = s.addrAcked := rfl
@[simp] theorem clearOutcome_rxNotEmpty (s : State) : (clearOutcome s).rxNotEmpty = s.rxNotEmpty := rfl
@[simp] theorem clearOutcome_preq (s : State) : (clearOutcome s).preq = s.preq := rfl
@[simp] theorem clearOutcome_dr (s : State) : (clearOutcome s).dr = s.dr := rfl
@[simp] theorem clearOutcome_rxmode (s : State) : (clearOutcome s).rxmode = s.rxmode := rfl
@[simp] theorem clearOutcome_rxmore (s : State) : (clearOutcome s).rxmore = s.rxmore := rfl
@[simp] theorem clearOutcome_shift (s : State) : (clearOutcome s).shift = s.shift := rfl
@[simp] theorem clearOutcome_trace (s : State) : (clearOutcome s).trace = s.trace := rfl
@[simp] theorem clearOutcome_refused (s : State) : (clearOutcome s).refused = s.refused := rfl
@[simp] theorem clearOutcome_fault (s : State) : (clearOutcome s).fault = s.fault := rfl
@[simp] theorem clearOutcome_params (s : State) : (clearOutcome s).params = s.params := rfl
@[simp] theorem clearOutcome_inputs (s : State) : (clearOutcome s).inputs = s.inputs := rfl
@[simp] theorem clearOutcome_reads (s : State) : (clearOutcome s).reads = s.reads := rfl

/-! ### reject -/

@[simp] theorem reject_busy (e : ErrCode) (s : State) : (reject e s).busy = s.busy := rfl
@[simp] theorem reject_phase (e : ErrCode) (s : State) : (reject e s).phase = s.phase := rfl
@[simp] theorem reject_dir (e : ErrCode) (s : State) : (reject e s).dir = s.dir := rfl
@[simp] theorem reject_ackEn (e : ErrCode) (s : State) : (reject e s).ackEn = s.ackEn := rfl
@[simp] theorem reject_resultValid (e : ErrCode) (s : State) : (reject e s).resultValid = s.resultValid := rfl
@[simp] theorem reject_cmdOvr (e : ErrCode) (s : State) : (reject e s).cmdOvr = s.cmdOvr := rfl
@[simp] theorem reject_err (e : ErrCode) (s : State) : (reject e s).err = e := rfl
@[simp] theorem reject_tmoWhere (e : ErrCode) (s : State) : (reject e s).tmoWhere = s.tmoWhere := rfl
@[simp] theorem reject_bytes (e : ErrCode) (s : State) : (reject e s).bytes = s.bytes := rfl
@[simp] theorem reject_rxdata (e : ErrCode) (s : State) : (reject e s).rxdata = s.rxdata := rfl
@[simp] theorem reject_limit (e : ErrCode) (s : State) : (reject e s).limit = s.limit := rfl
@[simp] theorem reject_txbuf (e : ErrCode) (s : State) : (reject e s).txbuf = s.txbuf := rfl
@[simp] theorem reject_result (e : ErrCode) (s : State) : (reject e s).result = s.result := rfl
@[simp] theorem reject_cur (e : ErrCode) (s : State) : (reject e s).cur = s.cur := rfl
@[simp] theorem reject_mpc (e : ErrCode) (s : State) : (reject e s).mpc = s.mpc := rfl
@[simp] theorem reject_spin (e : ErrCode) (s : State) : (reject e s).spin = s.spin := rfl
@[simp] theorem reject_payload (e : ErrCode) (s : State) : (reject e s).payload = s.payload := rfl
@[simp] theorem reject_work (e : ErrCode) (s : State) : (reject e s).work = s.work := rfl
@[simp] theorem reject_acc (e : ErrCode) (s : State) : (reject e s).acc = s.acc := rfl
@[simp] theorem reject_widx (e : ErrCode) (s : State) : (reject e s).widx = s.widx := rfl
@[simp] theorem reject_startSent (e : ErrCode) (s : State) : (reject e s).startSent = s.startSent := rfl
@[simp] theorem reject_addrAcked (e : ErrCode) (s : State) : (reject e s).addrAcked = s.addrAcked := rfl
@[simp] theorem reject_rxNotEmpty (e : ErrCode) (s : State) : (reject e s).rxNotEmpty = s.rxNotEmpty := rfl
@[simp] theorem reject_preq (e : ErrCode) (s : State) : (reject e s).preq = s.preq := rfl
@[simp] theorem reject_dr (e : ErrCode) (s : State) : (reject e s).dr = s.dr := rfl
@[simp] theorem reject_rxmode (e : ErrCode) (s : State) : (reject e s).rxmode = s.rxmode := rfl
@[simp] theorem reject_rxmore (e : ErrCode) (s : State) : (reject e s).rxmore = s.rxmore := rfl
@[simp] theorem reject_shift (e : ErrCode) (s : State) : (reject e s).shift = s.shift := rfl
@[simp] theorem reject_trace (e : ErrCode) (s : State) : (reject e s).trace = s.trace := rfl
@[simp] theorem reject_refused (e : ErrCode) (s : State) : (reject e s).refused = s.refused := rfl
@[simp] theorem reject_fault (e : ErrCode) (s : State) : (reject e s).fault = s.fault := rfl
@[simp] theorem reject_params (e : ErrCode) (s : State) : (reject e s).params = s.params := rfl
@[simp] theorem reject_inputs (e : ErrCode) (s : State) : (reject e s).inputs = s.inputs := rfl
@[simp] theorem reject_reads (e : ErrCode) (s : State) : (reject e s).reads = s.reads := rfl

/-! ### accept -/

@[simp] theorem accept_busy (c : Instr) (s : State) : (accept c s).busy = true := rfl
@[simp] theorem accept_phase (c : Instr) (s : State) : (accept c s).phase = s.phase := rfl
@[simp] theorem accept_dir (c : Instr) (s : State) : (accept c s).dir = s.dir := rfl
@[simp] theorem accept_ackEn (c : Instr) (s : State) : (accept c s).ackEn = s.ackEn := rfl
@[simp] theorem accept_resultValid (c : Instr) (s : State) : (accept c s).resultValid = s.resultValid := rfl
@[simp] theorem accept_cmdOvr (c : Instr) (s : State) : (accept c s).cmdOvr = s.cmdOvr := rfl
@[simp] theorem accept_err (c : Instr) (s : State) : (accept c s).err = s.err := rfl
@[simp] theorem accept_tmoWhere (c : Instr) (s : State) : (accept c s).tmoWhere = s.tmoWhere := rfl
@[simp] theorem accept_bytes (c : Instr) (s : State) : (accept c s).bytes = s.bytes := rfl
@[simp] theorem accept_rxdata (c : Instr) (s : State) : (accept c s).rxdata = s.rxdata := rfl
@[simp] theorem accept_limit (c : Instr) (s : State) : (accept c s).limit = s.limit := rfl
@[simp] theorem accept_txbuf (c : Instr) (s : State) : (accept c s).txbuf = s.txbuf := rfl
@[simp] theorem accept_result (c : Instr) (s : State) : (accept c s).result = s.result := rfl
@[simp] theorem accept_cur (c : Instr) (s : State) : (accept c s).cur = some c := rfl
@[simp] theorem accept_mpc (c : Instr) (s : State) : (accept c s).mpc = 0 := rfl
@[simp] theorem accept_spin (c : Instr) (s : State) : (accept c s).spin = 0 := rfl
@[simp] theorem accept_payload (c : Instr) (s : State) : (accept c s).payload = s.payload := rfl
@[simp] theorem accept_work (c : Instr) (s : State) : (accept c s).work = s.work := rfl
@[simp] theorem accept_acc (c : Instr) (s : State) : (accept c s).acc = s.acc := rfl
@[simp] theorem accept_widx (c : Instr) (s : State) : (accept c s).widx = s.widx := rfl
@[simp] theorem accept_startSent (c : Instr) (s : State) : (accept c s).startSent = s.startSent := rfl
@[simp] theorem accept_addrAcked (c : Instr) (s : State) : (accept c s).addrAcked = s.addrAcked := rfl
@[simp] theorem accept_rxNotEmpty (c : Instr) (s : State) : (accept c s).rxNotEmpty = s.rxNotEmpty := rfl
@[simp] theorem accept_preq (c : Instr) (s : State) : (accept c s).preq = s.preq := rfl
@[simp] theorem accept_dr (c : Instr) (s : State) : (accept c s).dr = s.dr := rfl
@[simp] theorem accept_rxmode (c : Instr) (s : State) : (accept c s).rxmode = s.rxmode := rfl
@[simp] theorem accept_rxmore (c : Instr) (s : State) : (accept c s).rxmore = s.rxmore := rfl
@[simp] theorem accept_shift (c : Instr) (s : State) : (accept c s).shift = s.shift := rfl
@[simp] theorem accept_trace (c : Instr) (s : State) : (accept c s).trace = s.trace := rfl
@[simp] theorem accept_refused (c : Instr) (s : State) : (accept c s).refused = s.refused := rfl
@[simp] theorem accept_fault (c : Instr) (s : State) : (accept c s).fault = s.fault := rfl
@[simp] theorem accept_params (c : Instr) (s : State) : (accept c s).params = s.params := rfl
@[simp] theorem accept_inputs (c : Instr) (s : State) : (accept c s).inputs = s.inputs := rfl
@[simp] theorem accept_reads (c : Instr) (s : State) : (accept c s).reads = s.reads := rfl

/-! ### latchPayload -/

@[simp] theorem latchPayload_busy (n : Nat) (s : State) : (latchPayload n s).busy = s.busy := rfl
@[simp] theorem latchPayload_phase (n : Nat) (s : State) : (latchPayload n s).phase = s.phase := rfl
@[simp] theorem latchPayload_dir (n : Nat) (s : State) : (latchPayload n s).dir = s.dir := rfl
@[simp] theorem latchPayload_ackEn (n : Nat) (s : State) : (latchPayload n s).ackEn = s.ackEn := rfl
@[simp] theorem latchPayload_resultValid (n : Nat) (s : State) : (latchPayload n s).resultValid = s.resultValid := rfl
@[simp] theorem latchPayload_cmdOvr (n : Nat) (s : State) : (latchPayload n s).cmdOvr = s.cmdOvr := rfl
@[simp] theorem latchPayload_err (n : Nat) (s : State) : (latchPayload n s).err = s.err := rfl
@[simp] theorem latchPayload_tmoWhere (n : Nat) (s : State) : (latchPayload n s).tmoWhere = s.tmoWhere := rfl
@[simp] theorem latchPayload_bytes (n : Nat) (s : State) : (latchPayload n s).bytes = s.bytes := rfl
@[simp] theorem latchPayload_rxdata (n : Nat) (s : State) : (latchPayload n s).rxdata = s.rxdata := rfl
@[simp] theorem latchPayload_limit (n : Nat) (s : State) : (latchPayload n s).limit = s.limit := rfl
@[simp] theorem latchPayload_txbuf (n : Nat) (s : State) : (latchPayload n s).txbuf = s.txbuf := rfl
@[simp] theorem latchPayload_result (n : Nat) (s : State) : (latchPayload n s).result = s.result := rfl
@[simp] theorem latchPayload_cur (n : Nat) (s : State) : (latchPayload n s).cur = s.cur := rfl
@[simp] theorem latchPayload_mpc (n : Nat) (s : State) : (latchPayload n s).mpc = s.mpc := rfl
@[simp] theorem latchPayload_spin (n : Nat) (s : State) : (latchPayload n s).spin = s.spin := rfl
@[simp] theorem latchPayload_payload (n : Nat) (s : State) : (latchPayload n s).payload = s.txbuf.take n ++ s.payload.drop n := rfl
@[simp] theorem latchPayload_work (n : Nat) (s : State) : (latchPayload n s).work = s.work := rfl
@[simp] theorem latchPayload_acc (n : Nat) (s : State) : (latchPayload n s).acc = s.acc := rfl
@[simp] theorem latchPayload_widx (n : Nat) (s : State) : (latchPayload n s).widx = s.widx := rfl
@[simp] theorem latchPayload_startSent (n : Nat) (s : State) : (latchPayload n s).startSent = s.startSent := rfl
@[simp] theorem latchPayload_addrAcked (n : Nat) (s : State) : (latchPayload n s).addrAcked = s.addrAcked := rfl
@[simp] theorem latchPayload_rxNotEmpty (n : Nat) (s : State) : (latchPayload n s).rxNotEmpty = s.rxNotEmpty := rfl
@[simp] theorem latchPayload_preq (n : Nat) (s : State) : (latchPayload n s).preq = s.preq := rfl
@[simp] theorem latchPayload_dr (n : Nat) (s : State) : (latchPayload n s).dr = s.dr := rfl
@[simp] theorem latchPayload_rxmode (n : Nat) (s : State) : (latchPayload n s).rxmode = s.rxmode := rfl
@[simp] theorem latchPayload_rxmore (n : Nat) (s : State) : (latchPayload n s).rxmore = s.rxmore := rfl
@[simp] theorem latchPayload_shift (n : Nat) (s : State) : (latchPayload n s).shift = s.shift := rfl
@[simp] theorem latchPayload_trace (n : Nat) (s : State) : (latchPayload n s).trace = s.trace := rfl
@[simp] theorem latchPayload_refused (n : Nat) (s : State) : (latchPayload n s).refused = s.refused := rfl
@[simp] theorem latchPayload_fault (n : Nat) (s : State) : (latchPayload n s).fault = s.fault := rfl
@[simp] theorem latchPayload_params (n : Nat) (s : State) : (latchPayload n s).params = s.params := rfl
@[simp] theorem latchPayload_inputs (n : Nat) (s : State) : (latchPayload n s).inputs = s.inputs := rfl
@[simp] theorem latchPayload_reads (n : Nat) (s : State) : (latchPayload n s).reads = s.reads := rfl

/-! ### openBurst -/

@[simp] theorem openBurst_busy (s : State) : (openBurst s).busy = s.busy := rfl
@[simp] theorem openBurst_phase (s : State) : (openBurst s).phase = s.phase := rfl
@[simp] theorem openBurst_dir (s : State) : (openBurst s).dir = s.dir := rfl
@[simp] theorem openBurst_ackEn (s : State) : (openBurst s).ackEn = s.ackEn := rfl
@[simp] theorem openBurst_resultValid (s : State) : (openBurst s).resultValid = false := rfl
@[simp] theorem openBurst_cmdOvr (s : State) : (openBurst s).cmdOvr = s.cmdOvr := rfl
@[simp] theorem openBurst_err (s : State) : (openBurst s).err = s.err := rfl
@[simp] theorem openBurst_tmoWhere (s : State) : (openBurst s).tmoWhere = s.tmoWhere := rfl
@[simp] theorem openBurst_bytes (s : State) : (openBurst s).bytes = 0 := rfl
@[simp] theorem openBurst_rxdata (s : State) : (openBurst s).rxdata = s.rxdata := rfl
@[simp] theorem openBurst_limit (s : State) : (openBurst s).limit = s.limit := rfl
@[simp] theorem openBurst_txbuf (s : State) : (openBurst s).txbuf = s.txbuf := rfl
@[simp] theorem openBurst_result (s : State) : (openBurst s).result = s.result := rfl
@[simp] theorem openBurst_cur (s : State) : (openBurst s).cur = s.cur := rfl
@[simp] theorem openBurst_mpc (s : State) : (openBurst s).mpc = s.mpc := rfl
@[simp] theorem openBurst_spin (s : State) : (openBurst s).spin = s.spin := rfl
@[simp] theorem openBurst_payload (s : State) : (openBurst s).payload = s.payload := rfl
@[simp] theorem openBurst_work (s : State) : (openBurst s).work = List.replicate s.params.maxWords 0 := rfl
@[simp] theorem openBurst_acc (s : State) : (openBurst s).acc = 0 := rfl
@[simp] theorem openBurst_widx (s : State) : (openBurst s).widx = 0 := rfl
@[simp] theorem openBurst_startSent (s : State) : (openBurst s).startSent = s.startSent := rfl
@[simp] theorem openBurst_addrAcked (s : State) : (openBurst s).addrAcked = s.addrAcked := rfl
@[simp] theorem openBurst_rxNotEmpty (s : State) : (openBurst s).rxNotEmpty = s.rxNotEmpty := rfl
@[simp] theorem openBurst_preq (s : State) : (openBurst s).preq = s.preq := rfl
@[simp] theorem openBurst_dr (s : State) : (openBurst s).dr = s.dr := rfl
@[simp] theorem openBurst_rxmode (s : State) : (openBurst s).rxmode = s.rxmode := rfl
@[simp] theorem openBurst_rxmore (s : State) : (openBurst s).rxmore = s.rxmore := rfl
@[simp] theorem openBurst_shift (s : State) : (openBurst s).shift = s.shift := rfl
@[simp] theorem openBurst_trace (s : State) : (openBurst s).trace = s.trace := rfl
@[simp] theorem openBurst_refused (s : State) : (openBurst s).refused = s.refused := rfl
@[simp] theorem openBurst_fault (s : State) : (openBurst s).fault = s.fault := rfl
@[simp] theorem openBurst_params (s : State) : (openBurst s).params = s.params := rfl
@[simp] theorem openBurst_inputs (s : State) : (openBurst s).inputs = s.inputs := rfl
@[simp] theorem openBurst_reads (s : State) : (openBurst s).reads = s.reads := rfl

/-! ### endCommand -/

@[simp] theorem endCommand_busy (s : State) : (endCommand s).busy = false := rfl
@[simp] theorem endCommand_phase (s : State) : (endCommand s).phase = s.phase := rfl
@[simp] theorem endCommand_dir (s : State) : (endCommand s).dir = s.dir := rfl
@[simp] theorem endCommand_ackEn (s : State) : (endCommand s).ackEn = s.ackEn := rfl
@[simp] theorem endCommand_resultValid (s : State) : (endCommand s).resultValid = s.resultValid := rfl
@[simp] theorem endCommand_cmdOvr (s : State) : (endCommand s).cmdOvr = s.cmdOvr := rfl
@[simp] theorem endCommand_err (s : State) : (endCommand s).err = s.err := rfl
@[simp] theorem endCommand_tmoWhere (s : State) : (endCommand s).tmoWhere = s.tmoWhere := rfl
@[simp] theorem endCommand_bytes (s : State) : (endCommand s).bytes = s.bytes := rfl
@[simp] theorem endCommand_rxdata (s : State) : (endCommand s).rxdata = s.rxdata := rfl
@[simp] theorem endCommand_limit (s : State) : (endCommand s).limit = s.limit := rfl
@[simp] theorem endCommand_txbuf (s : State) : (endCommand s).txbuf = s.txbuf := rfl
@[simp] theorem endCommand_result (s : State) : (endCommand s).result = s.result := rfl
@[simp] theorem endCommand_cur (s : State) : (endCommand s).cur = none := rfl
@[simp] theorem endCommand_mpc (s : State) : (endCommand s).mpc = 0 := rfl
@[simp] theorem endCommand_spin (s : State) : (endCommand s).spin = s.spin := rfl
@[simp] theorem endCommand_payload (s : State) : (endCommand s).payload = s.payload := rfl
@[simp] theorem endCommand_work (s : State) : (endCommand s).work = s.work := rfl
@[simp] theorem endCommand_acc (s : State) : (endCommand s).acc = s.acc := rfl
@[simp] theorem endCommand_widx (s : State) : (endCommand s).widx = s.widx := rfl
@[simp] theorem endCommand_startSent (s : State) : (endCommand s).startSent = s.startSent := rfl
@[simp] theorem endCommand_addrAcked (s : State) : (endCommand s).addrAcked = s.addrAcked := rfl
@[simp] theorem endCommand_rxNotEmpty (s : State) : (endCommand s).rxNotEmpty = s.rxNotEmpty := rfl
@[simp] theorem endCommand_preq (s : State) : (endCommand s).preq = s.preq := rfl
@[simp] theorem endCommand_dr (s : State) : (endCommand s).dr = s.dr := rfl
@[simp] theorem endCommand_rxmode (s : State) : (endCommand s).rxmode = s.rxmode := rfl
@[simp] theorem endCommand_rxmore (s : State) : (endCommand s).rxmore = s.rxmore := rfl
@[simp] theorem endCommand_shift (s : State) : (endCommand s).shift = s.shift := rfl
@[simp] theorem endCommand_trace (s : State) : (endCommand s).trace = s.trace := rfl
@[simp] theorem endCommand_refused (s : State) : (endCommand s).refused = s.refused := rfl
@[simp] theorem endCommand_fault (s : State) : (endCommand s).fault = s.fault := rfl
@[simp] theorem endCommand_params (s : State) : (endCommand s).params = s.params := rfl
@[simp] theorem endCommand_inputs (s : State) : (endCommand s).inputs = s.inputs := rfl
@[simp] theorem endCommand_reads (s : State) : (endCommand s).reads = s.reads := rfl

/-! ### flushRequests -/

@[simp] theorem flushRequests_busy (s : State) : (flushRequests s).busy = s.busy := rfl
@[simp] theorem flushRequests_phase (s : State) : (flushRequests s).phase = s.phase := rfl
@[simp] theorem flushRequests_dir (s : State) : (flushRequests s).dir = s.dir := rfl
@[simp] theorem flushRequests_ackEn (s : State) : (flushRequests s).ackEn = s.ackEn := rfl
@[simp] theorem flushRequests_resultValid (s : State) : (flushRequests s).resultValid = s.resultValid := rfl
@[simp] theorem flushRequests_cmdOvr (s : State) : (flushRequests s).cmdOvr = s.cmdOvr := rfl
@[simp] theorem flushRequests_err (s : State) : (flushRequests s).err = s.err := rfl
@[simp] theorem flushRequests_tmoWhere (s : State) : (flushRequests s).tmoWhere = s.tmoWhere := rfl
@[simp] theorem flushRequests_bytes (s : State) : (flushRequests s).bytes = s.bytes := rfl
@[simp] theorem flushRequests_rxdata (s : State) : (flushRequests s).rxdata = s.rxdata := rfl
@[simp] theorem flushRequests_limit (s : State) : (flushRequests s).limit = s.limit := rfl
@[simp] theorem flushRequests_txbuf (s : State) : (flushRequests s).txbuf = s.txbuf := rfl
@[simp] theorem flushRequests_result (s : State) : (flushRequests s).result = s.result := rfl
@[simp] theorem flushRequests_cur (s : State) : (flushRequests s).cur = s.cur := rfl
@[simp] theorem flushRequests_mpc (s : State) : (flushRequests s).mpc = s.mpc := rfl
@[simp] theorem flushRequests_spin (s : State) : (flushRequests s).spin = s.spin := rfl
@[simp] theorem flushRequests_payload (s : State) : (flushRequests s).payload = s.payload := rfl
@[simp] theorem flushRequests_work (s : State) : (flushRequests s).work = s.work := rfl
@[simp] theorem flushRequests_acc (s : State) : (flushRequests s).acc = s.acc := rfl
@[simp] theorem flushRequests_widx (s : State) : (flushRequests s).widx = s.widx := rfl
@[simp] theorem flushRequests_startSent (s : State) : (flushRequests s).startSent = s.startSent := rfl
@[simp] theorem flushRequests_addrAcked (s : State) : (flushRequests s).addrAcked = s.addrAcked := rfl
@[simp] theorem flushRequests_rxNotEmpty (s : State) : (flushRequests s).rxNotEmpty = s.rxNotEmpty := rfl
@[simp] theorem flushRequests_preq (s : State) : (flushRequests s).preq = s.preq.filter (fun q => decide (q = .stop)) := rfl
@[simp] theorem flushRequests_dr (s : State) : (flushRequests s).dr = s.dr := rfl
@[simp] theorem flushRequests_rxmode (s : State) : (flushRequests s).rxmode = s.rxmode := rfl
@[simp] theorem flushRequests_rxmore (s : State) : (flushRequests s).rxmore = s.rxmore := rfl
@[simp] theorem flushRequests_shift (s : State) : (flushRequests s).shift = s.shift := rfl
@[simp] theorem flushRequests_trace (s : State) : (flushRequests s).trace = s.trace := rfl
@[simp] theorem flushRequests_refused (s : State) : (flushRequests s).refused = s.refused := rfl
@[simp] theorem flushRequests_fault (s : State) : (flushRequests s).fault = s.fault := rfl
@[simp] theorem flushRequests_params (s : State) : (flushRequests s).params = s.params := rfl
@[simp] theorem flushRequests_inputs (s : State) : (flushRequests s).inputs = s.inputs := rfl
@[simp] theorem flushRequests_reads (s : State) : (flushRequests s).reads = s.reads := rfl

/-! ### refuseAccess -/

@[simp] theorem refuseAccess_busy (s : State) : (refuseAccess s).busy = s.busy := rfl
@[simp] theorem refuseAccess_phase (s : State) : (refuseAccess s).phase = s.phase := rfl
@[simp] theorem refuseAccess_dir (s : State) : (refuseAccess s).dir = s.dir := rfl
@[simp] theorem refuseAccess_ackEn (s : State) : (refuseAccess s).ackEn = s.ackEn := rfl
@[simp] theorem refuseAccess_resultValid (s : State) : (refuseAccess s).resultValid = s.resultValid := rfl
@[simp] theorem refuseAccess_cmdOvr (s : State) : (refuseAccess s).cmdOvr = s.cmdOvr := rfl
@[simp] theorem refuseAccess_err (s : State) : (refuseAccess s).err = s.err := rfl
@[simp] theorem refuseAccess_tmoWhere (s : State) : (refuseAccess s).tmoWhere = s.tmoWhere := rfl
@[simp] theorem refuseAccess_bytes (s : State) : (refuseAccess s).bytes = s.bytes := rfl
@[simp] theorem refuseAccess_rxdata (s : State) : (refuseAccess s).rxdata = s.rxdata := rfl
@[simp] theorem refuseAccess_limit (s : State) : (refuseAccess s).limit = s.limit := rfl
@[simp] theorem refuseAccess_txbuf (s : State) : (refuseAccess s).txbuf = s.txbuf := rfl
@[simp] theorem refuseAccess_result (s : State) : (refuseAccess s).result = s.result := rfl
@[simp] theorem refuseAccess_cur (s : State) : (refuseAccess s).cur = s.cur := rfl
@[simp] theorem refuseAccess_mpc (s : State) : (refuseAccess s).mpc = s.mpc := rfl
@[simp] theorem refuseAccess_spin (s : State) : (refuseAccess s).spin = s.spin := rfl
@[simp] theorem refuseAccess_payload (s : State) : (refuseAccess s).payload = s.payload := rfl
@[simp] theorem refuseAccess_work (s : State) : (refuseAccess s).work = s.work := rfl
@[simp] theorem refuseAccess_acc (s : State) : (refuseAccess s).acc = s.acc := rfl
@[simp] theorem refuseAccess_widx (s : State) : (refuseAccess s).widx = s.widx := rfl
@[simp] theorem refuseAccess_startSent (s : State) : (refuseAccess s).startSent = s.startSent := rfl
@[simp] theorem refuseAccess_addrAcked (s : State) : (refuseAccess s).addrAcked = s.addrAcked := rfl
@[simp] theorem refuseAccess_rxNotEmpty (s : State) : (refuseAccess s).rxNotEmpty = s.rxNotEmpty := rfl
@[simp] theorem refuseAccess_preq (s : State) : (refuseAccess s).preq = s.preq := rfl
@[simp] theorem refuseAccess_dr (s : State) : (refuseAccess s).dr = s.dr := rfl
@[simp] theorem refuseAccess_rxmode (s : State) : (refuseAccess s).rxmode = s.rxmode := rfl
@[simp] theorem refuseAccess_rxmore (s : State) : (refuseAccess s).rxmore = s.rxmore := rfl
@[simp] theorem refuseAccess_shift (s : State) : (refuseAccess s).shift = s.shift := rfl
@[simp] theorem refuseAccess_trace (s : State) : (refuseAccess s).trace = s.trace := rfl
@[simp] theorem refuseAccess_refused (s : State) : (refuseAccess s).refused = true := rfl
@[simp] theorem refuseAccess_fault (s : State) : (refuseAccess s).fault = s.fault := rfl
@[simp] theorem refuseAccess_params (s : State) : (refuseAccess s).params = s.params := rfl
@[simp] theorem refuseAccess_inputs (s : State) : (refuseAccess s).inputs = s.inputs := rfl
@[simp] theorem refuseAccess_reads (s : State) : (refuseAccess s).reads = s.reads := rfl

/-! ### recordRead -/

@[simp] theorem recordRead_busy (off : Nat) (v : Word) (s : State) : (recordRead off v s).busy = s.busy := rfl
@[simp] theorem recordRead_phase (off : Nat) (v : Word) (s : State) : (recordRead off v s).phase = s.phase := rfl
@[simp] theorem recordRead_dir (off : Nat) (v : Word) (s : State) : (recordRead off v s).dir = s.dir := rfl
@[simp] theorem recordRead_ackEn (off : Nat) (v : Word) (s : State) : (recordRead off v s).ackEn = s.ackEn := rfl
@[simp] theorem recordRead_resultValid (off : Nat) (v : Word) (s : State) : (recordRead off v s).resultValid = s.resultValid := rfl
@[simp] theorem recordRead_cmdOvr (off : Nat) (v : Word) (s : State) : (recordRead off v s).cmdOvr = s.cmdOvr := rfl
@[simp] theorem recordRead_err (off : Nat) (v : Word) (s : State) : (recordRead off v s).err = s.err := rfl
@[simp] theorem recordRead_tmoWhere (off : Nat) (v : Word) (s : State) : (recordRead off v s).tmoWhere = s.tmoWhere := rfl
@[simp] theorem recordRead_bytes (off : Nat) (v : Word) (s : State) : (recordRead off v s).bytes = s.bytes := rfl
@[simp] theorem recordRead_rxdata (off : Nat) (v : Word) (s : State) : (recordRead off v s).rxdata = s.rxdata := rfl
@[simp] theorem recordRead_limit (off : Nat) (v : Word) (s : State) : (recordRead off v s).limit = s.limit := rfl
@[simp] theorem recordRead_txbuf (off : Nat) (v : Word) (s : State) : (recordRead off v s).txbuf = s.txbuf := rfl
@[simp] theorem recordRead_result (off : Nat) (v : Word) (s : State) : (recordRead off v s).result = s.result := rfl
@[simp] theorem recordRead_cur (off : Nat) (v : Word) (s : State) : (recordRead off v s).cur = s.cur := rfl
@[simp] theorem recordRead_mpc (off : Nat) (v : Word) (s : State) : (recordRead off v s).mpc = s.mpc := rfl
@[simp] theorem recordRead_spin (off : Nat) (v : Word) (s : State) : (recordRead off v s).spin = s.spin := rfl
@[simp] theorem recordRead_payload (off : Nat) (v : Word) (s : State) : (recordRead off v s).payload = s.payload := rfl
@[simp] theorem recordRead_work (off : Nat) (v : Word) (s : State) : (recordRead off v s).work = s.work := rfl
@[simp] theorem recordRead_acc (off : Nat) (v : Word) (s : State) : (recordRead off v s).acc = s.acc := rfl
@[simp] theorem recordRead_widx (off : Nat) (v : Word) (s : State) : (recordRead off v s).widx = s.widx := rfl
@[simp] theorem recordRead_startSent (off : Nat) (v : Word) (s : State) : (recordRead off v s).startSent = s.startSent := rfl
@[simp] theorem recordRead_addrAcked (off : Nat) (v : Word) (s : State) : (recordRead off v s).addrAcked = s.addrAcked := rfl
@[simp] theorem recordRead_rxNotEmpty (off : Nat) (v : Word) (s : State) : (recordRead off v s).rxNotEmpty = s.rxNotEmpty := rfl
@[simp] theorem recordRead_preq (off : Nat) (v : Word) (s : State) : (recordRead off v s).preq = s.preq := rfl
@[simp] theorem recordRead_dr (off : Nat) (v : Word) (s : State) : (recordRead off v s).dr = s.dr := rfl
@[simp] theorem recordRead_rxmode (off : Nat) (v : Word) (s : State) : (recordRead off v s).rxmode = s.rxmode := rfl
@[simp] theorem recordRead_rxmore (off : Nat) (v : Word) (s : State) : (recordRead off v s).rxmore = s.rxmore := rfl
@[simp] theorem recordRead_shift (off : Nat) (v : Word) (s : State) : (recordRead off v s).shift = s.shift := rfl
@[simp] theorem recordRead_trace (off : Nat) (v : Word) (s : State) : (recordRead off v s).trace = s.trace := rfl
@[simp] theorem recordRead_refused (off : Nat) (v : Word) (s : State) : (recordRead off v s).refused = s.refused := rfl
@[simp] theorem recordRead_fault (off : Nat) (v : Word) (s : State) : (recordRead off v s).fault = s.fault := rfl
@[simp] theorem recordRead_params (off : Nat) (v : Word) (s : State) : (recordRead off v s).params = s.params := rfl
@[simp] theorem recordRead_inputs (off : Nat) (v : Word) (s : State) : (recordRead off v s).inputs = s.inputs := rfl
@[simp] theorem recordRead_reads (off : Nat) (v : Word) (s : State) : (recordRead off v s).reads = s.reads ++ [⟨off, v⟩] := rfl

/-! ### takeToRxdata -/

@[simp] theorem takeToRxdata_busy (s : State) : (takeToRxdata s).busy = s.busy := rfl
@[simp] theorem takeToRxdata_phase (s : State) : (takeToRxdata s).phase = s.phase := rfl
@[simp] theorem takeToRxdata_dir (s : State) : (takeToRxdata s).dir = s.dir := rfl
@[simp] theorem takeToRxdata_ackEn (s : State) : (takeToRxdata s).ackEn = s.ackEn := rfl
@[simp] theorem takeToRxdata_resultValid (s : State) : (takeToRxdata s).resultValid = s.resultValid := rfl
@[simp] theorem takeToRxdata_cmdOvr (s : State) : (takeToRxdata s).cmdOvr = s.cmdOvr := rfl
@[simp] theorem takeToRxdata_err (s : State) : (takeToRxdata s).err = s.err := rfl
@[simp] theorem takeToRxdata_tmoWhere (s : State) : (takeToRxdata s).tmoWhere = s.tmoWhere := rfl
@[simp] theorem takeToRxdata_bytes (s : State) : (takeToRxdata s).bytes = s.bytes := rfl
@[simp] theorem takeToRxdata_rxdata (s : State) : (takeToRxdata s).rxdata = s.dr := rfl
@[simp] theorem takeToRxdata_limit (s : State) : (takeToRxdata s).limit = s.limit := rfl
@[simp] theorem takeToRxdata_txbuf (s : State) : (takeToRxdata s).txbuf = s.txbuf := rfl
@[simp] theorem takeToRxdata_result (s : State) : (takeToRxdata s).result = s.result := rfl
@[simp] theorem takeToRxdata_cur (s : State) : (takeToRxdata s).cur = s.cur := rfl
@[simp] theorem takeToRxdata_mpc (s : State) : (takeToRxdata s).mpc = s.mpc := rfl
@[simp] theorem takeToRxdata_spin (s : State) : (takeToRxdata s).spin = s.spin := rfl
@[simp] theorem takeToRxdata_payload (s : State) : (takeToRxdata s).payload = s.payload := rfl
@[simp] theorem takeToRxdata_work (s : State) : (takeToRxdata s).work = s.work := rfl
@[simp] theorem takeToRxdata_acc (s : State) : (takeToRxdata s).acc = s.acc := rfl
@[simp] theorem takeToRxdata_widx (s : State) : (takeToRxdata s).widx = s.widx := rfl
@[simp] theorem takeToRxdata_startSent (s : State) : (takeToRxdata s).startSent = s.startSent := rfl
@[simp] theorem takeToRxdata_addrAcked (s : State) : (takeToRxdata s).addrAcked = s.addrAcked := rfl
@[simp] theorem takeToRxdata_rxNotEmpty (s : State) : (takeToRxdata s).rxNotEmpty = false := rfl
@[simp] theorem takeToRxdata_preq (s : State) : (takeToRxdata s).preq = s.preq := rfl
@[simp] theorem takeToRxdata_dr (s : State) : (takeToRxdata s).dr = s.dr := rfl
@[simp] theorem takeToRxdata_rxmode (s : State) : (takeToRxdata s).rxmode = s.rxmode := rfl
@[simp] theorem takeToRxdata_rxmore (s : State) : (takeToRxdata s).rxmore = s.rxmore := rfl
@[simp] theorem takeToRxdata_shift (s : State) : (takeToRxdata s).shift = s.shift := rfl
@[simp] theorem takeToRxdata_trace (s : State) : (takeToRxdata s).trace = s.trace := rfl
@[simp] theorem takeToRxdata_refused (s : State) : (takeToRxdata s).refused = s.refused := rfl
@[simp] theorem takeToRxdata_fault (s : State) : (takeToRxdata s).fault = s.fault := rfl
@[simp] theorem takeToRxdata_params (s : State) : (takeToRxdata s).params = s.params := rfl
@[simp] theorem takeToRxdata_inputs (s : State) : (takeToRxdata s).inputs = s.inputs := rfl
@[simp] theorem takeToRxdata_reads (s : State) : (takeToRxdata s).reads = s.reads := rfl

/-! ### takeToAcc -/

@[simp] theorem takeToAcc_busy (v : Half) (s : State) : (takeToAcc v s).busy = s.busy := rfl
@[simp] theorem takeToAcc_phase (v : Half) (s : State) : (takeToAcc v s).phase = s.phase := rfl
@[simp] theorem takeToAcc_dir (v : Half) (s : State) : (takeToAcc v s).dir = s.dir := rfl
@[simp] theorem takeToAcc_ackEn (v : Half) (s : State) : (takeToAcc v s).ackEn = s.ackEn := rfl
@[simp] theorem takeToAcc_resultValid (v : Half) (s : State) : (takeToAcc v s).resultValid = s.resultValid := rfl
@[simp] theorem takeToAcc_cmdOvr (v : Half) (s : State) : (takeToAcc v s).cmdOvr = s.cmdOvr := rfl
@[simp] theorem takeToAcc_err (v : Half) (s : State) : (takeToAcc v s).err = s.err := rfl
@[simp] theorem takeToAcc_tmoWhere (v : Half) (s : State) : (takeToAcc v s).tmoWhere = s.tmoWhere := rfl
@[simp] theorem takeToAcc_bytes (v : Half) (s : State) : (takeToAcc v s).bytes = s.bytes + 1 := rfl
@[simp] theorem takeToAcc_rxdata (v : Half) (s : State) : (takeToAcc v s).rxdata = s.rxdata := rfl
@[simp] theorem takeToAcc_limit (v : Half) (s : State) : (takeToAcc v s).limit = s.limit := rfl
@[simp] theorem takeToAcc_txbuf (v : Half) (s : State) : (takeToAcc v s).txbuf = s.txbuf := rfl
@[simp] theorem takeToAcc_result (v : Half) (s : State) : (takeToAcc v s).result = s.result := rfl
@[simp] theorem takeToAcc_cur (v : Half) (s : State) : (takeToAcc v s).cur = s.cur := rfl
@[simp] theorem takeToAcc_mpc (v : Half) (s : State) : (takeToAcc v s).mpc = s.mpc := rfl
@[simp] theorem takeToAcc_spin (v : Half) (s : State) : (takeToAcc v s).spin = s.spin := rfl
@[simp] theorem takeToAcc_payload (v : Half) (s : State) : (takeToAcc v s).payload = s.payload := rfl
@[simp] theorem takeToAcc_work (v : Half) (s : State) : (takeToAcc v s).work = s.work := rfl
@[simp] theorem takeToAcc_acc (v : Half) (s : State) : (takeToAcc v s).acc = v := rfl
@[simp] theorem takeToAcc_widx (v : Half) (s : State) : (takeToAcc v s).widx = s.widx := rfl
@[simp] theorem takeToAcc_startSent (v : Half) (s : State) : (takeToAcc v s).startSent = s.startSent := rfl
@[simp] theorem takeToAcc_addrAcked (v : Half) (s : State) : (takeToAcc v s).addrAcked = s.addrAcked := rfl
@[simp] theorem takeToAcc_rxNotEmpty (v : Half) (s : State) : (takeToAcc v s).rxNotEmpty = false := rfl
@[simp] theorem takeToAcc_preq (v : Half) (s : State) : (takeToAcc v s).preq = s.preq := rfl
@[simp] theorem takeToAcc_dr (v : Half) (s : State) : (takeToAcc v s).dr = s.dr := rfl
@[simp] theorem takeToAcc_rxmode (v : Half) (s : State) : (takeToAcc v s).rxmode = s.rxmode := rfl
@[simp] theorem takeToAcc_rxmore (v : Half) (s : State) : (takeToAcc v s).rxmore = s.rxmore := rfl
@[simp] theorem takeToAcc_shift (v : Half) (s : State) : (takeToAcc v s).shift = s.shift := rfl
@[simp] theorem takeToAcc_trace (v : Half) (s : State) : (takeToAcc v s).trace = s.trace := rfl
@[simp] theorem takeToAcc_refused (v : Half) (s : State) : (takeToAcc v s).refused = s.refused := rfl
@[simp] theorem takeToAcc_fault (v : Half) (s : State) : (takeToAcc v s).fault = s.fault := rfl
@[simp] theorem takeToAcc_params (v : Half) (s : State) : (takeToAcc v s).params = s.params := rfl
@[simp] theorem takeToAcc_inputs (v : Half) (s : State) : (takeToAcc v s).inputs = s.inputs := rfl
@[simp] theorem takeToAcc_reads (v : Half) (s : State) : (takeToAcc v s).reads = s.reads := rfl

/-! ### storeWord -/

@[simp] theorem storeWord_busy (s : State) : (storeWord s).busy = s.busy := rfl
@[simp] theorem storeWord_phase (s : State) : (storeWord s).phase = s.phase := rfl
@[simp] theorem storeWord_dir (s : State) : (storeWord s).dir = s.dir := rfl
@[simp] theorem storeWord_ackEn (s : State) : (storeWord s).ackEn = s.ackEn := rfl
@[simp] theorem storeWord_resultValid (s : State) : (storeWord s).resultValid = s.resultValid := rfl
@[simp] theorem storeWord_cmdOvr (s : State) : (storeWord s).cmdOvr = s.cmdOvr := rfl
@[simp] theorem storeWord_err (s : State) : (storeWord s).err = s.err := rfl
@[simp] theorem storeWord_tmoWhere (s : State) : (storeWord s).tmoWhere = s.tmoWhere := rfl
@[simp] theorem storeWord_bytes (s : State) : (storeWord s).bytes = s.bytes := rfl
@[simp] theorem storeWord_rxdata (s : State) : (storeWord s).rxdata = s.rxdata := rfl
@[simp] theorem storeWord_limit (s : State) : (storeWord s).limit = s.limit := rfl
@[simp] theorem storeWord_txbuf (s : State) : (storeWord s).txbuf = s.txbuf := rfl
@[simp] theorem storeWord_result (s : State) : (storeWord s).result = s.result := rfl
@[simp] theorem storeWord_cur (s : State) : (storeWord s).cur = s.cur := rfl
@[simp] theorem storeWord_mpc (s : State) : (storeWord s).mpc = s.mpc := rfl
@[simp] theorem storeWord_spin (s : State) : (storeWord s).spin = s.spin := rfl
@[simp] theorem storeWord_payload (s : State) : (storeWord s).payload = s.payload := rfl
@[simp] theorem storeWord_work (s : State) : (storeWord s).work = s.work.set s.widx.toNat s.acc := rfl
@[simp] theorem storeWord_acc (s : State) : (storeWord s).acc = s.acc := rfl
@[simp] theorem storeWord_widx (s : State) : (storeWord s).widx = s.widx + 1 := rfl
@[simp] theorem storeWord_startSent (s : State) : (storeWord s).startSent = s.startSent := rfl
@[simp] theorem storeWord_addrAcked (s : State) : (storeWord s).addrAcked = s.addrAcked := rfl
@[simp] theorem storeWord_rxNotEmpty (s : State) : (storeWord s).rxNotEmpty = s.rxNotEmpty := rfl
@[simp] theorem storeWord_preq (s : State) : (storeWord s).preq = s.preq := rfl
@[simp] theorem storeWord_dr (s : State) : (storeWord s).dr = s.dr := rfl
@[simp] theorem storeWord_rxmode (s : State) : (storeWord s).rxmode = s.rxmode := rfl
@[simp] theorem storeWord_rxmore (s : State) : (storeWord s).rxmore = s.rxmore := rfl
@[simp] theorem storeWord_shift (s : State) : (storeWord s).shift = s.shift := rfl
@[simp] theorem storeWord_trace (s : State) : (storeWord s).trace = s.trace := rfl
@[simp] theorem storeWord_refused (s : State) : (storeWord s).refused = s.refused := rfl
@[simp] theorem storeWord_fault (s : State) : (storeWord s).fault = s.fault := rfl
@[simp] theorem storeWord_params (s : State) : (storeWord s).params = s.params := rfl
@[simp] theorem storeWord_inputs (s : State) : (storeWord s).inputs = s.inputs := rfl
@[simp] theorem storeWord_reads (s : State) : (storeWord s).reads = s.reads := rfl

/-! ### enqueue: PREQ and FAULT apart, nothing changes -/

@[simp] theorem enqueue_busy (q : Request) (s : State) : (enqueue q s).busy = s.busy := by
  unfold enqueue; split <;> rfl
@[simp] theorem enqueue_phase (q : Request) (s : State) : (enqueue q s).phase = s.phase := by
  unfold enqueue; split <;> rfl
@[simp] theorem enqueue_dir (q : Request) (s : State) : (enqueue q s).dir = s.dir := by
  unfold enqueue; split <;> rfl
@[simp] theorem enqueue_ackEn (q : Request) (s : State) : (enqueue q s).ackEn = s.ackEn := by
  unfold enqueue; split <;> rfl
@[simp] theorem enqueue_resultValid (q : Request) (s : State) : (enqueue q s).resultValid = s.resultValid := by
  unfold enqueue; split <;> rfl
@[simp] theorem enqueue_cmdOvr (q : Request) (s : State) : (enqueue q s).cmdOvr = s.cmdOvr := by
  unfold enqueue; split <;> rfl
@[simp] theorem enqueue_err (q : Request) (s : State) : (enqueue q s).err = s.err := by
  unfold enqueue; split <;> rfl
@[simp] theorem enqueue_tmoWhere (q : Request) (s : State) : (enqueue q s).tmoWhere = s.tmoWhere := by
  unfold enqueue; split <;> rfl
@[simp] theorem enqueue_bytes (q : Request) (s : State) : (enqueue q s).bytes = s.bytes := by
  unfold enqueue; split <;> rfl
@[simp] theorem enqueue_rxdata (q : Request) (s : State) : (enqueue q s).rxdata = s.rxdata := by
  unfold enqueue; split <;> rfl
@[simp] theorem enqueue_limit (q : Request) (s : State) : (enqueue q s).limit = s.limit := by
  unfold enqueue; split <;> rfl
@[simp] theorem enqueue_txbuf (q : Request) (s : State) : (enqueue q s).txbuf = s.txbuf := by
  unfold enqueue; split <;> rfl
@[simp] theorem enqueue_result (q : Request) (s : State) : (enqueue q s).result = s.result := by
  unfold enqueue; split <;> rfl
@[simp] theorem enqueue_cur (q : Request) (s : State) : (enqueue q s).cur = s.cur := by
  unfold enqueue; split <;> rfl
@[simp] theorem enqueue_mpc (q : Request) (s : State) : (enqueue q s).mpc = s.mpc := by
  unfold enqueue; split <;> rfl
@[simp] theorem enqueue_spin (q : Request) (s : State) : (enqueue q s).spin = s.spin := by
  unfold enqueue; split <;> rfl
@[simp] theorem enqueue_payload (q : Request) (s : State) : (enqueue q s).payload = s.payload := by
  unfold enqueue; split <;> rfl
@[simp] theorem enqueue_work (q : Request) (s : State) : (enqueue q s).work = s.work := by
  unfold enqueue; split <;> rfl
@[simp] theorem enqueue_acc (q : Request) (s : State) : (enqueue q s).acc = s.acc := by
  unfold enqueue; split <;> rfl
@[simp] theorem enqueue_widx (q : Request) (s : State) : (enqueue q s).widx = s.widx := by
  unfold enqueue; split <;> rfl
@[simp] theorem enqueue_startSent (q : Request) (s : State) : (enqueue q s).startSent = s.startSent := by
  unfold enqueue; split <;> rfl
@[simp] theorem enqueue_addrAcked (q : Request) (s : State) : (enqueue q s).addrAcked = s.addrAcked := by
  unfold enqueue; split <;> rfl
@[simp] theorem enqueue_rxNotEmpty (q : Request) (s : State) : (enqueue q s).rxNotEmpty = s.rxNotEmpty := by
  unfold enqueue; split <;> rfl
@[simp] theorem enqueue_dr (q : Request) (s : State) : (enqueue q s).dr = s.dr := by
  unfold enqueue; split <;> rfl
@[simp] theorem enqueue_rxmode (q : Request) (s : State) : (enqueue q s).rxmode = s.rxmode := by
  unfold enqueue; split <;> rfl
@[simp] theorem enqueue_rxmore (q : Request) (s : State) : (enqueue q s).rxmore = s.rxmore := by
  unfold enqueue; split <;> rfl
@[simp] theorem enqueue_shift (q : Request) (s : State) : (enqueue q s).shift = s.shift := by
  unfold enqueue; split <;> rfl
@[simp] theorem enqueue_trace (q : Request) (s : State) : (enqueue q s).trace = s.trace := by
  unfold enqueue; split <;> rfl
@[simp] theorem enqueue_refused (q : Request) (s : State) : (enqueue q s).refused = s.refused := by
  unfold enqueue; split <;> rfl
@[simp] theorem enqueue_params (q : Request) (s : State) : (enqueue q s).params = s.params := by
  unfold enqueue; split <;> rfl
@[simp] theorem enqueue_inputs (q : Request) (s : State) : (enqueue q s).inputs = s.inputs := by
  unfold enqueue; split <;> rfl
@[simp] theorem enqueue_reads (q : Request) (s : State) : (enqueue q s).reads = s.reads := by
  unfold enqueue; split <;> rfl

/-! ### stopIfStarted: PREQ and FAULT apart, nothing changes -/

@[simp] theorem stopIfStarted_busy (s : State) : (stopIfStarted s).busy = s.busy := by
  unfold stopIfStarted; split <;> simp
@[simp] theorem stopIfStarted_phase (s : State) : (stopIfStarted s).phase = s.phase := by
  unfold stopIfStarted; split <;> simp
@[simp] theorem stopIfStarted_dir (s : State) : (stopIfStarted s).dir = s.dir := by
  unfold stopIfStarted; split <;> simp
@[simp] theorem stopIfStarted_ackEn (s : State) : (stopIfStarted s).ackEn = s.ackEn := by
  unfold stopIfStarted; split <;> simp
@[simp] theorem stopIfStarted_resultValid (s : State) : (stopIfStarted s).resultValid = s.resultValid := by
  unfold stopIfStarted; split <;> simp
@[simp] theorem stopIfStarted_cmdOvr (s : State) : (stopIfStarted s).cmdOvr = s.cmdOvr := by
  unfold stopIfStarted; split <;> simp
@[simp] theorem stopIfStarted_err (s : State) : (stopIfStarted s).err = s.err := by
  unfold stopIfStarted; split <;> simp
@[simp] theorem stopIfStarted_tmoWhere (s : State) : (stopIfStarted s).tmoWhere = s.tmoWhere := by
  unfold stopIfStarted; split <;> simp
@[simp] theorem stopIfStarted_bytes (s : State) : (stopIfStarted s).bytes = s.bytes := by
  unfold stopIfStarted; split <;> simp
@[simp] theorem stopIfStarted_rxdata (s : State) : (stopIfStarted s).rxdata = s.rxdata := by
  unfold stopIfStarted; split <;> simp
@[simp] theorem stopIfStarted_limit (s : State) : (stopIfStarted s).limit = s.limit := by
  unfold stopIfStarted; split <;> simp
@[simp] theorem stopIfStarted_txbuf (s : State) : (stopIfStarted s).txbuf = s.txbuf := by
  unfold stopIfStarted; split <;> simp
@[simp] theorem stopIfStarted_result (s : State) : (stopIfStarted s).result = s.result := by
  unfold stopIfStarted; split <;> simp
@[simp] theorem stopIfStarted_cur (s : State) : (stopIfStarted s).cur = s.cur := by
  unfold stopIfStarted; split <;> simp
@[simp] theorem stopIfStarted_mpc (s : State) : (stopIfStarted s).mpc = s.mpc := by
  unfold stopIfStarted; split <;> simp
@[simp] theorem stopIfStarted_spin (s : State) : (stopIfStarted s).spin = s.spin := by
  unfold stopIfStarted; split <;> simp
@[simp] theorem stopIfStarted_payload (s : State) : (stopIfStarted s).payload = s.payload := by
  unfold stopIfStarted; split <;> simp
@[simp] theorem stopIfStarted_work (s : State) : (stopIfStarted s).work = s.work := by
  unfold stopIfStarted; split <;> simp
@[simp] theorem stopIfStarted_acc (s : State) : (stopIfStarted s).acc = s.acc := by
  unfold stopIfStarted; split <;> simp
@[simp] theorem stopIfStarted_widx (s : State) : (stopIfStarted s).widx = s.widx := by
  unfold stopIfStarted; split <;> simp
@[simp] theorem stopIfStarted_startSent (s : State) : (stopIfStarted s).startSent = s.startSent := by
  unfold stopIfStarted; split <;> simp
@[simp] theorem stopIfStarted_addrAcked (s : State) : (stopIfStarted s).addrAcked = s.addrAcked := by
  unfold stopIfStarted; split <;> simp
@[simp] theorem stopIfStarted_rxNotEmpty (s : State) : (stopIfStarted s).rxNotEmpty = s.rxNotEmpty := by
  unfold stopIfStarted; split <;> simp
@[simp] theorem stopIfStarted_dr (s : State) : (stopIfStarted s).dr = s.dr := by
  unfold stopIfStarted; split <;> simp
@[simp] theorem stopIfStarted_rxmode (s : State) : (stopIfStarted s).rxmode = s.rxmode := by
  unfold stopIfStarted; split <;> simp
@[simp] theorem stopIfStarted_rxmore (s : State) : (stopIfStarted s).rxmore = s.rxmore := by
  unfold stopIfStarted; split <;> simp
@[simp] theorem stopIfStarted_shift (s : State) : (stopIfStarted s).shift = s.shift := by
  unfold stopIfStarted; split <;> simp
@[simp] theorem stopIfStarted_trace (s : State) : (stopIfStarted s).trace = s.trace := by
  unfold stopIfStarted; split <;> simp
@[simp] theorem stopIfStarted_refused (s : State) : (stopIfStarted s).refused = s.refused := by
  unfold stopIfStarted; split <;> simp
@[simp] theorem stopIfStarted_params (s : State) : (stopIfStarted s).params = s.params := by
  unfold stopIfStarted; split <;> simp
@[simp] theorem stopIfStarted_inputs (s : State) : (stopIfStarted s).inputs = s.inputs := by
  unfold stopIfStarted; split <;> simp
@[simp] theorem stopIfStarted_reads (s : State) : (stopIfStarted s).reads = s.reads := by
  unfold stopIfStarted; split <;> simp

/-! ### abort -/

@[simp] theorem abort_busy (f : WaitFlag) (s : State) : (abort f s).busy = false := rfl
@[simp] theorem abort_phase (f : WaitFlag) (s : State) : (abort f s).phase = .stopped := rfl
@[simp] theorem abort_dir (f : WaitFlag) (s : State) : (abort f s).dir = s.dir := stopIfStarted_dir s
@[simp] theorem abort_ackEn (f : WaitFlag) (s : State) : (abort f s).ackEn = (burstRunning s || s.ackEn) := rfl
@[simp] theorem abort_resultValid (f : WaitFlag) (s : State) : (abort f s).resultValid = s.resultValid := stopIfStarted_resultValid s
@[simp] theorem abort_cmdOvr (f : WaitFlag) (s : State) : (abort f s).cmdOvr = s.cmdOvr := stopIfStarted_cmdOvr s
@[simp] theorem abort_err (f : WaitFlag) (s : State) : (abort f s).err = .busTimeout := rfl
@[simp] theorem abort_tmoWhere (f : WaitFlag) (s : State) : (abort f s).tmoWhere = some f := rfl
@[simp] theorem abort_bytes (f : WaitFlag) (s : State) : (abort f s).bytes = s.bytes := stopIfStarted_bytes s
@[simp] theorem abort_rxdata (f : WaitFlag) (s : State) : (abort f s).rxdata = s.rxdata := stopIfStarted_rxdata s
@[simp] theorem abort_limit (f : WaitFlag) (s : State) : (abort f s).limit = s.limit := stopIfStarted_limit s
@[simp] theorem abort_txbuf (f : WaitFlag) (s : State) : (abort f s).txbuf = s.txbuf := stopIfStarted_txbuf s
@[simp] theorem abort_result (f : WaitFlag) (s : State) : (abort f s).result = s.result := stopIfStarted_result s
@[simp] theorem abort_cur (f : WaitFlag) (s : State) : (abort f s).cur = none := rfl
@[simp] theorem abort_mpc (f : WaitFlag) (s : State) : (abort f s).mpc = 0 := rfl
@[simp] theorem abort_spin (f : WaitFlag) (s : State) : (abort f s).spin = 0 := rfl
@[simp] theorem abort_payload (f : WaitFlag) (s : State) : (abort f s).payload = s.payload := stopIfStarted_payload s
@[simp] theorem abort_work (f : WaitFlag) (s : State) : (abort f s).work = s.work := stopIfStarted_work s
@[simp] theorem abort_acc (f : WaitFlag) (s : State) : (abort f s).acc = s.acc := stopIfStarted_acc s
@[simp] theorem abort_widx (f : WaitFlag) (s : State) : (abort f s).widx = s.widx := stopIfStarted_widx s
@[simp] theorem abort_startSent (f : WaitFlag) (s : State) : (abort f s).startSent = s.startSent := stopIfStarted_startSent s
@[simp] theorem abort_addrAcked (f : WaitFlag) (s : State) : (abort f s).addrAcked = s.addrAcked := stopIfStarted_addrAcked s
@[simp] theorem abort_rxNotEmpty (f : WaitFlag) (s : State) : (abort f s).rxNotEmpty = s.rxNotEmpty := stopIfStarted_rxNotEmpty s
@[simp] theorem abort_preq (f : WaitFlag) (s : State) : (abort f s).preq = (stopIfStarted s).preq := rfl
@[simp] theorem abort_dr (f : WaitFlag) (s : State) : (abort f s).dr = s.dr := stopIfStarted_dr s
@[simp] theorem abort_rxmode (f : WaitFlag) (s : State) : (abort f s).rxmode = s.rxmode := stopIfStarted_rxmode s
@[simp] theorem abort_rxmore (f : WaitFlag) (s : State) : (abort f s).rxmore = s.rxmore := stopIfStarted_rxmore s
@[simp] theorem abort_shift (f : WaitFlag) (s : State) : (abort f s).shift = s.shift := stopIfStarted_shift s
@[simp] theorem abort_trace (f : WaitFlag) (s : State) : (abort f s).trace = s.trace := stopIfStarted_trace s
@[simp] theorem abort_refused (f : WaitFlag) (s : State) : (abort f s).refused = s.refused := stopIfStarted_refused s
@[simp] theorem abort_fault (f : WaitFlag) (s : State) : (abort f s).fault = (stopIfStarted s).fault := rfl
@[simp] theorem abort_params (f : WaitFlag) (s : State) : (abort f s).params = s.params := stopIfStarted_params s
@[simp] theorem abort_inputs (f : WaitFlag) (s : State) : (abort f s).inputs = s.inputs := stopIfStarted_inputs s
@[simp] theorem abort_reads (f : WaitFlag) (s : State) : (abort f s).reads = s.reads := stopIfStarted_reads s

end Sys2Proof.Machine
end

