-- ==== Sys2Proof/Laws/Ops.lean ====
section
/-! SUPPORT. One lemma per shared operation of Machine/Ops.lean that says once everything it can do. -/

namespace Sys2Proof.Machine

/-- With room in PREQ, `enqueue` appends (R135). -/
theorem enqueue_of_room {q : Request} {s : State} (h : s.preq.length < Config.preqCap) :
    enqueue q s = { s with preq := s.preq ++ [q] } := by
  simp [enqueue, Nat.not_le.mpr h]

/-- With PREQ full, `enqueue` sets FAULT and loses the request (R135). -/
theorem enqueue_of_full {q : Request} {s : State} (h : Config.preqCap ≤ s.preq.length) :
    enqueue q s = { s with fault := true } := by
  simp [enqueue, h]

/-- Everything `present` can do: an overrun, one of the two rejections, or acceptance (R120 to R123). -/
theorem present_cases (c : Instr) (rangeOk phaseOk : Bool) (latch : State → State) (s : State) :
    (s.busy = true ∧ present c rangeOk phaseOk latch s = overrun s) ∨
    (s.busy = false ∧ rangeOk = false ∧ present c rangeOk phaseOk latch s = reject .badLength (clearOutcome s)) ∨
    (s.busy = false ∧ rangeOk = true ∧ phaseOk = false ∧
      present c rangeOk phaseOk latch s = reject .sequence (clearOutcome s)) ∨
    (s.busy = false ∧ rangeOk = true ∧ phaseOk = true ∧
      present c rangeOk phaseOk latch s = latch (accept c (clearOutcome s))) := by
  unfold present
  cases s.busy <;> cases rangeOk <;> cases phaseOk <;> simp

theorem present_of_busy {c : Instr} {rangeOk phaseOk : Bool} {latch : State → State} {s : State} (h : s.busy = true) :
    present c rangeOk phaseOk latch s = overrun s := by
  simp [present, h]

theorem present_of_ok {c : Instr} {latch : State → State} {s : State} (h : s.busy = false) :
    present c true true latch s = latch (accept c (clearOutcome s)) := by
  simp [present, h]

/-- A Start still in PREQ is flushed, and no Stop is requested (R207). -/
theorem stopIfStarted_of_queued {s : State} (h : Request.start ∈ s.preq) : stopIfStarted s = flushRequests s := by
  simp [stopIfStarted, h]

/-- With the Start performed, one Stop is requested behind those already queued (R207). -/
theorem stopIfStarted_of_started {s : State} (h : Request.start ∉ s.preq) :
    stopIfStarted s = enqueue .stop (flushRequests s) := by
  simp [stopIfStarted, h]

end Sys2Proof.Machine
end

