-- ==== Sys2Proof/Laws/Sequencer.lean ====
section
/-! SUPPORT. What a wait, the sequencer and an ENGINE step can do (40_engine_commands.md R124 to R127), and where the µops of the
two long µprograms stand. -/

namespace Sys2Proof.Machine

open Host

/-! ### Polls -/

/-- A poll of a set flag (R127). -/
theorem microWait_of_set {f : WaitFlag} {s : State} (h : flagValue f s = true) :
    microWait f s = ({ s with spin := 0 }, .advance) := by
  simp [microWait, h]

/-- A failed poll that does not time out (R127). -/
theorem microWait_of_clear {f : WaitFlag} {s : State} (h : flagValue f s = false)
    (ht : timesOut s.limit (spinAfterFail s.spin) = false) :
    microWait f s = ({ s with spin := spinAfterFail s.spin }, .stay) := by
  simp [microWait, h, ht]

/-- A failed poll that times out (R127, R206). -/
theorem microWait_of_timeout {f : WaitFlag} {s : State} (h : flagValue f s = false)
    (ht : timesOut s.limit (spinAfterFail s.spin) = true) :
    microWait f s = ({ s with spin := spinAfterFail s.spin }, .abort f) := by
  simp [microWait, h, ht]

/-- With LIMIT = 0 nothing times out (R36). -/
@[simp] theorem timesOut_zero (spin : Half) : timesOut 0 spin = false := by simp [timesOut]

/-- SPIN counts up by 1 and stops at 0xFFFF (R43). -/
theorem spinAfterFail_toNat (spin : Half) : (spinAfterFail spin).toNat = min (spin.toNat + 1) 0xFFFF := by
  unfold spinAfterFail
  split
  · next h => subst h; rfl
  · next h =>
    have : spin.toNat ≠ 0xFFFF := fun e => h (BitVec.eq_of_toNat_eq e)
    have := spin.isLt
    have e : (spin + 1).toNat = (spin.toNat + 1) % 2 ^ 16 := BitVec.toNat_add spin 1
    omega

/-! ### ENGINE -/

/-- ENGINE has no step while BUSY = 0 (R22). -/
theorem engineStep_of_idle {s : State} (h : s.busy = false) : engineStep s = .next s := by simp [engineStep, h]

/-- An ENGINE step at a µop (R125). -/
theorem engineStep_of_micro {s : State} {u : MicroOp} (h : s.busy = true) (hu : currentMicro s = some u) :
    engineStep s = .next (applyVerdict (runningProg s).length (runMicro u s)) := by
  simp [engineStep, h, hu]

/-- LIMIT ≠ 0 and SPIN ≥ LIMIT (R206). -/
theorem timesOut_iff (limit spin : Half) : timesOut limit spin = true ↔ limit ≠ 0 ∧ limit.toNat ≤ spin.toNat := by
  simp [timesOut, BitVec.le_def]

/-- An ENGINE step at a wait whose flag is 0: one failed poll (R127). -/
theorem engineStep_of_failedPoll {s : State} {f : WaitFlag} (h : s.busy = true) (hu : currentMicro s = some (.wait f))
    (hf : flagValue f s = false) :
    engineStep s =
      .next (if timesOut s.limit (spinAfterFail s.spin) then abort f { s with spin := spinAfterFail s.spin }
        else { s with spin := spinAfterFail s.spin }) := by
  rw [engineStep_of_micro h hu]
  split
  · next ht => rw [show runMicro (.wait f) s = _ from microWait_of_timeout hf ht]; rfl
  · next ht => rw [show runMicro (.wait f) s = _ from microWait_of_clear hf (by simpa using ht)]; rfl

/-- Everything an ENGINE step can do (R125). -/
theorem engineStep_cases {s t : State} (h : engineStep s = .next t) :
    (s.busy = false ∧ t = s) ∨
    (s.busy = true ∧ ∃ u, currentMicro s = some u ∧
      t = applyVerdict (runningProg s).length (runMicro u s)) := by
  unfold engineStep at h
  cases hb : s.busy <;> simp only [hb, if_true, if_false, Bool.false_eq_true] at h
  · exact .inl ⟨rfl, by simpa using h.symm⟩
  · cases hu : currentMicro s with
    | none => simp [hu] at h
    | some u => simp only [hu] at h; exact .inr ⟨rfl, u, rfl, by simpa using h.symm⟩

/-- A µop other than a wait always advances (R21). -/
theorem runMicro_verdict {u : MicroOp} {s : State} (h : ∀ f, u ≠ .wait f) : (runMicro u s).2 = .advance := by
  cases u <;> first | rfl | exact absurd rfl (h _)

/-- Past the last µop the command ends (R125). -/
theorem advance_of_last {len : Nat} {s : State} (h : s.mpc.toNat + 1 = len) : advance len s = endCommand s := by
  simp [advance, h]

/-- Before the last µop MPC moves by 1 (R125, R126). -/
theorem advance_of_more {len : Nat} {s : State} (h : s.mpc.toNat + 1 ≠ len) : advance len s = { s with mpc := s.mpc + 1 } := by
  simp [advance, h]

/-- The µprogram running is that of CUR. -/
theorem runningProg_of_cur {s : State} {c : Instr} (h : s.cur = some c) : runningProg s = uprog c s.payload := by
  simp [runningProg, h]

/-! ### Positions in the long µprograms -/

/-- A list of equal blocks, by position. -/
theorem flatten_replicate_getElem? {α : Type} (n : Nat) (b : List α) (j k : Nat) (hj : j < n) (hk : k < b.length) :
    (List.replicate n b).flatten[b.length * j + k]? = b[k]? := by
  induction n generalizing j with
  | zero => omega
  | succ n ih =>
    rw [List.replicate_succ, List.flatten_cons]
    cases j with
    | zero => simp [List.getElem?_append_left hk]
    | succ j =>
      rw [List.getElem?_append_right (by rw [Nat.mul_succ]; omega)]
      rw [show b.length * (j + 1) + k - b.length = b.length * j + k by rw [Nat.mul_succ]; omega]
      exact ih j (by omega)

theorem flatten_replicate_length {α : Type} (n : Nat) (b : List α) :
    (List.replicate n b).flatten.length = n * b.length := by
  simp

/-- The bytes of a WRITE, by position. -/
theorem flatMap_range_getElem? {α : Type} (n : Nat) (g : Nat → List α) (m : Nat) (hg : ∀ i, (g i).length = m) (j k : Nat)
    (hj : j < n) (hk : k < m) : ((List.range n).flatMap g)[m * j + k]? = (g j)[k]? := by
  induction n with
  | zero => omega
  | succ n ih =>
    have hlen : ((List.range n).flatMap g).length = n * m := by
      rw [List.length_flatMap, show (fun i => (g i).length) = fun _ => m from funext hg]; simp
    rw [List.range_succ, List.flatMap_append]
    rcases Nat.lt_or_ge j n with h | h
    · rw [List.getElem?_append_left, ih h]
      rw [hlen]
      calc m * j + k < m * j + m := by omega
        _ = m * (j + 1) := by rw [Nat.mul_succ]
        _ ≤ m * n := Nat.mul_le_mul_left m h
        _ = n * m := Nat.mul_comm ..
    · have : j = n := by omega
      subst this
      rw [List.getElem?_append_right (by rw [hlen, Nat.mul_comm j m]; omega), hlen]
      rw [Nat.mul_comm m j, Nat.add_sub_cancel_left]
      simp

end Sys2Proof.Machine
end

