-- ==== Sys2Proof/Safety.lean ====
section
/-! DEFINITION. The terms claims are stated in: runs, the premise "no refusal and no fault recorded" (00_scope.md R19), the shape
of TRACE (20_memory.md R91), the invariant of the machine (10_state.md R54, 20_memory.md R90), the invariant of a burst's data
(41_burst_read.md R182 to R184), prompt schedules (95_test_vectors.md), and fair runs (70_reset_and_hazards.md R252). -/

namespace Sys2Proof.Machine

open Host

/-! ### Runs -/

/-- `k` steps of the machine, stopping at the first that is not a next state: the host's run of it. -/
def run (k : Nat) (s : State) : Outcome State Fault Refusal := Host.Core.run Sys2Proof.core k s

/-- R19: the premise of claims, "no refusal and no fault recorded". -/
def State.quiet (s : State) : Bool := !s.refused && !s.fault

/-! ### The shape of TRACE (R91) -/

/-- Where the bus stands after the events of a trace. -/
inductive BusView where
  /-- No transaction is open: nothing yet, or a Stop. -/
  | closed
  /-- A Start, and no address yet. -/
  | opened
  /-- A write address was ACKed; Tx events may follow. -/
  | writing
  /-- A read address was ACKed, and every byte since; Rx events may follow. -/
  | reading
  /-- A received byte was NACKed; only a Stop may follow. -/
  | readEnd
  /-- The address was NACKed; only a Stop may follow. -/
  | unanswered
  /-- The trace has an event R91 does not allow. -/
  | broken
deriving DecidableEq, Repr

/-- The grammar of R91, one event at a time. -/
def BusView.next (v : BusView) (e : BusEvent) : BusView :=
  match e, v with
  | .start, .closed => .opened
  | .addr b ack, .opened => if ack then (if b.getLsbD 0 then .reading else .writing) else .unanswered
  | .tx _, .writing => .writing
  | .rx _ ack, .reading => if ack then .reading else .readEnd
  | .stop, .opened => .closed
  | .stop, .writing => .closed
  | .stop, .reading => .closed
  | .stop, .readEnd => .closed
  | .stop, .unanswered => .closed
  | _, _ => .broken

/-- Where the bus stands after a trace. -/
def busView (tr : List BusEvent) : BusView := tr.foldl BusView.next .closed

/-- A transaction is open on the bus. -/
def BusView.isOpen (v : BusView) : Bool := decide (v ≠ .closed) && decide (v ≠ .broken)

/-! ### The invariant -/

/-- The buffers have the lengths of R37, R38, R40 and R45. -/
def sizesOk (s : State) : Bool :=
  s.params.legal && decide (s.txbuf.length = s.params.txbufDepth) && decide (s.payload.length = s.params.txbufDepth)
    && decide (s.result.length = s.params.maxWords) && decide (s.work.length = s.params.maxWords)

/-- The bus-side flags agree with what has happened on the bus (R32, R48, R49, R54(c), R91). -/
def linkOk (s : State) : Bool :=
  decide (busView s.trace ≠ .broken)
    && decide (s.rxmode = (decide (busView s.trace = .reading) || decide (busView s.trace = .readEnd)))
    && decide (s.rxmore = decide (busView s.trace = .reading))
    && (!s.rxNotEmpty || s.rxmode)
    && (s.shift.isNone || (s.rxmode && s.params.rxPrefetch))
    && (!s.startSent || (decide (busView s.trace = .opened) && decide (s.preq = [])))
    && (!s.addrAcked || ((decide (busView s.trace = .writing) || decide (busView s.trace = .reading)) && decide (s.preq = [])))

/-- PREQ between transactions: empty with the bus closed, or one Stop that will close it (R90, R207). -/
def restingQueue (s : State) : Bool :=
  (decide (s.preq = []) && decide (busView s.trace = .closed)) || (decide (s.preq = [.stop]) && (busView s.trace).isOpen)

/-- The bus is in the data phase of the direction DIR says. -/
def dataPhase (s : State) : Bool :=
  match s.dir with
  | .write => decide (busView s.trace = .writing)
  | .read => decide (busView s.trace = .reading) || decide (busView s.trace = .readEnd)

/-- PHASE = Transferring, with nothing pending. -/
def transferringOk (s : State) : Bool :=
  decide (s.phase = .transferring) && decide (s.preq = []) && dataPhase s && !s.addrAcked

/-- The state between commands (R54(a), R90). -/
def restOk (s : State) : Bool := (phaseClosed s && restingQueue s) || transferringOk s

/-- A WAIT µop, at which alone SPIN may be other than 0 (R206). -/
def MicroOp.isWait : MicroOp → Bool
  | .wait _ => true
  | _ => false

/-- What holds when ENGINE stands at a µop: PHASE, PREQ and the bus (R54(b), R90). -/
def microOk (u : MicroOp) (s : State) : Bool :=
  match u with
  | .start => phaseClosed s && restingQueue s
  | .wait .startSent =>
    decide (s.phase = .started)
      && ((decide (s.preq = [.start]) && decide (busView s.trace = .closed))
        || (decide (s.preq = [.stop, .start]) && (busView s.trace).isOpen)
        || (decide (s.preq = []) && s.startSent))
  | .addr _ => decide (s.phase = .started) && s.startSent
  | .wait .addrAcked =>
    decide (s.phase = .addressSent)
      && ((decide (s.preq = [.addr (addressByte s.dir)]) && decide (busView s.trace = .opened))
        || (s.addrAcked && dataPhase s)
        || (decide (s.preq = []) && decide (busView s.trace = .unanswered)))
  | .clrAddr => decide (s.phase = .addressSent) && s.addrAcked && dataPhase s
  | .wait .txEmpty =>
    decide (s.phase = .transferring) && decide (s.dir = .write) && decide (busView s.trace = .writing) && !s.addrAcked
      && (match s.preq with
        | [] => true
        | [.tx _] => true
        | _ => false)
  | .tx _ => transferringOk s && decide (s.dir = .write)
  | .wait .rxNotEmpty => transferringOk s && decide (s.dir = .read)
  | .rxb => transferringOk s && decide (s.dir = .read) && s.rxNotEmpty
  | .rxHi => transferringOk s && decide (s.dir = .read) && s.rxNotEmpty
  | .rxLo => transferringOk s && decide (s.dir = .read) && s.rxNotEmpty
  | .rxHiNack => transferringOk s && decide (s.dir = .read) && s.rxNotEmpty
  | .rxAdd => transferringOk s && decide (s.dir = .read) && s.rxNotEmpty
  | .stop => transferringOk s
  | .setAck _ => restOk s
  | .ackOn => decide (s.phase = .stopped) && restingQueue s
  | .commit => decide (s.phase = .stopped) && restingQueue s && s.ackEn

/-- An accepted command is in range (R122). -/
def commandInRange (p : Params) : Instr → Bool
  | .write len => lenInRange p len
  | .burst _ wc => wcInRange p wc
  | _ => true

/-- DIR is the direction of the address byte last requested by the running command (R24). -/
def dirOk (s : State) : Bool :=
  match s.cur with
  | some (.begin d) => decide (s.mpc.toNat ≤ 2) || decide (s.dir = d)
  | some (.write _) => decide (s.mpc.toNat ≤ 2) || decide (s.dir = .write)
  | some (.burst _ _) =>
    decide (s.mpc.toNat ≤ 2) || (if s.mpc.toNat ≤ 11 then decide (s.dir = .write) else decide (s.dir = .read))
  | _ => true

/-- A burst µop that takes a received byte, and adds 1 to BYTES (R31). -/
def MicroOp.takesByte : MicroOp → Bool
  | .rxHi => true
  | .rxLo => true
  | .rxHiNack => true
  | .rxAdd => true
  | _ => false

/-- A burst µop that completes a word, and adds 1 to WIDX (R42). -/
def MicroOp.endsWord : MicroOp → Bool
  | .rxLo => true
  | .rxAdd => true
  | _ => false

/-- In a BURST, BYTES and WIDX count the µops run so far, and RESULT_VALID is 0 (R26, R31, R42). -/
def burstCounts (s : State) : Bool :=
  match s.cur with
  | some (.burst _ _) =>
    decide (s.bytes.toNat = ((runningProg s).take s.mpc.toNat).countP MicroOp.takesByte)
      && decide (s.widx.toNat = ((runningProg s).take s.mpc.toNat).countP MicroOp.endsWord) && !s.resultValid
  | _ => true

/-- The state while a command runs: ENGINE stands at a µop of its µprogram (R21, R22, R28, R206). -/
def runningOk (s : State) : Bool :=
  match s.cur, currentMicro s with
  | some c, some u =>
    commandInRange s.params c && microOk u s && (u.isWait || decide (s.spin = 0)) && decide (s.err = .none) && dirOk s
      && burstCounts s
  | _, _ => false

/-- The invariant of the machine, kept by every step (R54, R90, R91). -/
def State.inv (s : State) : Bool :=
  sizesOk s && linkOk s && !s.fault && decide (s.tmoWhere.isSome = decide (s.err = .busTimeout))
    && (if s.busy then runningOk s else restOk s && decide (s.cur = none) && decide (s.mpc = 0) && decide (s.spin = 0))

/-! ### The invariant of a burst's data -/

/-- The bytes received since the last address byte, with their ACK bits, oldest first. -/
def receivedSinceAddr (tr : List BusEvent) : List (Byte × Bool) :=
  tr.foldl
    (fun acc e =>
      match e with
      | .addr _ _ => []
      | .rx b a => acc ++ [(b, a)]
      | _ => acc)
    []

/-- Big-endian words, two bytes each: the first byte is the high one (R71, R184). An odd byte at the end is left out. -/
def bigEndianWords : List Byte → List Half
  | h :: l :: rest => (h ++ l) :: bigEndianWords rest
  | _ => []

/-- WORK after the given bytes: their words, and 0 above (R40). -/
def workOf (maxWords : Nat) (bs : List Byte) : List Half :=
  bigEndianWords bs ++ List.replicate (maxWords - (bigEndianWords bs).length) 0

/-- The bytes the running BURST has taken: the first BYTES of those received. -/
def takenBytes (s : State) : List Byte := ((receivedSinceAddr s.trace).map Prod.fst).take s.bytes.toNat

/-- The bytes delivered and not yet taken: DR, then the shifted byte (R47, R49). -/
def pendingBytes (s : State) : List Byte :=
  (if s.rxNotEmpty then [s.dr] else []) ++ s.shift.toList.map Prod.fst

/-- The ACK bits of a successful burst of `wc` words (R182): all 1 but the last. -/
def burstAcks (wc : Nat) : List Bool := List.replicate (2 * wc - 1) true ++ [false]

/-- The ACK bits so far follow R182, with ACK_EN = 1 until byte 2·wc − 1 is taken and 0 from then to the Stop (R177, R185); or
ACK_EN was 0 at acceptance, and at most one byte came, NACKed (R188). -/
def acksOk (wc : Nat) (s : State) : Bool :=
  let acks := (receivedSinceAddr s.trace).map Prod.snd
  (acks.isPrefixOf (burstAcks wc)
      && (decide (s.phase = .stopped) || decide (s.ackEn = decide (s.bytes.toNat < 2 * wc - 1))))
    || (!s.ackEn && decide (s.bytes.toNat ≤ 1) && (decide (acks = []) || decide (acks = [false])))

/-- In a BURST past its read address, WORK and ACC are those of the bytes taken, and the bytes received are the bytes taken and
the pending ones, until the final Stop is requested (R182 to R184). `14` is the position after the second BEGIN_SEQ (R172). -/
def burstDataOk (s : State) : Bool :=
  match s.cur with
  | some (.burst _ wc) =>
    decide (s.work = workOf s.params.maxWords (if s.mpc.toNat < 14 then [] else takenBytes s))
      && (decide (s.mpc.toNat < 14)
        || (decide ((takenBytes s).length = s.bytes.toNat)
          && (decide (s.bytes.toNat % 2 = 0) || decide (some s.acc = (takenBytes s).getLast?.map highByte))
          && (decide (s.phase = .stopped)
            || decide ((receivedSinceAddr s.trace).map Prod.fst = takenBytes s ++ pendingBytes s))
          && (s.params.rxPrefetch || acksOk wc s)))
  | _ => true

/-- RESULT_VALID = 1 means the words of a complete burst: BYTES is 2·wc for a legal wc, and RESULT is 0 above wc (R38, R55). -/
def resultOk (s : State) : Bool :=
  !s.resultValid
    || (decide (s.bytes.toNat % 2 = 0) && decide (4 ≤ s.bytes.toNat) && decide (s.bytes.toNat ≤ 2 * s.params.maxWords)
      && decide (s.result.drop (s.bytes.toNat / 2) = List.replicate (s.params.maxWords - s.bytes.toNat / 2) 0))

/-- No byte is received before the engine has cleared the address-acknowledge flag (R83). -/
def freshAddrOk (s : State) : Bool :=
  !s.addrAcked || (decide (receivedSinceAddr s.trace = []) && !s.rxNotEmpty && s.shift.isNone)

/-- The invariant of a burst's data, kept by every step of a machine that meets `State.inv`. -/
def State.dataInv (s : State) : Bool := burstDataOk s && resultOk s && freshAddrOk s

/-! ### Prompt schedules (95_test_vectors.md, "Schedule: prompt") -/

/-- BUS performs the requests an earlier command left: a Stop, if there is one (R245). -/
def drainEvents (q : List Request) : List Event := q.map fun _ => .bus .bStop

/-- The state once a Stop left in PREQ has been performed. -/
def afterPending (s : State) : State :=
  match s.preq with
  | .stop :: _ => bStop s
  | _ => s

/-- BEGIN_SEQ with `q` pending in PREQ and the address ACKed; every wait succeeds at its first poll. -/
def promptBegin (q : List Request) : List Event :=
  [.engine] ++ drainEvents q ++ [.bus .bStart, .engine, .engine, .bus (.bAddr true), .engine, .engine]

/-- One byte sent. -/
def promptTx : List Event := [.engine, .engine, .bus .bTx, .engine]

/-- One byte received and taken. -/
def promptByte (rxPrefetch : Bool) (v : Byte) : List Event :=
  (if rxPrefetch then [.bus (.bShift v), .bus .bMove] else [.bus (.bRx v)]) ++ [.engine, .engine]

/-- A WRITE of `n` bytes. -/
def promptWrite (q : List Request) (n : Nat) : List Event :=
  promptBegin q ++ (List.replicate n promptTx).flatten ++ [.engine]

/-- A BURST that receives the given bytes. -/
def promptBurst (q : List Request) (rxPrefetch : Bool) (bs : List Byte) : List Event :=
  promptBegin q ++ promptTx ++ [.engine] ++ promptBegin [.stop] ++ bs.flatMap (promptByte rxPrefetch)
    ++ [.engine, .engine, .engine]

/-- The receive part of a BURST of 2 words with RX_PREFETCH = true, every byte shifted in as early as it can be, the extra fifth
byte among them, and the final Stop performed (R187, R250). -/
def earlyShifts (b1 b2 b3 b4 b5 : Byte) : List Event :=
  [.bus (.bShift b1), .bus .bMove, .bus (.bShift b2), .engine, .engine,
   .bus .bMove, .bus (.bShift b3), .engine, .engine,
   .bus .bMove, .bus (.bShift b4), .engine, .engine,
   .bus .bMove, .bus (.bShift b5), .engine, .engine,
   .engine, .engine, .engine, .bus .bStop]

/-! ### Bounded and fair runs (R252) -/

/-- A step that neither resets, nor writes TIMEOUT, nor leaves the window. -/
def Event.keepsLimit : Event → Bool
  | .host (.read off _) => decide (off < Config.windowBytes)
  | .host (.write off n _) => decide (off < Config.windowBytes) && !(decide (off = 0x0C) && decide (n = 4))
  | .engine => true
  | .bus _ => true
  | .reset => false

/-- L + W·(n − 1) (R252): ENGINE steps within which a command with LIMIT = n ends. -/
def engineBound (prog : List MicroOp) (n : Nat) : Nat := prog.length + prog.countP MicroOp.isWait * (n - 1)

/-- An infinite run: the states it passes and the event of each step. -/
structure IsRun (sched : Nat → Event) (states : Nat → State) : Prop where
  steps : ∀ k, applyEvent (sched k) (states k) = .next (states (k + 1))
  noReset : ∀ k, sched k ≠ .reset

/-- ENGINE is weakly fair: if BUSY stays 1, ENGINE takes a step eventually (R252). -/
def EngineFair (sched : Nat → Event) (states : Nat → State) : Prop :=
  ∀ k, (∀ j, k ≤ j → (states j).busy = true) → ∃ j, k ≤ j ∧ sched j = .engine

/-- The two moves are the same BUS step, whatever they draw. -/
def BusMove.sameStep : BusMove → BusMove → Bool
  | .bStart, .bStart => true
  | .bAddr _, .bAddr _ => true
  | .bTx, .bTx => true
  | .bStop, .bStop => true
  | .bRx _, .bRx _ => true
  | .bShift _, .bShift _ => true
  | .bMove, .bMove => true
  | _, _ => false

/-- `bus_responsive` (R252): BUS is weakly fair, each BUS step that stays enabled being taken eventually, and every
`draw_ack()` returns 1. -/
structure BusResponsive (sched : Nat → Event) (states : Nat → State) : Prop where
  fair : ∀ m k, (∀ j, k ≤ j → busEnabled m (states j) = true) → ∃ j m', k ≤ j ∧ sched j = .bus m' ∧ m.sameStep m' = true
  acks : ∀ k, sched k ≠ .bus (.bAddr false)

/-- What a command needs so that the bytes it waits for can come: ACK_EN = 1 for a BURST, and a byte there or to come for a
READB (R150, R188, R252). -/
def canBeServed (c : Instr) (s : State) : Bool :=
  match c with
  | .burst _ _ => s.ackEn
  | .readb => s.rxNotEmpty || s.shift.isSome || s.rxmore
  | _ => true

end Sys2Proof.Machine
end

