-- ==== Sys2Proof/Laws/Microprogram.lean ====
section
/-! SUPPORT. The µprograms by position (40_engine_commands.md R124, 41_burst_read.md R172): which µop may follow which, which ends
a command, and, in the burst's receive part, where each µop stands and how many bytes and words came before. -/

namespace Sys2Proof.Machine

/-! ### Which µop follows which -/

/-- `v` may follow `u` in a µprogram, in a state whose direction is `d`. -/
def followsIn (d : Dir) (u v : MicroOp) : Bool :=
  match u, v with
  | .start, .wait .startSent => true
  | .wait .startSent, .addr _ => true
  | .addr _, .wait .addrAcked => true
  | .wait .addrAcked, .clrAddr => true
  | .clrAddr, .wait .txEmpty => decide (d = .write)
  | .clrAddr, .wait .rxNotEmpty => decide (d = .read)
  | .clrAddr, .stop => true
  | .wait .txEmpty, .tx _ => true
  | .wait .txEmpty, .stop => true
  | .wait .txEmpty, .wait .txEmpty => true
  | .tx _, .wait .txEmpty => true
  | .wait .rxNotEmpty, .rxb => true
  | .wait .rxNotEmpty, .rxHi => true
  | .wait .rxNotEmpty, .rxLo => true
  | .wait .rxNotEmpty, .rxHiNack => true
  | .wait .rxNotEmpty, .rxAdd => true
  | .rxHi, .wait .rxNotEmpty => true
  | .rxLo, .wait .rxNotEmpty => true
  | .rxHiNack, .wait .rxNotEmpty => true
  | .rxAdd, .stop => true
  | .stop, .start => true
  | .stop, .ackOn => true
  | .ackOn, .commit => true
  | _, _ => false

/-- `v` may follow `u`, whatever the direction. -/
def CanFollow (u v : MicroOp) : Prop := (followsIn .write u v || followsIn .read u v) = true

/-- The µops that end a command. -/
def MicroOp.endsCommand : MicroOp → Bool
  | .clrAddr => true
  | .stop => true
  | .rxb => true
  | .setAck _ => true
  | .commit => true
  | _ => false

theorem write_chain (l : List Nat) (ps : List Byte) :
    List.IsChain CanFollow (.clrAddr :: (l.flatMap fun i => txSeq (payloadByte ps i)) ++ [.stop]) ∧
    List.IsChain CanFollow
      (.wait .txEmpty :: (l.flatMap fun i => txSeq (payloadByte ps i)) ++ [.stop]) := by
  induction l with
  | nil => simp [CanFollow, followsIn]
  | cons a l ih =>
    have h := ih.2
    simp only [List.cons_append, txSeq] at h
    simp [txSeq, CanFollow, followsIn, h]

theorem words_chain (r : Nat) :
    List.IsChain CanFollow
      (.clrAddr :: ((List.replicate r wordSeq).flatten ++ (lastWordSeq ++ [.stop, .ackOn, .commit]))) ∧
    List.IsChain CanFollow
      (.rxLo :: ((List.replicate r wordSeq).flatten ++ (lastWordSeq ++ [.stop, .ackOn, .commit]))) := by
  induction r with
  | zero => simp [lastWordSeq, CanFollow, followsIn]
  | succ r ih =>
    have h := ih.2
    simp [List.replicate_succ, wordSeq, CanFollow, followsIn]
    simpa [wordSeq] using h

/-- In every µprogram each µop may follow the one before it. -/
theorem uprog_chain (c : Instr) (ps : List Byte) : List.IsChain CanFollow (uprog c ps) := by
  cases c with
  | write len =>
    have h := (write_chain (List.range len) ps).1
    simp only [List.cons_append] at h
    simp [uprog, uprogWrite, beginSeq, CanFollow, followsIn, h]
  | burst r wc =>
    have h := (words_chain (wc - 1)).1
    simp [uprog, uprogBurst, beginSeq, txSeq, CanFollow, followsIn, h]
  | _ => simp [uprog, uprogBegin, beginSeq, uprogReadb, uprogSetack, uprogStop, CanFollow, followsIn]

/-- The µop after a position. -/
theorem follows_of_positions {c : Instr} {ps : List Byte} {i : Nat} {u v : MicroOp} (hu : (uprog c ps)[i]? = some u)
    (hv : (uprog c ps)[i + 1]? = some v) : CanFollow u v := by
  have h := uprog_chain c ps
  rw [List.isChain_iff_getElem] at h
  obtain ⟨_, rfl⟩ := List.getElem?_eq_some_iff.mp hu
  obtain ⟨h2, rfl⟩ := List.getElem?_eq_some_iff.mp hv
  exact h i h2

/-! ### The openings -/

/-- The first fourteen µops of a BURST: the register write and the second BEGIN_SEQ (R173, R174). -/
def burstOpening (r : Byte) : List MicroOp :=
  [.start, .wait .startSent, .addr .write, .wait .addrAcked, .clrAddr, .wait .txEmpty, .tx r, .wait .txEmpty, .stop,
   .start, .wait .startSent, .addr .read, .wait .addrAcked, .clrAddr]

/-- The rest of a BURST, for `n + 1` words. -/
def burstReceive (n : Nat) : List MicroOp :=
  (List.replicate n wordSeq).flatten ++ (lastWordSeq ++ [.stop, .ackOn, .commit])

theorem uprogBurst_eq (r : Byte) (wc : Nat) : uprogBurst r wc = burstOpening r ++ burstReceive (wc - 1) := by
  simp [uprogBurst, beginSeq, txSeq, burstOpening, burstReceive]

theorem uprogBurst_opening (r : Byte) (wc i : Nat) (hi : i < 14) : (uprogBurst r wc)[i]? = (burstOpening r)[i]? := by
  rw [uprogBurst_eq, List.getElem?_append_left (by simpa [burstOpening] using hi)]

theorem uprogBurst_receive (r : Byte) (wc i : Nat) : (uprogBurst r wc)[14 + i]? = (burstReceive (wc - 1))[i]? := by
  rw [uprogBurst_eq, List.getElem?_append_right (by simp [burstOpening])]
  simp [burstOpening]

theorem uprogWrite_opening (n : Nat) (ps : List Byte) (i : Nat) (hi : i < 5) :
    (uprogWrite n ps)[i]? = (beginSeq .write)[i]? := by
  rw [uprogWrite, List.append_assoc, List.getElem?_append_left (by simpa [beginSeq] using hi)]

/-- After its BEGIN_SEQ a WRITE has only the µops that send bytes, and STOP. -/
theorem uprogWrite_rest (n : Nat) (ps : List Byte) (i : Nat) (hi : 5 ≤ i) {u : MicroOp} (h : (uprogWrite n ps)[i]? = some u) :
    u = .wait .txEmpty ∨ (∃ b, u = .tx b) ∨ u = .stop := by
  rw [uprogWrite, List.append_assoc, List.getElem?_append_right (by simpa [beginSeq] using hi)] at h
  have := List.mem_of_getElem? h
  simp [txSeq] at this
  grind

/-! ### The receive part of a BURST -/

theorem burstReceive_succ (n : Nat) :
    burstReceive (n + 1) = .wait .rxNotEmpty :: .rxHi :: .wait .rxNotEmpty :: .rxLo :: burstReceive n := by
  simp [burstReceive, List.replicate_succ, wordSeq]

/-- How many bytes and words the first `i` µops of the receive part take. -/
theorem burstReceive_counts (n i : Nat) :
    ((burstReceive n).take i).countP MicroOp.takesByte = min (i / 2) (2 * (n + 1)) ∧
    ((burstReceive n).take i).countP MicroOp.endsWord = min (i / 4) (n + 1) := by
  induction n generalizing i with
  | zero =>
    rcases i with _ | _ | _ | _ | _ | _ | _ | i <;>
      simp [burstReceive, lastWordSeq, List.countP_cons, MicroOp.takesByte, MicroOp.endsWord]
    omega
  | succ n ih =>
    rw [burstReceive_succ]
    rcases i with _ | _ | _ | _ | i
    · simp
    · simp [MicroOp.takesByte, MicroOp.endsWord]
    · simp [MicroOp.takesByte, MicroOp.endsWord]
      omega
    · simp [MicroOp.takesByte, MicroOp.endsWord, List.countP_cons]
      omega
    · have h := ih i
      simp only [List.take_succ_cons, List.countP_cons, h, MicroOp.takesByte, MicroOp.endsWord, if_true, if_false,
        Bool.false_eq_true]
      omega

/-- Where a µop stands in the receive part. -/
def standsAt (n i : Nat) : MicroOp → Prop
  | .wait f => f = .rxNotEmpty ∧ i % 2 = 0 ∧ i < 4 * n + 4
  | .rxHi => i % 4 = 1 ∧ i < 4 * n
  | .rxLo => i % 4 = 3 ∧ i < 4 * n
  | .rxHiNack => i = 4 * n + 1
  | .rxAdd => i = 4 * n + 3
  | .stop => i = 4 * n + 4
  | .ackOn => i = 4 * n + 5
  | .commit => i = 4 * n + 6
  | _ => False

theorem standsAt_of_receive (n i : Nat) (u : MicroOp) (h : (burstReceive n)[i]? = some u) : standsAt n i u := by
  induction n generalizing i with
  | zero =>
    rcases i with _ | _ | _ | _ | _ | _ | _ | i <;> simp [burstReceive, lastWordSeq] at h <;> subst h <;> simp [standsAt]
  | succ n ih =>
    rw [burstReceive_succ] at h
    rcases i with _ | _ | _ | _ | i
    · simp at h; subst h; simp [standsAt]
    · simp at h; subst h; simp [standsAt]; omega
    · simp at h; subst h; simp [standsAt]
    · simp at h; subst h; simp [standsAt]; omega
    · simp at h
      have := ih i h
      cases u <;> simp only [standsAt] at this ⊢ <;> grind

end Sys2Proof.Machine
end

