-- ==== Sys2Proof/Laws/Bus.lean ====
section
/-! SUPPORT. Everything a BUS step can do (20_memory.md R79 to R85). -/

namespace Sys2Proof.Machine

/-- A BUS step that is not enabled is no step. -/
theorem busStep_of_disabled {m : BusMove} {s : State} (h : busEnabled m s = false) : busStep m s = s := by
  simp [busStep, h]

theorem busStep_start {s : State} {q : List Request} (h : s.preq = .start :: q) : busStep .bStart s = bStart s := by
  simp [busStep, busEnabled, h]

theorem busStep_addr {s : State} {b : Byte} {q : List Request} (ack : Bool) (h : s.preq = .addr b :: q) :
    busStep (.bAddr ack) s = bAddr b ack s := by
  simp [busStep, busEnabled, h]

theorem busStep_tx {s : State} {b : Byte} {q : List Request} (h : s.preq = .tx b :: q) : busStep .bTx s = bTx b s := by
  simp [busStep, busEnabled, h]

theorem busStep_stop {s : State} {q : List Request} (h : s.preq = .stop :: q) : busStep .bStop s = bStop s := by
  simp [busStep, busEnabled, h]

theorem busStep_rx {s : State} {v : Byte} (h : busEnabled (.bRx v) s = true) : busStep (.bRx v) s = bRx v s := by
  simp [busStep, h]

theorem busStep_shift {s : State} {v : Byte} (h : busEnabled (.bShift v) s = true) : busStep (.bShift v) s = bShift v s := by
  simp [busStep, h]

theorem busStep_move {s : State} {v : Byte} {a : Bool} (h : busEnabled .bMove s = true) (hs : s.shift = some (v, a)) :
    busStep .bMove s = bMove v s := by
  simp [busStep, h, hs]

/-- Everything a BUS step can do: nothing, or one of the seven steps with its condition. -/
theorem busStep_cases (m : BusMove) (s : State) :
    busStep m s = s ∨
    (m = .bStart ∧ (∃ q, s.preq = .start :: q) ∧ busStep m s = bStart s) ∨
    (∃ ack b q, m = .bAddr ack ∧ s.preq = .addr b :: q ∧ busStep m s = bAddr b ack s) ∨
    (∃ b q, m = .bTx ∧ s.preq = .tx b :: q ∧ busStep m s = bTx b s) ∨
    (m = .bStop ∧ (∃ q, s.preq = .stop :: q) ∧ busStep m s = bStop s) ∨
    (∃ v, m = .bRx v ∧ s.params.rxPrefetch = false ∧ canReceive s = true ∧ s.rxNotEmpty = false ∧
      busStep m s = bRx v s) ∨
    (∃ v, m = .bShift v ∧ s.params.rxPrefetch = true ∧ canReceive s = true ∧ s.shift = none ∧
      busStep m s = bShift v s) ∨
    (∃ v a, m = .bMove ∧ s.params.rxPrefetch = true ∧ s.shift = some (v, a) ∧ s.rxNotEmpty = false ∧
      busStep m s = bMove v s) := by
  by_cases he : busEnabled m s = true
  · cases m with
    | bStart =>
      obtain ⟨q, hq⟩ : ∃ q, s.preq = .start :: q := by
        cases hp : s.preq with
        | nil => simp [busEnabled, hp] at he
        | cons r q => cases r <;> simp_all [busEnabled]
      exact .inr (.inl ⟨rfl, ⟨q, hq⟩, busStep_start hq⟩)
    | bAddr ack =>
      obtain ⟨b, q, hq⟩ : ∃ b q, s.preq = .addr b :: q := by
        cases hp : s.preq with
        | nil => simp [busEnabled, hp] at he
        | cons r q => cases r <;> simp_all [busEnabled]
      exact .inr (.inr (.inl ⟨ack, b, q, rfl, hq, busStep_addr ack hq⟩))
    | bTx =>
      obtain ⟨b, q, hq⟩ : ∃ b q, s.preq = .tx b :: q := by
        cases hp : s.preq with
        | nil => simp [busEnabled, hp] at he
        | cons r q => cases r <;> simp_all [busEnabled]
      exact .inr (.inr (.inr (.inl ⟨b, q, rfl, hq, busStep_tx hq⟩)))
    | bStop =>
      obtain ⟨q, hq⟩ : ∃ q, s.preq = .stop :: q := by
        cases hp : s.preq with
        | nil => simp [busEnabled, hp] at he
        | cons r q => cases r <;> simp_all [busEnabled]
      exact .inr (.inr (.inr (.inr (.inl ⟨rfl, ⟨q, hq⟩, busStep_stop hq⟩))))
    | bRx v =>
      have h := he
      simp only [busEnabled, Bool.and_eq_true, Bool.not_eq_true'] at h
      exact .inr (.inr (.inr (.inr (.inr (.inl ⟨v, rfl, h.1.1, h.1.2, h.2, busStep_rx he⟩)))))
    | bShift v =>
      have h := he
      simp only [busEnabled, Bool.and_eq_true, Option.isNone_iff_eq_none] at h
      exact .inr (.inr (.inr (.inr (.inr (.inr (.inl ⟨v, rfl, h.1.1, h.1.2, h.2, busStep_shift he⟩))))))
    | bMove =>
      have h := he
      simp only [busEnabled, Bool.and_eq_true, Bool.not_eq_true'] at h
      obtain ⟨⟨v, a⟩, hs⟩ := Option.isSome_iff_exists.mp h.1.2
      exact .inr (.inr (.inr (.inr (.inr (.inr (.inr ⟨v, a, rfl, h.1.1, hs, h.2, busStep_move he hs⟩))))))
  · exact .inl (busStep_of_disabled (by simpa using he))

end Sys2Proof.Machine
end

