-- ==== Sys2Proof/Laws/Trace.lean ====
section
/-! SUPPORT. The bus trace, one event at a time (20_memory.md R91), the address byte, and the words of a list of bytes
(41_burst_read.md R184). -/

namespace Sys2Proof.Machine

@[simp] theorem busView_append (tr : List BusEvent) (e : BusEvent) : busView (tr ++ [e]) = (busView tr).next e := by
  simp [busView, List.foldl_append]

@[simp] theorem receivedSinceAddr_append (tr : List BusEvent) (e : BusEvent) :
    receivedSinceAddr (tr ++ [e]) =
      match e with
      | .addr _ _ => []
      | .rx b a => receivedSinceAddr tr ++ [(b, a)]
      | _ => receivedSinceAddr tr := by
  cases e <;> simp only [receivedSinceAddr, List.foldl_append, List.foldl_cons, List.foldl_nil]

/-- While the peripheral still sends, every byte it has sent was ACKed. -/
theorem acked_of_reading (tr : List BusEvent) : busView tr = .reading → ∀ p ∈ receivedSinceAddr tr, p.2 = true := by
  induction tr using List.reverseRecOn with
  | nil => simp [busView]
  | append_singleton tr e ih =>
    rw [busView_append, receivedSinceAddr_append]
    intro h
    cases e with
    | addr b a => simp
    | rx b a =>
      cases hv : busView tr <;> rw [hv] at h <;> simp [BusView.next] at h ih ⊢
      intro x
      exact ⟨ih hv x, fun _ => h⟩
    | _ => cases hv : busView tr <;> rw [hv] at h <;> simp [BusView.next] at h

/-- The low bit of the address byte is the direction (R129). -/
theorem addressByte_bit0 (d : Dir) : (addressByte d).getLsbD 0 = d.bit := by
  unfold addressByte
  generalize Config.periphAddr = a
  revert a
  cases d <;> decide

/-! ### Words -/

/-- Bytes in pairs: how many words, what one byte more does, and what one pair more does. -/
theorem bigEndianWords_even (bs : List Byte) : ∀ n, bs.length = 2 * n →
    (bigEndianWords bs).length = n ∧ (∀ b, bigEndianWords (bs ++ [b]) = bigEndianWords bs) ∧
      ∀ h l, bigEndianWords (bs ++ [h, l]) = bigEndianWords bs ++ [h ++ l] := by
  intro n
  induction n generalizing bs with
  | zero =>
    intro h
    simp at h
    subst h
    simp [bigEndianWords]
  | succ n ih =>
    intro h
    match bs, h with
    | a :: b :: rest, h =>
      have := ih rest (by simpa [Nat.mul_succ] using h)
      simp [bigEndianWords, this]

theorem workOf_high {m n : Nat} {bs : List Byte} {b : Byte} (h : bs.length = 2 * n) : workOf m (bs ++ [b]) = workOf m bs := by
  simp [workOf, (bigEndianWords_even bs n h).2.1]

theorem workOf_pair {m n : Nat} {bs : List Byte} {h l : Byte} (hn : bs.length = 2 * n) (hm : n < m) :
    workOf m (bs ++ [h, l]) = (workOf m bs).set n (h ++ l) := by
  obtain ⟨h1, _, h3⟩ := bigEndianWords_even bs n hn
  simp only [workOf, h3, List.length_append, h1, List.length_singleton]
  obtain ⟨k, rfl⟩ := Nat.exists_eq_add_of_lt hm
  have e1 : n + k + 1 - n = k + 1 := by omega
  have e2 : n + k + 1 - (n + 1) = k := by omega
  rw [e1, e2, List.set_append_right _ _ (by omega), h1, Nat.sub_self, List.replicate_succ, List.set_cons_zero]
  simp

end Sys2Proof.Machine
end

