-- ==== Sys2Proof/Laws/Invariant.lean ====
section
/-! SUPPORT. The invariants taken apart: `State.inv` as the two cases of R54, and the data invariant of a running BURST. -/

namespace Sys2Proof.Machine

/-- The invariant, a running command and the state between commands apart. -/
theorem inv_iff (s : State) :
    s.inv = true ↔
      sizesOk s = true ∧ linkOk s = true ∧ s.fault = false ∧ s.tmoWhere.isSome = decide (s.err = .busTimeout) ∧
      ((s.busy = true ∧ ∃ c u, s.cur = some c ∧ currentMicro s = some u ∧ commandInRange s.params c = true ∧
          microOk u s = true ∧ (u.isWait = true ∨ s.spin = 0) ∧ s.err = .none ∧ dirOk s = true ∧ burstCounts s = true) ∨
        (s.busy = false ∧ restOk s = true ∧ s.cur = none ∧ s.mpc = 0 ∧ s.spin = 0)) := by
  unfold State.inv
  simp only [Bool.and_eq_true, decide_eq_true_eq, Bool.not_eq_true']
  cases hb : s.busy
  · simp
    grind
  · simp only [runningOk]
    cases hc : s.cur <;> cases hu : currentMicro s
    all_goals simp
    all_goals grind

/-- The ACK bits of `acksOk`, as a proposition. -/
theorem acksOk_iff (wc : Nat) (s : State) :
    acksOk wc s = true ↔
      ((receivedSinceAddr s.trace).map Prod.snd <+: burstAcks wc ∧
        (s.phase = .stopped ∨ s.ackEn = decide (s.bytes.toNat < 2 * wc - 1))) ∨
      (s.ackEn = false ∧ s.bytes.toNat ≤ 1 ∧
        ((receivedSinceAddr s.trace).map Prod.snd = [] ∨ (receivedSinceAddr s.trace).map Prod.snd = [false])) := by
  simp only [acksOk, Bool.or_eq_true, Bool.and_eq_true, decide_eq_true_eq, Bool.not_eq_true', List.isPrefixOf_iff_prefix,
    and_assoc]

/-- The preserved fields of every µop: the sequencer's own fields, TXBUF, PAYLOAD, the outcome and the parameters. -/
theorem runMicro_keeps (u : MicroOp) (s : State) :
    (runMicro u s).1.busy = s.busy ∧ (runMicro u s).1.cur = s.cur ∧ (runMicro u s).1.mpc = s.mpc ∧
    (runMicro u s).1.params = s.params ∧ (runMicro u s).1.txbuf = s.txbuf ∧ (runMicro u s).1.payload = s.payload ∧
    (runMicro u s).1.err = s.err ∧ (runMicro u s).1.tmoWhere = s.tmoWhere ∧ (runMicro u s).1.cmdOvr = s.cmdOvr ∧
    (runMicro u s).1.limit = s.limit ∧ (runMicro u s).1.inputs = s.inputs ∧ (runMicro u s).1.reads = s.reads ∧
    (u.isWait = false → (runMicro u s).1.spin = s.spin) := by
  cases u with
  | wait f =>
    simp only [runMicro, microWait, MicroOp.isWait]
    split
    · simp
    · split <;> simp
  | _ =>
    simp only [runMicro, microStart, microAddr, microClrAddr, microTx, microStop, microRxb, microSetAck, microRxHi, microRxLo,
      microRxHiNack, microRxAdd, microAckOn, microCommit, takeToRxdata, takeToAcc, storeWord, enqueue]
    (try split) <;> simp

/-- What no µop does to BUS: TRACE, DR and SHIFT stay, ADDR_ACKED and RX_NOT_EMPTY are only cleared (R89). -/
theorem runMicro_busSide (u : MicroOp) (s : State) :
    (runMicro u s).1.trace = s.trace ∧ (runMicro u s).1.shift = s.shift ∧ (runMicro u s).1.dr = s.dr ∧
    (runMicro u s).1.rxmode = s.rxmode ∧ (runMicro u s).1.rxmore = s.rxmore ∧
    ((runMicro u s).1.addrAcked = true → s.addrAcked = true) ∧ ((runMicro u s).1.rxNotEmpty = true → s.rxNotEmpty = true) := by
  cases u with
  | wait f =>
    simp only [runMicro, microWait]
    split
    · simp
    · split <;> simp
  | _ =>
    simp only [runMicro, microStart, microAddr, microClrAddr, microTx, microStop, microRxb, microSetAck, microRxHi, microRxLo,
      microRxHiNack, microRxAdd, microAckOn, microCommit, takeToRxdata, takeToAcc, storeWord, enqueue]
    (try split) <;> simp

end Sys2Proof.Machine
end

