-- ==== Sys2Proof/Laws/Host.lean ====
section
/-! SUPPORT. Everything a HOST step can do (20_memory.md R61 to R69), and everything taking a command can do
(40_engine_commands.md R120). -/

namespace Sys2Proof.Machine

open Host

/-- `exec` takes every command by `present`, and always answers a next state; only WRITE and BURST latch more than CUR. -/
theorem exec_eq_present (i : Instr) (s : State) :
    ∃ (rangeOk phaseOk : Bool) (latch : State → State),
      exec i s = .next (present i rangeOk phaseOk latch s) ∧
      ((latch = id ∧ (∀ n, i ≠ .write n) ∧ ∀ r wc, i ≠ .burst r wc) ∨ (∃ n, i = .write n ∧ latch = latchPayload n) ∨
        ∃ r wc, i = .burst r wc ∧ latch = openBurst) := by
  cases i with
  | begin d => exact ⟨_, _, _, rfl, .inl ⟨rfl, by simp, by simp⟩⟩
  | write n => exact ⟨_, _, _, rfl, .inr (.inl ⟨n, rfl, rfl⟩)⟩
  | readb => exact ⟨_, _, _, rfl, .inl ⟨rfl, by simp, by simp⟩⟩
  | setack e => exact ⟨_, _, _, rfl, .inl ⟨rfl, by simp, by simp⟩⟩
  | stop => exact ⟨_, _, _, rfl, .inl ⟨rfl, by simp, by simp⟩⟩
  | burst r wc => exact ⟨_, _, _, rfl, .inr (.inr ⟨r, wc, rfl, rfl⟩)⟩

/-- Everything a CMD write can do (R120, R121, R213). -/
theorem presentWord_cases (v : Word) (s : State) :
    (s.busy = true ∧ presentWord v s = .next (overrun s)) ∨
    (s.busy = false ∧ (∃ r, decode v = .error r) ∧ presentWord v s = .next (reject .illegalCmd (clearOutcome s))) ∨
    (s.busy = false ∧ ∃ i, decode v = .ok i ∧ presentWord v s = exec i s) := by
  unfold presentWord
  cases hb : s.busy
  · cases hd : decode v with
    | error r => exact .inr (.inl ⟨rfl, ⟨r, rfl⟩, by simp⟩)
    | ok i => exact .inr (.inr ⟨rfl, i, rfl, by simp⟩)
  · exact .inl ⟨rfl, by simp⟩

/-- A CMD write is a HOST step that presents its word. -/
theorem hostStep_cmdWrite (w : Word) (s : State) : hostStep (cmdWrite w) s = presentWord w s := by
  simp [hostStep, cmdWrite, Access.offset, Config.windowBytes, memWrite, accessSupported, writeReg]

/-- Everything a HOST step inside the window can do: mark a refusal, record a read, present a word, or store into TIMEOUT or
TXBUF, or nothing. -/
theorem hostStep_cases {a : Access} {s t : State} (h : hostStep a s = .next t) :
    a.offset < Config.windowBytes ∧
    (t = refuseAccess s ∨
     (∃ off, a = .read off 4 ∧ t = recordRead off (readReg s off) s) ∨
     (∃ v, a = .write 0 4 v ∧ presentWord v s = .next t) ∨
     (∃ v, a = .write 0x0C 4 v ∧ t = { s with limit := v.setWidth 16 }) ∨
     (∃ off v i, a = .write off 4 v ∧ txbufIndex s off = some i ∧ t = { s with txbuf := s.txbuf.set i (v.setWidth 8) }) ∨
     t = s) := by
  unfold hostStep at h
  split at h
  · cases h
  · next hw =>
    refine ⟨by omega, ?_⟩
    cases a with
    | read off n =>
      simp only [memRead] at h
      split at h
      · next ha =>
        simp only [accessSupported, Bool.and_eq_true, decide_eq_true_eq] at ha
        cases h
        exact .inr (.inl ⟨off, by rw [ha.1], rfl⟩)
      · cases h; exact .inl rfl
    | write off n v =>
      simp only [memWrite] at h
      split at h
      · next ha =>
        simp only [accessSupported, Bool.and_eq_true, decide_eq_true_eq] at ha
        rw [ha.1]
        unfold writeReg at h
        split at h
        · next h0 => subst h0; exact .inr (.inr (.inl ⟨v, rfl, h⟩))
        · split at h
          · next h0 hc => subst hc; cases h; exact .inr (.inr (.inr (.inl ⟨v, rfl, rfl⟩)))
          · split at h
            · next i hi => cases h; exact .inr (.inr (.inr (.inr (.inl ⟨off, v, i, rfl, hi, rfl⟩))))
            · cases h; exact .inr (.inr (.inr (.inr (.inr rfl))))
      · cases h; exact .inl rfl

end Sys2Proof.Machine
end

