-- ==== Sys2Proof/Laws/Step.lean ====
section
/-! SUPPORT. What one step can do, and how runs compose. -/

namespace Sys2Proof.Machine

open Host

/-- With no steps left to take from outside, ENGINE steps (log 2). -/
theorem step_of_nil {s : State} (h : s.inputs = []) : step s = engineStep s := by simp [step, h]

/-- Otherwise the next step is the first one scheduled. -/
theorem step_of_cons {s : State} {e : Event} {es : List Event} (h : s.inputs = e :: es) :
    step s = applyEvent e (s.withInputs es) := by
  simp [step, h]

/-- Everything a step can be. -/
theorem step_cases {s t : State} (h : step s = .next t) :
    (s.inputs = [] ∧ engineStep s = .next t) ∨
    ∃ e es, s.inputs = e :: es ∧ applyEvent e (s.withInputs es) = .next t := by
  cases hi : s.inputs with
  | nil => exact .inl ⟨rfl, step_of_nil hi ▸ h⟩
  | cons e es => exact .inr ⟨e, es, rfl, step_of_cons hi ▸ h⟩

@[simp] theorem run_zero (s : State) : run 0 s = .next s := rfl

/-- The host's run of any machine, one step unfolded. -/
theorem core_run_succ (M : Host.Core) (k : Nat) (s : M.State) :
    (∀ t, M.step s = .next t → M.run (k + 1) s = M.run k t) ∧
    (∀ r, M.step s = .fault r → M.run (k + 1) s = .fault r) ∧
    (∀ r, M.step s = .refused r → M.run (k + 1) s = .refused r) := by
  refine ⟨fun _ h => ?_, fun _ h => ?_, fun _ h => ?_⟩ <;> simp [Host.Core.run, h]

theorem run_succ_of_next {k : Nat} {s t : State} (h : step s = .next t) : run (k + 1) s = run k t :=
  (core_run_succ core k s).1 t h

theorem run_succ_of_fault {k : Nat} {s : State} {r : Fault} (h : step s = .fault r) : run (k + 1) s = .fault r :=
  (core_run_succ core k s).2.1 r h

theorem run_succ_of_refused {k : Nat} {s : State} {r : Refusal} (h : step s = .refused r) : run (k + 1) s = .refused r :=
  (core_run_succ core k s).2.2 r h

/-- A run that ends in a next state took a first step. -/
theorem run_succ_cases {k : Nat} {s t : State} (h : run (k + 1) s = .next t) : ∃ u, step s = .next u ∧ run k u = .next t := by
  cases hs : step s with
  | next u => exact ⟨u, rfl, run_succ_of_next hs ▸ h⟩
  | fault r => rw [run_succ_of_fault hs] at h; cases h
  | refused r => rw [run_succ_of_refused hs] at h; cases h

/-- A run continues where its first part ends. -/
theorem run_add {j k : Nat} {s t : State} (h : run j s = .next t) : run (j + k) s = run k t := by
  induction j generalizing s with
  | zero => cases h; rw [Nat.zero_add]
  | succ j ih =>
    obtain ⟨u, hs, hu⟩ := run_succ_cases h
    rw [Nat.succ_add, run_succ_of_next hs]
    exact ih hu

/-- A property of the first state that every step keeps holds in every state a run reaches. -/
theorem run_induction (P : State → Prop) (hstep : ∀ s t, P s → step s = .next t → P t) {k : Nat} {s t : State}
    (h : run k s = .next t) (hs : P s) : P t := by
  induction k generalizing s with
  | zero => cases h; exact hs
  | succ k ih =>
    obtain ⟨u, he, hu⟩ := run_succ_cases h
    exact ih hu (hstep s u hs he)

end Sys2Proof.Machine
end

