-- ==== Sys2Proof/Machine/HostProgram.lean ====
section
/-! DEFINITION. The host program syntax and pseudo-instructions of 30_encoding.md R114 and R115, as the accesses they make.
Which HOST program runs is the environment's (00_scope.md R5(c), R13); nothing in the step depends on this file. -/

namespace Sys2Proof.Machine

/-- The lines of a host program that touch the block (R114). -/
inductive HostLine where
  | wr (off : Nat) (v : Word)
  | rd (off : Nat)
  | cmd (i : Instr)
  | poll
deriving DecidableEq, Repr

/-- The accesses of a line (R114). `poll` reads STATUS until BUSY = 0; how often is the run's, so it is an argument. -/
def HostLine.accesses (polls : Nat) : HostLine → List Access
  | .wr off v => [.write off 4 v]
  | .rd off => [.read off 4]
  | .cmd i => [cmdWrite (encode i)]
  | .poll => List.replicate polls (.read 0x04 4)

/-- The pseudo-instructions (R115): host software, with no encoding of their own. -/
inductive PseudoInstr where
  | writereg (r v : Byte)
  | setptr (r : Byte)
  | probe
  | read1
  | burstwait (reg : Byte) (wc : Nat)
deriving DecidableEq, Repr

/-- Their expansions (R115). -/
def PseudoInstr.expand : PseudoInstr → List HostLine
  | .writereg r v => [.wr 0x10 (r.setWidth 32), .wr 0x14 (v.setWidth 32), .cmd (.write 2), .poll]
  | .setptr r => [.wr 0x10 (r.setWidth 32), .cmd (.write 1), .poll]
  | .probe => [.cmd (.begin .write), .poll, .cmd .stop, .poll]
  | .read1 =>
    [.cmd (.begin .read), .poll, .cmd (.setack false), .poll, .cmd .readb, .poll, .rd 0x08, .cmd .stop, .poll,
     .cmd (.setack true), .poll]
  | .burstwait reg wc => [.cmd (.burst reg wc), .poll]

end Sys2Proof.Machine
end

