-- ==== Sys2Proof/Certificates/Slice0/Obligations.lean ====
section
/-! DEFINITION. The statements for the provers, by subject: encodings, taking a command, running each command, the µops and the
waits, BUS, the register window, the invariants, the burst's data, and progress. -/

open Sys2Proof Sys2Proof.Machine Host

/-! ### Encodings (30_encoding.md) -/

/-- R116: the worked encodings, and R105, R107: the one word of READB and of STOP. -/
def Obligations.DecodeWorkedEncodings : Prop :=
  decode 0x6000073B = .ok (.burst 0x3B 7) ∧ decode 0x20000002 = .ok (.write 2) ∧
  decode 0x10000001 = .ok (.begin .read) ∧ decode 0x40000000 = .ok (.setack false) ∧
  decode 0x30000000 = .ok .readb ∧ decode 0x50000000 = .ok .stop ∧
  decode 0x6000003B = .ok (.burst 0x3B 0) ∧
  (∀ s : State, s.busy = false →
    exec (.burst 0x3B 0) s = .next { s with err := .badLength, cmdOvr := false, tmoWhere := none }) ∧
  decode 0x10000002 = .error .operandBits ∧ decode 0x70000000 = .error .reservedOp ∧
  decode 0x30010000 = .error .reservedBits

/-- R113: the word of each command of the assembler syntax. -/
def Obligations.EncodeGivesSyntaxTableWord : Prop :=
  encode (.begin .write) = 0x10000000 ∧ encode (.begin .read) = 0x10000001 ∧
  (∀ n, n < 256 → encode (.write n) = 0x20000000 ||| BitVec.ofNat 32 n) ∧
  encode .readb = 0x30000000 ∧
  encode (.setack false) = 0x40000000 ∧ encode (.setack true) = 0x40000001 ∧
  encode .stop = 0x50000000 ∧
  (∀ (reg : Byte) (wc : Nat), wc < 256 →
    encode (.burst reg wc) = 0x60000000 ||| (BitVec.ofNat 32 wc <<< 8) ||| reg.setWidth 32)

/-- Decoding the word of a well-formed command gives it back, with every operand (R103 to R110). -/
def Obligations.DecodeOfEncodeIsIdentity : Prop :=
  ∀ i : Instr, i.wellFormed = true → decode (encode i) = .ok i

/-- A word that decodes is the word of its command, and the command is well-formed: no bit of a word is ignored (R112). -/
def Obligations.EncodeOfDecodeIsIdentity : Prop :=
  ∀ (w : Word) (i : Instr), decode w = .ok i → i.wellFormed = true ∧ encode i = w

/-- R110: a word decodes to the command of exactly one row of the opcode table, or belongs to no row and is illegal. -/
def Obligations.WordDecodesToExactlyOneRow : Prop :=
  ∀ w : Word,
    (∀ i, decode w = .ok i → (opcodeRows.filter (fun r => r.matchesWord w)).map OpcodeRow.mnemonic = [i.mnemonic]) ∧
    (∀ r, decode w = .error r → opcodeRows.filter (fun r => r.matchesWord w) = [])

/-- R111: which words are illegal, and what taking one does; and R201: nothing but ERR and the fields every taken CMD write
clears changes. -/
def Obligations.IllegalWordsAndTheirOutcome : Prop :=
  ∀ w : Word,
    ((∃ r, decode w = .error r) ↔
      (Word.op w = 0 ∨ 7 ≤ (Word.op w).toNat) ∨ Word.rsv w ≠ 0 ∨
      ((Word.op w = 1 ∨ Word.op w = 4) ∧ w.extractLsb' 1 15 ≠ 0) ∨
      (Word.op w = 2 ∧ w.extractLsb' 8 8 ≠ 0) ∨
      ((Word.op w = 3 ∨ Word.op w = 5) ∧ w.extractLsb' 0 16 ≠ 0)) ∧
    (∀ (r : IllegalWord) (s : State), decode w = .error r → s.busy = false →
      hostStep (cmdWrite w) s = .next { s with err := .illegalCmd, cmdOvr := false, tmoWhere := none }) ∧
    (∃ r, decode 0 = .error r)

/-! ### Taking a command (40_engine_commands.md R120 to R123) -/

/-- When the next step is HOST's CMD write of a word that decodes, with BUSY = 0, the step is `exec` of the decoded command, in
the state whose remaining steps are those after it (R120; the interleaving is the model's, log 1). -/
def Obligations.StepRunsThePresentedCommand : Prop :=
  ∀ (s : State) (w : Word) (i : Instr) (es : List Event),
    s.busy = false → decode w = .ok i → s.inputs = .host (cmdWrite w) :: es → step s = exec i (s.withInputs es)

/-- R121: a CMD write with BUSY = 1 sets CMD_OVR and does nothing else, whatever the word; for a word that decodes, this is
what `exec` of its command does too. -/
def Obligations.CommandWhileBusyIsDropped : Prop :=
  ∀ s : State, s.busy = true →
    (∀ w, hostStep (cmdWrite w) s = .next { s with cmdOvr := true }) ∧
    (∀ i, exec i s = .next { s with cmdOvr := true })

/-- R122: the range check. -/
def Sys2Proof.Machine.rangeFails (p : Params) (c : Instr) : Bool :=
  match c with
  | .write n => decide (n > p.txbufDepth)
  | .burst _ wc => decide (wc < 2) || decide (wc > p.maxWords)
  | _ => false

/-- R123: the phase check. -/
def Sys2Proof.Machine.phaseFails (s : State) (c : Instr) : Bool :=
  match c with
  | .begin _ => !(s.phase == .idle || s.phase == .stopped)
  | .write _ => !(s.phase == .idle || s.phase == .stopped)
  | .burst _ _ => !(s.phase == .idle || s.phase == .stopped)
  | .readb => !(s.phase == .transferring && s.dir == .read)
  | .stop => !(s.phase == .transferring)
  | .setack _ => false

/-- R122, R123, R202, R203, R213: one CMD write reports the first check that applies: the overrun, ILLEGAL_CMD, BAD_LENGTH,
SEQUENCE; and it records that and nothing else. -/
def Obligations.ChecksOfACommandInOrder : Prop :=
  ∀ (s : State) (w : Word),
    (s.busy = true → hostStep (cmdWrite w) s = .next { s with cmdOvr := true }) ∧
    (s.busy = false → ∀ r, decode w = .error r →
      hostStep (cmdWrite w) s = .next { s with err := .illegalCmd, cmdOvr := false, tmoWhere := none }) ∧
    (s.busy = false → ∀ c, decode w = .ok c → rangeFails s.params c = true →
      hostStep (cmdWrite w) s = .next { s with err := .badLength, cmdOvr := false, tmoWhere := none }) ∧
    (s.busy = false → ∀ c, decode w = .ok c → rangeFails s.params c = false → phaseFails s c = true →
      hostStep (cmdWrite w) s = .next { s with err := .sequence, cmdOvr := false, tmoWhere := none }) ∧
    (s.busy = false → ∀ c, decode w = .ok c → rangeFails s.params c = false → phaseFails s c = false →
      ∃ t, hostStep (cmdWrite w) s = .next t ∧ t.busy = true ∧ t.cur = some c ∧ t.err = .none)

/-- The state an accepted command leaves (R120): what every acceptance writes, and what WRITE and BURST write besides. -/
def Sys2Proof.Machine.acceptedState (c : Instr) (s : State) : State :=
  { s with
    err := .none
    cmdOvr := false
    tmoWhere := none
    cur := some c
    mpc := 0
    spin := 0
    busy := true
    payload := match c with
      | .write n => s.txbuf.take n ++ s.payload.drop n
      | _ => s.payload
    resultValid := match c with
      | .burst _ _ => false
      | _ => s.resultValid
    bytes := match c with
      | .burst _ _ => 0
      | _ => s.bytes
    widx := match c with
      | .burst _ _ => 0
      | _ => s.widx
    acc := match c with
      | .burst _ _ => 0
      | _ => s.acc
    work := match c with
      | .burst _ _ => List.replicate s.params.maxWords 0
      | _ => s.work }

/-- Acceptance (R120): for every command that is in range and in phase, taken with BUSY = 0, the whole next state; so nothing
else changes, and no request is made. -/
def Obligations.AcceptanceLatchesTheCommand : Prop :=
  ∀ (s : State) (c : Instr), s.busy = false → rangeFails s.params c = false → phaseFails s c = false →
    exec c s = .next (acceptedState c s)

/-- The frame of taking a command: whatever `exec` answers, it is a next state in which the bus-primitive interface, TRACE,
PHASE, DIR, ACK_EN, RXDATA, TIMEOUT, TXBUF, RESULT, DR and the marks are as before; RESULT_VALID, BYTES, WIDX, ACC and WORK
change for a BURST only, and PAYLOAD for a WRITE only. -/
def Obligations.TakingACommandFrame : Prop :=
  ∀ (s : State) (c : Instr), ∃ t, exec c s = .next t ∧
    t = { s with
          busy := t.busy
          err := t.err
          cmdOvr := t.cmdOvr
          tmoWhere := t.tmoWhere
          cur := t.cur
          mpc := t.mpc
          spin := t.spin
          payload := t.payload
          resultValid := t.resultValid
          bytes := t.bytes
          widx := t.widx
          acc := t.acc
          work := t.work } ∧
    ((∀ reg wc, c ≠ .burst reg wc) →
      t.resultValid = s.resultValid ∧ t.bytes = s.bytes ∧ t.widx = s.widx ∧ t.acc = s.acc ∧ t.work = s.work) ∧
    ((∀ n, c ≠ .write n) → t.payload = s.payload)

/-! ### Running each command to its end

Each statement takes a state in which the command is accepted and whose next steps are a prompt schedule
(95_test_vectors.md), and gives the whole state after acceptance and the whole state at the end. -/

/-- R140, R141: BEGIN d, with the address ACKed; a Stop still pending is performed first. -/
def Obligations.BeginCompletes : Prop :=
  ∀ (s : State) (d : Dir) (rest : List Event),
    s.busy = false → (s.phase = .idle ∨ s.phase = .stopped) → (s.preq = [] ∨ s.preq = [.stop]) →
    s.inputs = promptBegin s.preq ++ rest →
    exec (.begin d) s = .next (acceptedState (.begin d) s) ∧
    run (promptBegin s.preq).length (acceptedState (.begin d) s) =
      .next { afterPending s with
        busy := false
        phase := .transferring
        dir := d
        err := .none
        cmdOvr := false
        tmoWhere := none
        cur := none
        mpc := 0
        spin := 0
        startSent := false
        addrAcked := false
        rxmode := d.bit || (afterPending s).rxmode
        rxmore := d.bit || (afterPending s).rxmore
        trace := (afterPending s).trace ++ [.start, .addr (addressByte d) true]
        inputs := rest }

/-- R145, R146, R245: WRITE n sends TXBUF[0..n-1] in one write transaction, and ends with its Stop still in PREQ. -/
def Obligations.WriteCompletes : Prop :=
  ∀ (s : State) (n : Nat) (rest : List Event),
    s.busy = false → (s.phase = .idle ∨ s.phase = .stopped) → (s.preq = [] ∨ s.preq = [.stop]) →
    s.params.legal = true → n ≤ s.params.txbufDepth → s.txbuf.length = s.params.txbufDepth →
    s.inputs = promptWrite s.preq n ++ rest →
    exec (.write n) s = .next (acceptedState (.write n) s) ∧
    run (promptWrite s.preq n).length (acceptedState (.write n) s) =
      .next { afterPending s with
        busy := false
        phase := .stopped
        dir := .write
        err := .none
        cmdOvr := false
        tmoWhere := none
        cur := none
        mpc := 0
        spin := 0
        payload := s.txbuf.take n ++ s.payload.drop n
        startSent := false
        addrAcked := false
        preq := [.stop]
        trace := (afterPending s).trace ++ [.start, .addr (addressByte .write) true] ++ (s.txbuf.take n).map .tx
        inputs := rest }

/-- R150: READB takes the byte in DR; where none is there and BUS can deliver one, it takes the byte BUS delivers. -/
def Obligations.ReadbCompletes : Prop :=
  ∀ (s : State) (rest : List Event), s.busy = false → s.phase = .transferring → s.dir = .read →
    (s.rxNotEmpty = true → s.inputs = [.engine, .engine] ++ rest →
      exec .readb s = .next (acceptedState .readb s) ∧
      run 2 (acceptedState .readb s) =
        .next { s with
          err := .none
          cmdOvr := false
          tmoWhere := none
          cur := none
          mpc := 0
          spin := 0
          rxdata := s.dr
          rxNotEmpty := false
          inputs := rest }) ∧
    (∀ v : Byte, s.rxNotEmpty = false → s.shift = none → s.preq = [] → s.rxmode = true → s.rxmore = true →
      s.addrAcked = false → s.inputs = promptByte s.params.rxPrefetch v ++ rest →
      exec .readb s = .next (acceptedState .readb s) ∧
      run (promptByte s.params.rxPrefetch v).length (acceptedState .readb s) =
        .next { s with
          err := .none
          cmdOvr := false
          tmoWhere := none
          cur := none
          mpc := 0
          spin := 0
          rxdata := v
          dr := v
          rxNotEmpty := false
          rxmore := s.ackEn
          trace := s.trace ++ [.rx v s.ackEn]
          inputs := rest })

/-- R155: SETACK e, in every phase; one ENGINE step. -/
def Obligations.SetackCompletes : Prop :=
  ∀ (s : State) (e : Bool) (rest : List Event), s.busy = false → s.inputs = .engine :: rest →
    exec (.setack e) s = .next (acceptedState (.setack e) s) ∧
    run 1 (acceptedState (.setack e) s) =
      .next { s with
        ackEn := e
        err := .none
        cmdOvr := false
        tmoWhere := none
        cur := none
        mpc := 0
        spin := 0
        inputs := rest }

/-- R160: STOP requests the stop condition in one ENGINE step and ends; when BUS performs it, the bus-side flags are cleared and
a byte still in DR is discarded (R82). -/
def Obligations.StopCompletes : Prop :=
  ∀ (s : State) (rest : List Event), s.busy = false → s.phase = .transferring → s.preq = [] →
    s.inputs = [.engine, .bus .bStop] ++ rest →
    exec .stop s = .next (acceptedState .stop s) ∧
    run 1 (acceptedState .stop s) =
      .next { s with
        phase := .stopped
        err := .none
        cmdOvr := false
        tmoWhere := none
        cur := none
        mpc := 0
        spin := 0
        preq := [.stop]
        inputs := .bus .bStop :: rest } ∧
    run 2 (acceptedState .stop s) =
      .next { s with
        phase := .stopped
        err := .none
        cmdOvr := false
        tmoWhere := none
        cur := none
        mpc := 0
        spin := 0
        startSent := false
        addrAcked := false
        rxNotEmpty := false
        rxmode := false
        rxmore := false
        shift := none
        trace := s.trace ++ [.stop]
        inputs := rest }

/-- R170, R182 to R184: BURST r, wc receiving `bs`, with ACK_EN = 1 at acceptance: one write transaction with one data byte, one
read transaction whose bytes are all ACKed but the last, RESULT the big-endian words of `bs` and 0 above, BYTES = 2·wc,
ACK_EN = 1; TXBUF and RXDATA as they were. -/
def Obligations.BurstCompletes : Prop :=
  ∀ (s : State) (reg : Byte) (wc : Nat) (bs : List Byte) (rest : List Event),
    s.busy = false → (s.phase = .idle ∨ s.phase = .stopped) → (s.preq = [] ∨ s.preq = [.stop]) →
    s.params.legal = true → 2 ≤ wc → wc ≤ s.params.maxWords → s.ackEn = true → bs.length = 2 * wc →
    s.inputs = promptBurst s.preq s.params.rxPrefetch bs ++ rest →
    exec (.burst reg wc) s = .next (acceptedState (.burst reg wc) s) ∧
    run (promptBurst s.preq s.params.rxPrefetch bs).length (acceptedState (.burst reg wc) s) =
      .next { afterPending s with
        busy := false
        phase := .stopped
        dir := .read
        ackEn := true
        resultValid := true
        err := .none
        cmdOvr := false
        tmoWhere := none
        bytes := BitVec.ofNat 8 (2 * wc)
        result := workOf s.params.maxWords bs
        cur := none
        mpc := 0
        spin := 0
        work := workOf s.params.maxWords bs
        acc := (bigEndianWords bs).getLastD 0
        widx := BitVec.ofNat 8 wc
        startSent := false
        addrAcked := false
        rxNotEmpty := false
        preq := [.stop]
        dr := bs.getLastD 0
        rxmode := true
        rxmore := false
        shift := none
        trace := (afterPending s).trace
          ++ ([.start, .addr (addressByte .write) true, .tx reg, .stop, .start, .addr (addressByte .read) true] : List BusEvent)
          ++ (bs.zip (burstAcks wc)).map (fun b => .rx b.1 b.2)
        inputs := rest }

/-! ### The micro-sequencer (40_engine_commands.md R124 to R135, 41_burst_read.md R172 to R181) -/

/-- R124, R172, R255: the lengths of the µprograms and their numbers of waits, and that none ends in a WAIT; and that step 1 of
a BURST is the µprogram of WRITE 1 with the start register as its payload byte (R173). The waits of a BURST are those of R172's
list, 6 + 2·wc, where the spec's prose and table count 7 + 2·wc (the model's choice, log 24). -/
def Obligations.MicroprogramShapes : Prop :=
  (∀ d ps, (uprog (.begin d) ps).length = 5 ∧ (uprog (.begin d) ps).countP MicroOp.isWait = 2) ∧
  (∀ n ps, (uprog (.write n) ps).length = 6 + 3 * n ∧ (uprog (.write n) ps).countP MicroOp.isWait = 2 + 2 * n) ∧
  (∀ ps, (uprog .readb ps).length = 2 ∧ (uprog .readb ps).countP MicroOp.isWait = 1) ∧
  (∀ e ps, (uprog (.setack e) ps).length = 1 ∧ (uprog (.setack e) ps).countP MicroOp.isWait = 0) ∧
  (∀ ps, (uprog .stop ps).length = 1 ∧ (uprog .stop ps).countP MicroOp.isWait = 0) ∧
  (∀ reg wc ps, 1 ≤ wc →
    (uprog (.burst reg wc) ps).length = 17 + 4 * wc ∧ (uprog (.burst reg wc) ps).countP MicroOp.isWait = 6 + 2 * wc) ∧
  (∀ c ps u, (uprog c ps).getLast? = some u → u.isWait = false) ∧
  (∀ reg wc ps, (uprog (.burst reg wc) ps).take 9 = uprog (.write 1) (reg :: ps))

/-- R125, R126: an ENGINE step at a µop other than a WAIT performs it and moves MPC by 1, or, at the last µop, ends the command
in the same step. With BUSY = 0 there is no ENGINE step, and an ENGINE event passes with the state unchanged (the model's
choice, log 1). -/
def Obligations.EngineStepAdvances : Prop :=
  ∀ s : State,
    (s.busy = false → engineStep s = .next s) ∧
    (∀ u, s.busy = true → currentMicro s = some u → u.isWait = false →
      (s.mpc.toNat + 1 < (runningProg s).length →
        engineStep s = .next { (runMicro u s).1 with mpc := s.mpc + 1 }) ∧
      (s.mpc.toNat + 1 = (runningProg s).length →
        engineStep s = .next { (runMicro u s).1 with busy := false, cur := none, mpc := 0 }))

/-- R128 to R132, with R129's address byte (its polarity: log 10) and room in PREQ: what the µops that make requests, and
CLRADDR, do to the state, each returning Advance; all else is unchanged. -/
def Obligations.RequestMicroOpEffects : Prop :=
  ∀ s : State, s.preq.length < 2 →
    runMicro .start s = ({ s with preq := s.preq ++ [.start], phase := .started }, .advance) ∧
    (∀ d, runMicro (.addr d) s =
      ({ s with
        preq := s.preq ++ [.addr ((Config.periphAddr.setWidth 8 <<< 1) ||| (BitVec.ofBool d.bit).setWidth 8)]
        startSent := false
        dir := d
        phase := .addressSent }, .advance)) ∧
    runMicro .clrAddr s = ({ s with addrAcked := false, phase := .transferring }, .advance) ∧
    (∀ b, runMicro (.tx b) s = ({ s with preq := s.preq ++ [.tx b] }, .advance)) ∧
    runMicro .stop s = ({ s with preq := s.preq ++ [.stop], phase := .stopped }, .advance)

/-- R135, R212: a request into a full PREQ sets FAULT and is lost; what else the µop does it does. -/
def Obligations.RequestIntoFullQueueSetsFault : Prop :=
  ∀ s : State, s.preq.length = 2 →
    runMicro .start s = ({ s with fault := true, phase := .started }, .advance) ∧
    (∀ b, runMicro (.tx b) s = ({ s with fault := true }, .advance)) ∧
    runMicro .stop s = ({ s with fault := true, phase := .stopped }, .advance) ∧
    (∀ d, runMicro (.addr d) s =
      ({ s with fault := true, startSent := false, dir := d, phase := .addressSent }, .advance))

/-- R133, R134, R175 to R178, R180, R181: what the µops that take a byte, and those that set ACK_EN or publish, do to the state,
each returning Advance; all else is unchanged. -/
def Obligations.ReceiveMicroOpEffects : Prop :=
  ∀ s : State,
    runMicro .rxb s = ({ s with rxdata := s.dr, rxNotEmpty := false }, .advance) ∧
    (∀ e, runMicro (.setAck e) s = ({ s with ackEn := e }, .advance)) ∧
    runMicro .rxHi s =
      ({ s with acc := s.dr.setWidth 16 <<< 8, rxNotEmpty := false, bytes := s.bytes + 1 }, .advance) ∧
    runMicro .rxLo s =
      ({ s with
        acc := s.acc ||| s.dr.setWidth 16
        work := s.work.set s.widx.toNat (s.acc ||| s.dr.setWidth 16)
        widx := s.widx + 1
        rxNotEmpty := false
        bytes := s.bytes + 1 }, .advance) ∧
    runMicro .rxHiNack s =
      ({ s with acc := s.dr.setWidth 16 <<< 8, rxNotEmpty := false, bytes := s.bytes + 1, ackEn := false }, .advance) ∧
    runMicro .rxAdd s =
      ({ s with
        acc := s.acc + s.dr.setWidth 16
        work := s.work.set s.widx.toNat (s.acc + s.dr.setWidth 16)
        widx := s.widx + 1
        rxNotEmpty := false
        bytes := s.bytes + 1 }, .advance) ∧
    runMicro .ackOn s = ({ s with ackEn := true }, .advance) ∧
    runMicro .commit s = ({ s with result := s.work, resultValid := true }, .advance)

/-- R186: the final-word path gives the value of big-endian assembly, and so does the standard path (R71); with h = 0x12 and
l = 0xC8 that is 0x12C8, where a sign-extended l would give 0x11C8. -/
def Obligations.LastWordPathIsBigEndian : Prop :=
  (∀ h l : Byte, addLow (highByte h) l = h ++ l ∧ orLow (highByte h) l = h ++ l) ∧
  addLow (highByte 0x12) 0xC8 = 0x12C8 ∧ highByte 0x12 + (0xC8 : Byte).signExtend 16 = 0x11C8

/-! ### Waits, timeouts and the abort (60_exceptions.md) -/

/-- R127: one ENGINE step at WAIT(f). A set flag resets SPIN and advances; a failed poll counts, saturating at 0xFFFF, and stays,
unless LIMIT ≠ 0 and SPIN has reached it, which aborts; and a failed poll that does not abort changes only SPIN. -/
def Obligations.PollOfAWait : Prop :=
  ∀ (s : State) (f : WaitFlag), s.busy = true → currentMicro s = some (.wait f) →
    s.mpc.toNat + 1 < (runningProg s).length →
    (flagValue f s = true → engineStep s = .next { s with spin := 0, mpc := s.mpc + 1 }) ∧
    (flagValue f s = false → ∀ n : Half, n.toNat = min (s.spin.toNat + 1) 0xFFFF →
      (s.limit = 0 ∨ n.toNat < s.limit.toNat → engineStep s = .next { s with spin := n }) ∧
      (s.limit ≠ 0 → s.limit.toNat ≤ n.toNat → engineStep s = .next (abort f { s with spin := n }))) ∧
    (flagValue .txEmpty s = true ↔ ∀ b, Request.tx b ∉ s.preq)

/-- R206: with LIMIT = n, a wait whose flag stays 0 times out at its n-th failed poll and at no earlier one, with ERR and
TMO_WHERE recorded (R204). The run is that of an empty schedule, in which every step is an ENGINE step (the model's choice,
log 2). -/
def Obligations.WaitTimesOutAtItsLimit : Prop :=
  ∀ (s : State) (f : WaitFlag), s.busy = true → currentMicro s = some (.wait f) → flagValue f s = false →
    s.spin = 0 → s.limit ≠ 0 → s.inputs = [] →
    (∀ k, k < s.limit.toNat → run k s = .next { s with spin := BitVec.ofNat 16 k }) ∧
    (∃ t, run s.limit.toNat s = .next t ∧ t.busy = false ∧ t.err = .busTimeout ∧ t.tmoWhere = some f ∧
      t.phase = .stopped)

/-- R36, R248: a write to TIMEOUT reaches the wait in progress at its next poll: a limit at or below the failed polls made aborts
there, a higher one or 0 does not. -/
def Obligations.TimeoutWriteReachesTheWaitInProgress : Prop :=
  ∀ (s : State) (f : WaitFlag) (v : Word) (n : Half) (rest : List Event), s.busy = true →
    currentMicro s = some (.wait f) → flagValue f s = false → n.toNat = min (s.spin.toNat + 1) 0xFFFF →
    s.inputs = [.host (.write 0x0C 4 v), .engine] ++ rest →
    (v.extractLsb' 0 16 ≠ 0 → (v.extractLsb' 0 16).toNat ≤ n.toNat →
      ∃ t, run 2 s = .next t ∧ t.busy = false ∧ t.err = .busTimeout ∧ t.tmoWhere = some f ∧ t.limit = v.extractLsb' 0 16) ∧
    (v.extractLsb' 0 16 = 0 ∨ n.toNat < (v.extractLsb' 0 16).toNat →
      run 2 s = .next { s with limit := v.extractLsb' 0 16, spin := n, inputs := rest })

/-- R210: with LIMIT = 0, a wait whose flag BUS never sets is polled forever. One step: whatever HOST, ENGINE or BUS does, but
for RESET and a write to TIMEOUT, if the flag is still 0 after it then BUSY is 1, LIMIT 0 and the same WAIT is next, and
STATUS.WAIT names it; and an ENGINE step changes only SPIN. Every run: in an infinite run without RESET (log 21) and without
a write to TIMEOUT, in which the flag stays 0, BUSY stays 1 and STATUS.WAIT names the flag. -/
def Obligations.UnboundedWaitHangs : Prop :=
  (∀ (e : Event) (s t : State) (f : WaitFlag), s.busy = true → currentMicro s = some (.wait f) →
    flagValue f s = false → s.limit = 0 → e ≠ .reset → (∀ v, e ≠ .host (.write 0x0C 4 v)) →
    applyEvent e s = .next t → flagValue f t = false →
    t.busy = true ∧ t.limit = 0 ∧ currentMicro t = some (.wait f) ∧ t.cur = s.cur ∧ t.mpc = s.mpc ∧
      waitField t = f.code ∧ (e = .engine → t = { s with spin := t.spin })) ∧
  (∀ (sched : Nat → Event) (states : Nat → State) (f : WaitFlag), IsRun sched states →
    (∀ k v, sched k ≠ .host (.write 0x0C 4 v)) → (∀ k, flagValue f (states k) = false) →
    (states 0).busy = true → currentMicro (states 0) = some (.wait f) → (states 0).limit = 0 →
    ∀ k, (states k).busy = true ∧ waitField (states k) = f.code)

/-- R207, R208: the ENGINE step whose poll times out: non-Stop requests are flushed in order; a Stop is requested unless the
command's Start was still queued; an aborted BURST sets ACK_EN, any other command leaves it; and nothing else changes but
what the procedure writes. -/
def Obligations.TimeoutAbortsTheCommand : Prop :=
  ∀ (s : State) (f : WaitFlag) (c : Instr), s.busy = true → s.cur = some c → currentMicro s = some (.wait f) →
    flagValue f s = false → s.limit ≠ 0 → s.limit.toNat ≤ min (s.spin.toNat + 1) 0xFFFF →
    (s.preq.filter (fun q => decide (q = .stop))).length < 2 →
    engineStep s =
      .next { s with
        preq := s.preq.filter (fun q => decide (q = .stop)) ++ (if Request.start ∈ s.preq then [] else [.stop])
        phase := .stopped
        ackEn := match c with
          | .burst _ _ => true
          | _ => s.ackEn
        err := .busTimeout
        tmoWhere := some f
        busy := false
        cur := none
        mpc := 0
        spin := 0 }

/-- R209, R215, R217: from a state that meets the invariant, a step that ends a command with BUS_TIMEOUT leaves PREQ empty or
`[Stop]`, RESULT, RXDATA and TRACE as they were, RESULT_VALID 0 if it was a BURST, and a state in which BEGIN, WRITE and
BURST are in phase. -/
def Obligations.AbortLeavesARecoverableState : Prop :=
  ∀ s t : State, s.inv = true → engineStep s = .next t → s.busy = true → t.err = .busTimeout →
    (t.preq = [] ∨ t.preq = [.stop]) ∧ t.result = s.result ∧ t.rxdata = s.rxdata ∧ t.trace = s.trace ∧
    t.resultValid = s.resultValid ∧ (∀ reg wc, s.cur = some (.burst reg wc) → t.resultValid = false ∧ t.ackEn = true) ∧
    t.busy = false ∧ t.tmoWhere.isSome = true ∧
    (∀ d, phaseFails t (.begin d) = false) ∧ (∀ n, phaseFails t (.write n) = false) ∧
    (∀ reg wc, phaseFails t (.burst reg wc) = false) ∧ phaseFails t .stop = true

/-- R214: at WAIT(START_SENT) with LIMIT = 1 and the Start queued, the two orders of the BUS step and the poll: BUS first, and
the poll succeeds; ENGINE first, and the command is aborted, its Start flushed, and BUS has no step to take: the event that names it passes with
the state unchanged (the model's choice, log 1). -/
def Obligations.TimeoutAndFlagInBothOrders : Prop :=
  ∀ s : State, s.busy = true → currentMicro s = some (.wait .startSent) → s.mpc.toNat + 1 < (runningProg s).length →
    s.startSent = false → s.preq = [.start] → s.limit = 1 → s.spin = 0 →
    (∀ rest, s.inputs = [.bus .bStart, .engine] ++ rest →
      run 2 s = .next { s with
        startSent := true
        preq := []
        trace := s.trace ++ [.start]
        mpc := s.mpc + 1
        inputs := rest }) ∧
    (∀ rest, s.inputs = [.engine, .bus .bStart] ++ rest →
      ∃ t, run 2 s = .next t ∧ t.busy = false ∧ t.err = .busTimeout ∧ t.tmoWhere = some .startSent ∧
        t.preq = [] ∧ t.trace = s.trace ∧ t.startSent = false)

/-! ### BUS (20_memory.md R78 to R87) -/

/-- R79 to R82: the BUS steps that perform a request, each enabled by the head of PREQ; with any other head, or an empty PREQ,
the event that names the step passes with the state unchanged (the model's choice, log 1). -/
def Obligations.BusPerformsTheHeadRequest : Prop :=
  ∀ s : State,
    (∀ q, s.preq = .start :: q →
      busStep .bStart s = { s with preq := q, startSent := true, trace := s.trace ++ [.start] }) ∧
    (∀ b q, s.preq = .addr b :: q →
      busStep (.bAddr false) s = { s with preq := q, trace := s.trace ++ [.addr b false] } ∧
      (b.getLsbD 0 = false →
        busStep (.bAddr true) s = { s with preq := q, addrAcked := true, trace := s.trace ++ [.addr b true] }) ∧
      (b.getLsbD 0 = true →
        busStep (.bAddr true) s =
          { s with preq := q, addrAcked := true, rxmode := true, rxmore := true, trace := s.trace ++ [.addr b true] })) ∧
    (∀ b q, s.preq = .tx b :: q → busStep .bTx s = { s with preq := q, trace := s.trace ++ [.tx b] }) ∧
    (∀ q, s.preq = .stop :: q →
      busStep .bStop s =
        { s with
          preq := q
          trace := s.trace ++ [.stop]
          startSent := false
          addrAcked := false
          rxNotEmpty := false
          rxmode := false
          rxmore := false
          shift := none }) ∧
    (s.preq.head? ≠ some .start → busStep .bStart s = s) ∧
    ((∀ b, s.preq.head? ≠ some (.addr b)) → ∀ ack, busStep (.bAddr ack) s = s) ∧
    ((∀ b, s.preq.head? ≠ some (.tx b)) → busStep .bTx s = s) ∧
    (s.preq.head? ≠ some .stop → busStep .bStop s = s)

/-- R83 and R84: when BUS may receive a byte, and what it does; the byte's ACK is ACK_EN at that step. With RX_PREFETCH = false
there is no B_SHIFT or B_MOVE, with RX_PREFETCH = true no B_RX, and a step whose condition fails does nothing (log 1). -/
def Obligations.BusReceivesAByte : Prop :=
  ∀ (s : State) (v : Byte),
    (s.params.rxPrefetch = false →
      (s.preq = [] ∧ s.rxmode = true ∧ s.rxmore = true ∧ s.addrAcked = false ∧ s.rxNotEmpty = false →
        busStep (.bRx v) s =
          { s with dr := v, rxNotEmpty := true, rxmore := s.ackEn, trace := s.trace ++ [.rx v s.ackEn] }) ∧
      (¬(s.preq = [] ∧ s.rxmode = true ∧ s.rxmore = true ∧ s.addrAcked = false ∧ s.rxNotEmpty = false) →
        busStep (.bRx v) s = s) ∧
      busStep (.bShift v) s = s ∧ busStep .bMove s = s) ∧
    (s.params.rxPrefetch = true →
      (s.preq = [] ∧ s.rxmode = true ∧ s.rxmore = true ∧ s.addrAcked = false ∧ s.shift = none →
        busStep (.bShift v) s =
          { s with shift := some (v, s.ackEn), rxmore := s.ackEn, trace := s.trace ++ [.rx v s.ackEn] }) ∧
      (¬(s.preq = [] ∧ s.rxmode = true ∧ s.rxmore = true ∧ s.addrAcked = false ∧ s.shift = none) →
        busStep (.bShift v) s = s) ∧
      (∀ a, s.shift = some (v, a) → s.rxNotEmpty = false →
        busStep .bMove s = { s with dr := v, rxNotEmpty := true, shift := none }) ∧
      (s.shift = none ∨ s.rxNotEmpty = true → busStep .bMove s = s) ∧
      busStep (.bRx v) s = s)

/-- R85, R87: no BUS step changes ACK_EN, any host-visible register, the sequencer or the marks; PREQ stays or loses its head;
TRACE grows by at most one event; and no byte comes while a request is pending or outside a read data phase. -/
def Obligations.BusStepFrame : Prop :=
  ∀ (m : BusMove) (s : State),
    busStep m s =
      { s with
        startSent := (busStep m s).startSent
        addrAcked := (busStep m s).addrAcked
        rxNotEmpty := (busStep m s).rxNotEmpty
        preq := (busStep m s).preq
        dr := (busStep m s).dr
        rxmode := (busStep m s).rxmode
        rxmore := (busStep m s).rxmore
        shift := (busStep m s).shift
        trace := (busStep m s).trace } ∧
    ((busStep m s).preq = s.preq ∨ (busStep m s).preq = s.preq.tail) ∧
    ((busStep m s).trace = s.trace ∨ ∃ e, (busStep m s).trace = s.trace ++ [e]) ∧
    (∀ v a, (busStep m s).trace = s.trace ++ [.rx v a] → s.preq = [] ∧ s.rxmode = true ∧ a = s.ackEn)

/-! ### The register window (20_memory.md R61 to R69) -/

/-- R34: STATUS at offset 0x04, its fields, its value after reset, and that a write to it is ignored; and R30: WAIT, which is
computed. The codes are those of R23, R28 and R29. -/
def Obligations.StatusFields : Prop :=
  (∀ s : State,
    readReg s 0x04 = statusWord s ∧ (∀ v, hostStep (.write 0x04 4 v) s = .next s) ∧
    (statusWord s).getLsbD 0 = s.busy ∧ (statusWord s).getLsbD 1 = s.resultValid ∧
    (statusWord s).getLsbD 2 = s.ackEn ∧ (statusWord s).getLsbD 3 = s.dir.bit ∧
    (statusWord s).extractLsb' 4 3 = s.phase.code ∧ (statusWord s).getLsbD 7 = s.cmdOvr ∧
    (statusWord s).extractLsb' 8 4 = s.err.code ∧ (statusWord s).extractLsb' 12 3 = waitField s ∧
    (statusWord s).getLsbD 15 = false ∧ (statusWord s).extractLsb' 16 8 = s.bytes ∧
    (statusWord s).extractLsb' 24 8 = 0 ∧
    (∀ f, s.busy = true → currentMicro s = some (.wait f) → waitField s = f.code) ∧
    (∀ u, s.busy = true → currentMicro s = some u → u.isWait = false → waitField s = 0) ∧
    (s.busy = false → waitField s = (s.tmoWhere.map WaitFlag.code).getD 0)) ∧
  readReg State.reset 0x04 = 0x00000004 ∧
  ([.startSent, .addrAcked, .txEmpty, .rxNotEmpty].map WaitFlag.code = [1, 2, 3, 4]) ∧
  ([.idle, .started, .addressSent, .transferring, .stopped].map Phase.code = [0, 1, 2, 3, 4]) ∧
  ([.none, .illegalCmd, .sequence, .badLength, .busTimeout].map ErrCode.code = [0, 1, 2, 3, 4])

/-- R66, R68: a read of any offset leaves every element of the block as it was; what it returns is recorded (log 6), and a
second read of the offset returns the same. -/
def Obligations.ReadsHaveNoSideEffect : Prop :=
  ∀ (s : State) (off : Nat), off < 0x100 → off % 4 = 0 →
    hostStep (.read off 4) s = .next { s with reads := s.reads ++ [⟨off, readReg s off⟩] } ∧
    readReg { s with reads := s.reads ++ [⟨off, readReg s off⟩] } off = readReg s off

/-- R63, R211: an access that is not 32 bits wide at an offset that is a multiple of 4 sets REFUSED and has no other effect. -/
def Obligations.UnsupportedAccessIsRefused : Prop :=
  ∀ (s : State) (off n : Nat) (v : Word), off < 0x100 → (n ≠ 4 ∨ off % 4 ≠ 0) →
    hostStep (.read off n) s = .next { s with refused := true } ∧
    hostStep (.write off n v) s = .next { s with refused := true }

/-- R64, R65: CMD reads 0; STATUS, RXDATA and RESULT ignore writes; every reserved offset reads 0 and ignores writes. -/
def Obligations.ReservedAndReadOnlyOffsets : Prop :=
  ∀ (s : State) (off : Nat) (v : Word), s.params.legal = true → off < 0x100 → off % 4 = 0 →
    readReg s 0 = 0 ∧
    (off = 0x04 ∨ off = 0x08 ∨ (0x40 ≤ off ∧ off < 0x40 + 4 * s.params.maxWords) →
      hostStep (.write off 4 v) s = .next s) ∧
    ((0x10 + 4 * s.params.txbufDepth ≤ off ∧ off < 0x40) ∨ 0x40 + 4 * s.params.maxWords ≤ off →
      hostStep (.write off 4 v) s = .next s ∧ readReg s off = 0)

/-- R36, R37, R38, R35: TIMEOUT keeps the low 16 bits written to it and TXBUF[i] the low 8, and reads return them with zeros
above; no other register changes, a running command's payload among them (R247); RXDATA and RESULT read zero-extended. -/
def Obligations.WritableRegistersStoreTheirBits : Prop :=
  ∀ (s : State) (v : Word), s.params.legal = true → s.txbuf.length = s.params.txbufDepth →
    (hostStep (.write 0x0C 4 v) s = .next { s with limit := v.extractLsb' 0 16 } ∧
      readReg { s with limit := v.extractLsb' 0 16 } 0x0C = v &&& 0xFFFF) ∧
    (∀ i, i < s.params.txbufDepth →
      hostStep (.write (0x10 + 4 * i) 4 v) s = .next { s with txbuf := s.txbuf.set i (v.extractLsb' 0 8) } ∧
      readReg { s with txbuf := s.txbuf.set i (v.extractLsb' 0 8) } (0x10 + 4 * i) = v &&& 0xFF) ∧
    readReg s 0x08 = s.rxdata.setWidth 32 ∧
    (∀ i, i < s.params.maxWords → readReg s (0x40 + 4 * i) = (s.result.getD i 0).setWidth 32)

/-- R57, R58, R76: no HOST step touches the bus-primitive interface, TRACE, PHASE or DIR; and while a command runs, none
changes the command, its position, its payload, its data or its results. -/
def Obligations.HostCannotTouchTheBus : Prop :=
  ∀ (s t : State) (a : Access), hostStep a s = .next t →
    t.preq = s.preq ∧ t.trace = s.trace ∧ t.startSent = s.startSent ∧ t.addrAcked = s.addrAcked ∧
    t.rxNotEmpty = s.rxNotEmpty ∧ t.dr = s.dr ∧ t.rxmode = s.rxmode ∧ t.rxmore = s.rxmore ∧ t.shift = s.shift ∧
    t.phase = s.phase ∧ t.dir = s.dir ∧ t.ackEn = s.ackEn ∧ t.fault = s.fault ∧
    (s.busy = true →
      t = { s with cmdOvr := t.cmdOvr, limit := t.limit, txbuf := t.txbuf, refused := t.refused, reads := t.reads } ∧
      runningProg t = runningProg s)

/-! ### Reset (70_reset_and_hazards.md R230 to R233) -/

/-- R230, R233: RESET, in any state, a running command among them, gives every element its reset value of R53: no Stop is
requested, pending requests are dropped, and no error is recorded. -/
def Obligations.ResetSetsEveryElement : Prop :=
  ∀ s : State, ∃ t, applyEvent .reset s = .next t ∧
    t.busy = false ∧ t.cur = none ∧ t.mpc = 0 ∧ t.spin = 0 ∧ t.phase = .idle ∧ t.dir = .write ∧ t.preq = [] ∧
    t.startSent = false ∧ t.addrAcked = false ∧ t.rxNotEmpty = false ∧ t.dr = 0 ∧ t.rxmode = false ∧ t.rxmore = false ∧
    t.shift = none ∧ t.ackEn = true ∧ t.limit = 0 ∧ t.txbuf = List.replicate s.params.txbufDepth 0 ∧
    t.result = List.replicate s.params.maxWords 0 ∧ t.resultValid = false ∧ t.cmdOvr = false ∧ t.err = .none ∧
    t.tmoWhere = none ∧ t.bytes = 0 ∧ t.rxdata = 0 ∧ t.work = List.replicate s.params.maxWords 0 ∧ t.acc = 0 ∧
    t.widx = 0 ∧ t.payload = List.replicate s.params.txbufDepth 0 ∧ t.trace = [] ∧ t.refused = false ∧ t.fault = false ∧
    t.params = s.params

/-- R231: what HOST reads right after reset: STATUS = 0x00000004 and 0 everywhere else. -/
def Obligations.ReadsAfterReset : Prop :=
  ∀ off : Nat, readReg State.reset off = if off = 0x04 then 0x00000004 else 0

/-! ### Invariants -/

/-- The reset state meets both invariants, for every legal choice of the parameters. -/
def Obligations.ResetMeetsTheInvariants : Prop :=
  State.reset.inv = true ∧ State.reset.dataInv = true ∧
  ∀ p es, p.legal = true → (State.afterReset p es).inv = true ∧ (State.afterReset p es).dataInv = true

/-- Every step keeps the invariant of the machine: PREQ, the flags, PHASE, DIR, the µprogram position, the counters and the
shape of TRACE fit together (R54, R90, R91). -/
def Obligations.StepKeepsTheInvariant : Prop :=
  ∀ s t : State, s.inv = true → step s = .next t → t.inv = true

/-- Every step keeps the invariant of a burst's data: WORK and ACC are those of the bytes taken, and, with RX_PREFETCH = false,
the ACK bits follow R182. -/
def Obligations.StepKeepsTheBurstData : Prop :=
  ∀ s t : State, s.inv = true → s.dataInv = true → step s = .next t → t.dataInv = true

/-- R54 and R90 of every state that meets the invariant: (a) BUSY = 0 implies PHASE ∈ {Idle, Transferring, Stopped}; (b) PHASE ∈
{Started, AddressSent} implies BUSY = 1; (c) RX_NOT_EMPTY = 1 implies RXMODE = 1; (d) PREQ holds at most 2 entries and FAULT
is 0; a full PREQ is `[Stop, Start]`; and no event of TRACE breaks R91's grammar. -/
def Obligations.InvariantGivesTheRulesOfState : Prop :=
  ∀ s : State, s.inv = true →
    (s.busy = false → s.phase = .idle ∨ s.phase = .transferring ∨ s.phase = .stopped) ∧
    (s.phase = .started ∨ s.phase = .addressSent → s.busy = true) ∧
    (s.rxNotEmpty = true → s.rxmode = true) ∧
    s.preq.length ≤ 2 ∧ s.fault = false ∧
    (s.preq.length = 2 → s.preq = [.stop, .start]) ∧
    busView s.trace ≠ .broken

/-- From a state that meets the invariant no step stops the machine, but for a HOST access outside the window (R62, log 7):
ENGINE always stands at a µop, and no request is lost (R90, R212). -/
def Obligations.OnlyAccessesOutsideStop : Prop :=
  ∀ s : State, s.inv = true →
    (∃ t, step s = .next t ∧ t.fault = false) ∨
    (∃ a es, s.inputs = .host a :: es ∧ 0x100 ≤ a.offset ∧ step s = .refused .outsideWindow)

/-- No step changes the parameters (R52). -/
def Obligations.StepKeepsTheParameters : Prop :=
  ∀ s t : State, step s = .next t → t.params = s.params

/-! ### Who writes what -/

/-- R35, R38, R246: apart from RESET, RESULT changes only in the ENGINE step at COMMIT, which writes all of WORK into it and
sets RESULT_VALID in the same step; RXDATA changes only in the ENGINE step at RXB. -/
def Obligations.WritersOfResultAndRxdata : Prop :=
  ∀ (e : Event) (s t : State), e ≠ .reset → applyEvent e s = .next t →
    (t.result ≠ s.result →
      e = .engine ∧ s.busy = true ∧ currentMicro s = some .commit ∧ t.result = s.work ∧ t.resultValid = true) ∧
    (s.resultValid = false → t.resultValid = true → e = .engine ∧ currentMicro s = some .commit) ∧
    (t.rxdata ≠ s.rxdata →
      e = .engine ∧ s.busy = true ∧ currentMicro s = some .rxb ∧ t.rxdata = s.dr)

/-- R23, R24, R25: apart from RESET, PHASE, DIR and ACK_EN change in ENGINE steps only: PHASE at START, ADDR, CLRADDR, STOP and
in an abort; DIR at ADDR; ACK_EN at SETACK, RXHI_NACK, ACKON and in the abort of a BURST. -/
def Obligations.WritersOfPhaseDirAndAck : Prop :=
  ∀ (e : Event) (s t : State), e ≠ .reset → applyEvent e s = .next t →
    (t.phase ≠ s.phase → e = .engine ∧ s.busy = true ∧
      ((currentMicro s = some .start ∧ t.phase = .started) ∨
       ((∃ d, currentMicro s = some (.addr d)) ∧ t.phase = .addressSent) ∨
       (currentMicro s = some .clrAddr ∧ t.phase = .transferring) ∨
       (currentMicro s = some .stop ∧ t.phase = .stopped) ∨
       ((∃ f, currentMicro s = some (.wait f)) ∧ t.err = .busTimeout ∧ t.phase = .stopped))) ∧
    (t.dir ≠ s.dir → e = .engine ∧ s.busy = true ∧ currentMicro s = some (.addr t.dir)) ∧
    (t.ackEn ≠ s.ackEn → e = .engine ∧ s.busy = true ∧
      (currentMicro s = some (.setAck t.ackEn) ∨
       (currentMicro s = some .rxHiNack ∧ t.ackEn = false) ∨
       (currentMicro s = some .ackOn ∧ t.ackEn = true) ∨
       ((∃ f, currentMicro s = some (.wait f)) ∧ burstRunning s = true ∧ t.err = .busTimeout ∧ t.ackEn = true)))

/-- R27, R28, R29, R205, R216: apart from RESET, ERR and TMO_WHERE change only in a CMD write taken with BUSY = 0 and in the
ENGINE step that aborts a command, which records BUS_TIMEOUT and the flag; CMD_OVR is set by a CMD write with BUSY = 1 and
cleared by one with BUSY = 0 only. -/
def Obligations.WritersOfErrTmoWhereAndOverrun : Prop :=
  ∀ (e : Event) (s t : State), e ≠ .reset → applyEvent e s = .next t →
    (t.err ≠ s.err ∨ t.tmoWhere ≠ s.tmoWhere →
      (s.busy = false ∧ ∃ w, e = .host (cmdWrite w)) ∨
      (e = .engine ∧ s.busy = true ∧ t.err = .busTimeout ∧
        ∃ f, currentMicro s = some (.wait f) ∧ flagValue f s = false ∧ t.tmoWhere = some f)) ∧
    (s.cmdOvr = false → t.cmdOvr = true → s.busy = true ∧ ∃ w, e = .host (cmdWrite w)) ∧
    (s.cmdOvr = true → t.cmdOvr = false → s.busy = false ∧ ∃ w, e = .host (cmdWrite w))

/-- R56, R180, R185: from a state that meets the invariant, the step that ends a BURST, other than RESET, leaves ACK_EN = 1, on
the success path and on the timeout path. -/
def Obligations.BurstEndsWithAckEnabled : Prop :=
  ∀ (e : Event) (s t : State) (reg : Byte) (wc : Nat), s.inv = true → e ≠ .reset → applyEvent e s = .next t →
    s.busy = true → s.cur = some (.burst reg wc) → t.busy = false →
    e = .engine ∧ t.ackEn = true ∧
      ((t.err = .none ∧ t.resultValid = true ∧ t.bytes.toNat = 2 * wc) ∨ (t.err = .busTimeout ∧ t.resultValid = false))

/-! ### The data of a burst, in every interleaving -/

/-- R182 to R184: in the step that publishes a reading, whatever the interleaving was: the command is a BURST of some wc words,
BYTES = 2·wc, word j of RESULT is the (2j+1)-th and (2j+2)-th byte received since the read address, the first in the high
half, RESULT is 0 from word wc on; and with RX_PREFETCH = false exactly 2·wc bytes came, all ACKed but the last. -/
def Obligations.PublishedReadingIsTheBytesReceived : Prop :=
  ∀ s t : State, s.inv = true → s.dataInv = true → step s = .next t → s.resultValid = false → t.resultValid = true →
    ∃ reg wc, s.cur = some (.burst reg wc) ∧ 2 ≤ wc ∧ wc ≤ s.params.maxWords ∧ t.bytes.toNat = 2 * wc ∧
      t.result.length = s.params.maxWords ∧
      (∀ j, j < wc → ∃ h l : Byte × Bool,
        (receivedSinceAddr t.trace)[2 * j]? = some h ∧ (receivedSinceAddr t.trace)[2 * j + 1]? = some l ∧
        t.result[j]? = some (h.1 ++ l.1)) ∧
      (∀ j, wc ≤ j → j < s.params.maxWords → t.result[j]? = some 0) ∧
      (s.params.rxPrefetch = false →
        (receivedSinceAddr t.trace).map Prod.snd = List.replicate (2 * wc - 1) true ++ [false])

/-- R188, R244: BURST accepted with ACK_EN = 0 and LIMIT ≠ 0, on a prompt bus: its first byte is NACKed, no more come, and it
ends at the second byte's wait with BUS_TIMEOUT, one Stop requested and ACK_EN = 1. -/
def Obligations.BurstWithAckDisabledTimesOut : Prop :=
  ∀ (s : State) (reg : Byte) (wc : Nat) (v : Byte) (rest : List Event),
    s.busy = false → (s.phase = .idle ∨ s.phase = .stopped) → (s.preq = [] ∨ s.preq = [.stop]) →
    s.params.legal = true → 2 ≤ wc → wc ≤ s.params.maxWords → s.ackEn = false → s.limit ≠ 0 →
    s.inputs = promptBegin s.preq ++ promptTx ++ [Event.engine] ++ promptBegin [.stop] ++ promptByte s.params.rxPrefetch v
      ++ List.replicate s.limit.toNat Event.engine ++ rest →
    ∃ k t, run k (acceptedState (.burst reg wc) s) = .next t ∧ t.inputs = rest ∧
      t.busy = false ∧ t.err = .busTimeout ∧ t.tmoWhere = some .rxNotEmpty ∧ t.ackEn = true ∧ t.bytes = 1 ∧
      t.resultValid = false ∧ t.result = s.result ∧ t.preq = [.stop] ∧ t.phase = .stopped ∧
      t.trace = (afterPending s).trace
        ++ ([.start, .addr (addressByte .write) true, .tx reg, .stop, .start, .addr (addressByte .read) true,
            .rx v false] : List BusEvent)

/-- R187, R250: with RX_PREFETCH = true and bytes shifted in as early as BUS can, a BURST of 2 words has its last byte ACKed
while byte 3 is still in DR, one byte more comes and is NACKed, and RESULT is that of the first four bytes. -/
def Obligations.PrefetchAcksTheLastByte : Prop :=
  ∀ (s : State) (reg : Byte) (b1 b2 b3 b4 b5 : Byte) (rest : List Event),
    s.busy = false → (s.phase = .idle ∨ s.phase = .stopped) → (s.preq = [] ∨ s.preq = [.stop]) →
    s.params.legal = true → s.params.rxPrefetch = true → s.ackEn = true →
    s.inputs = promptBegin s.preq ++ promptTx ++ [Event.engine] ++ promptBegin [.stop] ++ earlyShifts b1 b2 b3 b4 b5 ++ rest →
    ∃ k t, run k (acceptedState (.burst reg 2) s) = .next t ∧ t.inputs = rest ∧
      t.busy = false ∧ t.err = .none ∧ t.resultValid = true ∧ t.ackEn = true ∧ t.bytes = 4 ∧
      t.result = [b1 ++ b2, b3 ++ b4] ++ List.replicate (s.params.maxWords - 2) 0 ∧
      t.trace = (afterPending s).trace
        ++ ([.start, .addr (addressByte .write) true, .tx reg, .stop, .start, .addr (addressByte .read) true,
            .rx b1 true, .rx b2 true, .rx b3 true, .rx b4 true, .rx b5 false, .stop] : List BusEvent)

/-- R161, R243: the race of a host-driven read of one byte. Between BEGIN R and the execution of SETACK 0, BUS may deliver the
byte under the old ACK_EN or after it: both runs end with the byte taken, one with it NACKed, the other with it ACKed and one
byte more received. -/
def Obligations.HostDrivenReadRace : Prop :=
  ∀ (s : State) (v w : Byte) (rest : List Event),
    s.inv = true → s.busy = false → s.phase = .transferring → s.dir = .read → s.params.rxPrefetch = false →
    s.ackEn = true → s.rxmore = true → s.rxNotEmpty = false →
    (s.inputs = ([.host (cmdWrite (encode (.setack false))), .engine, .bus (.bRx v), .host (cmdWrite (encode .readb)),
        .engine, .engine, .host (cmdWrite (encode .stop)), .engine, .bus .bStop] : List Event) ++ rest →
      ∃ t, run 9 s = .next t ∧ t.rxdata = v ∧ t.err = .none ∧ t.phase = .stopped ∧
        t.trace = s.trace ++ [.rx v false, .stop]) ∧
    (s.inputs = ([.bus (.bRx v), .host (cmdWrite (encode (.setack false))), .engine, .host (cmdWrite (encode .readb)),
        .engine, .engine, .bus (.bRx w), .host (cmdWrite (encode .stop)), .engine, .bus .bStop] : List Event) ++ rest →
      ∃ t, run 10 s = .next t ∧ t.rxdata = v ∧ t.err = .none ∧ t.phase = .stopped ∧
        t.trace = s.trace ++ ([.rx v true, .rx w false, .stop] : List BusEvent))

/-! ### Progress (70_reset_and_hazards.md R252) -/

/-- R252: with LIMIT = n ≠ 0, an accepted command ends whatever BUS and HOST do, within L + W·(n − 1) ENGINE steps: a run whose
schedule has that many ENGINE steps, none of its steps a RESET, a write to TIMEOUT or an access outside the window, passes a
state with BUSY = 0. W is the number of WAITs in the µprogram (for a BURST, log 24). -/
def Obligations.BoundedWaitsEndEveryCommand : Prop :=
  ∀ s : State, s.inv = true → s.busy = true → s.mpc = 0 → s.spin = 0 → s.limit ≠ 0 →
    (∀ e ∈ s.inputs, e.keepsLimit = true) →
    engineBound (runningProg s) s.limit.toNat ≤ s.inputs.countP (fun e => decide (e = .engine)) →
    ∃ k t, k ≤ s.inputs.length ∧ run k s = .next t ∧ t.busy = false

/-- R252: under `bus_responsive` and a weakly fair ENGINE, with LIMIT = 0, an accepted command that can be served ends with
ERR = NONE, in every interleaving. Fairness and `bus_responsive` are predicates on infinite runs without RESET (the model's
choice, log 21). -/
def Obligations.ResponsiveBusEndsEveryCommand : Prop :=
  ∀ (sched : Nat → Event) (states : Nat → State) (c : Instr),
    (states 0).inv = true → (states 0).dataInv = true → (states 0).busy = true → (states 0).cur = some c →
    (states 0).mpc = 0 → canBeServed c (states 0) = true →
    IsRun sched states → EngineFair sched states → BusResponsive sched states → (∀ k, (states k).limit = 0) →
    ∃ k, (∀ j, j < k → (states j).busy = true) ∧ (states k).busy = false ∧ (states k).err = .none
end

