-- ==== Sys2Proof/Laws/Decode.lean ====
section
/-! SUPPORT. The fields of a word built from its fields (30_encoding.md R101). -/

namespace Sys2Proof

/-- Every bit of `{OP, RSV = 0, B, A}`. -/
theorem cmdWord_getLsbD (op : BitVec 4) (b a : Byte) (i : Nat) :
    (cmdWord op b a).getLsbD i =
      if i < 8 then a.getLsbD i
      else if i < 16 then b.getLsbD (i - 8)
      else if i < 28 then false
      else op.getLsbD (i - 28) := by
  change (op ++ (0#12 ++ (b ++ a)) : BitVec (4 + (12 + (8 + 8)))).getLsbD i = _
  simp only [BitVec.getLsbD_append, BitVec.getLsbD_zero]
  have e : i - (8 + 8) - 12 = i - 28 := by omega
  split <;> split <;> (try split) <;> first | rfl | omega

@[simp] theorem cmdWord_op (op : BitVec 4) (b a : Byte) : Word.op (cmdWord op b a) = op := by
  ext i hi
  simp only [Word.op, BitVec.getElem_extractLsb', cmdWord_getLsbD]
  rw [if_neg (by omega), if_neg (by omega), if_neg (by omega), Nat.add_sub_cancel_left, BitVec.getLsbD_eq_getElem hi]

@[simp] theorem cmdWord_rsv (op : BitVec 4) (b a : Byte) : Word.rsv (cmdWord op b a) = 0 := by
  ext i hi
  simp only [Word.rsv, BitVec.getElem_extractLsb', cmdWord_getLsbD]
  rw [if_neg (by omega), if_neg (by omega), if_pos (by omega)]
  simp

@[simp] theorem cmdWord_fieldB (op : BitVec 4) (b a : Byte) : Word.fieldB (cmdWord op b a) = b := by
  ext i hi
  simp only [Word.fieldB, BitVec.getElem_extractLsb', cmdWord_getLsbD]
  rw [if_neg (by omega), if_pos (by omega), Nat.add_sub_cancel_left, BitVec.getLsbD_eq_getElem hi]

@[simp] theorem cmdWord_fieldA (op : BitVec 4) (b a : Byte) : Word.fieldA (cmdWord op b a) = a := by
  ext i hi
  simp only [Word.fieldA, BitVec.getElem_extractLsb', cmdWord_getLsbD]
  rw [if_pos (by omega), Nat.zero_add, BitVec.getLsbD_eq_getElem hi]

/-- A[0], the operand bit of BEGIN and SETACK. -/
@[simp] theorem cmdWord_bit0 (op : BitVec 4) (b a : Byte) : (cmdWord op b a).getLsbD 0 = a.getLsbD 0 := by
  rw [cmdWord_getLsbD, if_pos (by omega)]

@[simp] theorem cmdWord_getElem_zero (op : BitVec 4) (b a : Byte) : (cmdWord op b a)[0] = a[0] :=
  cmdWord_bit0 op b a

/-- Bits [15:0], the two operand fields. -/
theorem cmdWord_operands (op : BitVec 4) (b a : Byte) : (cmdWord op b a).extractLsb' 0 16 = b ++ a := by
  ext i hi
  change _ = (b ++ a : BitVec (8 + 8))[i]
  rw [BitVec.getElem_append, BitVec.getElem_extractLsb', cmdWord_getLsbD, Nat.zero_add]
  split
  · exact BitVec.getLsbD_eq_getElem _
  · exact BitVec.getLsbD_eq_getElem _

/-- Bits [15:1], which BEGIN and SETACK want to be 0. -/
theorem cmdWord_upperOperands (op : BitVec 4) (b a : Byte) :
    (cmdWord op b a).extractLsb' 1 15 = (b ++ a).extractLsb' 1 15 := by
  rw [← cmdWord_operands op b a]
  ext i hi
  simp

theorem bitOperand_bit0 (b : Bool) : (bitOperand b).getLsbD 0 = b := by cases b <;> decide

@[simp] theorem bitOperand_getElem_zero (b : Bool) : (bitOperand b)[0] = b := bitOperand_bit0 b

/-- The operand fields of BEGIN and SETACK are 0 above A[0]. -/
theorem bitOperand_upper (b : Bool) : (0#8 ++ bitOperand b : BitVec 16).extractLsb' 1 15 = 0 := by
  cases b <;> decide

@[simp] theorem Dir.ofBit_bit (d : Dir) : Dir.ofBit d.bit = d := by cases d <;> rfl

end Sys2Proof
end

