-- ==== Sys2Proof/Laws/PerInstr.lean ====
section
/-! SUPPORT. The family `EncodingFields`: what every command's word has in the fields of CMD32 (30_encoding.md R101 to R108). -/

namespace Sys2Proof.Laws.EncodingFields

open Sys2Proof

/-- OP is the operation's and RSV is 0 (R101, R102). -/
def Statement (i : Instr) : Prop :=
  Word.rsv (encode i) = 0 ∧
    Word.op (encode i) =
      match i with
      | .begin _ => 0x1
      | .write _ => 0x2
      | .readb => 0x3
      | .setack _ => 0x4
      | .stop => 0x5
      | .burst _ _ => 0x6

theorem begin (d : Dir) : Statement (.begin d) := ⟨cmdWord_rsv .., cmdWord_op ..⟩

theorem write (len : Nat) : Statement (.write len) := ⟨cmdWord_rsv .., cmdWord_op ..⟩

theorem readb : Statement .readb := ⟨cmdWord_rsv .., cmdWord_op ..⟩

theorem setack (en : Bool) : Statement (.setack en) := ⟨cmdWord_rsv .., cmdWord_op ..⟩

theorem stop : Statement .stop := ⟨cmdWord_rsv .., cmdWord_op ..⟩

theorem burst (reg : Byte) (wc : Nat) : Statement (.burst reg wc) := ⟨cmdWord_rsv .., cmdWord_op ..⟩

end Sys2Proof.Laws.EncodingFields
end

