-- ==== Sys2Proof/Tests/Slice0.lean ====
section
/-! SUPPORT. Small tests: the well-formedness smoke, words written out from 30_encoding.md, one step of each command and of BUS with
results from 95_test_vectors.md, and, for every statement that has hypotheses, states and operands that meet them. -/

namespace Sys2Proof.Tests

open Sys2Proof Sys2Proof.Machine Host

/-! ### Well-formedness (R109) -/

theorem test_wf_write_256_refused : Instr.wellFormed (.write 256) = false := by decide
theorem test_wf_burst_256_refused : Instr.wellFormed (.burst 0x3B 256) = false := by decide
theorem test_wf_largest_counts : Instr.wellFormed (.write 255) = true ∧ Instr.wellFormed (.burst 0xFF 255) = true := by decide

/-! ### Decoding: words written out bit by bit from the patterns of R103 to R108 -/

theorem test_decode_begin :
    decode 0b00010000000000000000000000000000#32 = .ok (.begin .write) ∧
    decode 0b00010000000000000000000000000001#32 = .ok (.begin .read) := by decide
theorem test_decode_write :
    decode 0b00100000000000000000000000000000#32 = .ok (.write 0) ∧
    decode 0b00100000000000000000000010100101#32 = .ok (.write 0xA5) ∧
    decode 0b00100000000000000000000011111111#32 = .ok (.write 255) := by decide
theorem test_decode_readb : decode 0b00110000000000000000000000000000#32 = .ok .readb := by decide
theorem test_decode_setack :
    decode 0b01000000000000000000000000000000#32 = .ok (.setack false) ∧
    decode 0b01000000000000000000000000000001#32 = .ok (.setack true) := by decide
theorem test_decode_stop : decode 0b01010000000000000000000000000000#32 = .ok .stop := by decide
theorem test_decode_burst :
    decode 0b01100000000000000000011100111011#32 = .ok (.burst 0x3B 7) ∧
    decode 0b01100000000000001000000000000001#32 = .ok (.burst 0x01 128) := by decide
/-- One illegal word for each line of R111. -/
theorem test_decode_illegal :
    decode 0x00000000 = .error .reservedOp ∧ decode 0x70000000 = .error .reservedOp ∧ decode 0xF0000000 = .error .reservedOp ∧
    decode 0x30010000 = .error .reservedBits ∧ decode 0x68000000 = .error .reservedBits ∧
    decode 0x10000002 = .error .operandBits ∧ decode 0x40008000 = .error .operandBits ∧
    decode 0x20000100 = .error .operandBits ∧ decode 0x30000001 = .error .operandBits ∧
    decode 0x50008000 = .error .operandBits := by decide
theorem test_encode_worked :
    encode (.burst 0x3B 7) = 0x6000073B ∧ encode (.write 2) = 0x20000002 ∧ encode (.begin .read) = 0x10000001 ∧
    encode (.setack false) = 0x40000000 ∧ encode .readb = 0x30000000 ∧ encode .stop = 0x50000000 := by decide
theorem test_decodeTableWord :
    decodeTableWord 32 0x6000073B = some (.burst 0x3B 7) ∧ decodeTableWord 32 0x10000002 = none ∧
    decodeTableWord 40 0x100000000 = none := by decide
theorem test_withFetchWord_steps :
    step (State.reset.withFetchWord 32 0x40000000) = exec (.setack false) State.reset := by rfl
/-- R115: READ1 polls after each command. -/
theorem test_expand_read1 :
    (PseudoInstr.read1.expand.flatMap (HostLine.accesses 1)).length = 11 ∧
    PseudoInstr.expand (.writereg 0x6B 0x00) = [.wr 0x10 0x6B, .wr 0x14 0, .cmd (.write 2), .poll] := by decide

/-! ### States the tests use -/

/-- BEGIN W accepted at reset. -/
def beginning : State := { State.reset with busy := true, cur := some (.begin .write) }

/-- BEGIN W at its first wait, the Start queued. -/
def waitingStart (limit spin : Half) : State :=
  { beginning with mpc := 1, phase := .started, preq := [.start], limit := limit, spin := spin }

/-- T-G1, T-G2: a transaction in its data phase. -/
def transferring (d : Dir) : State :=
  { State.reset with
    phase := .transferring
    dir := d
    rxmode := d.bit
    rxmore := d.bit
    trace := [.start, .addr (if d = .read then 0xD1 else 0xD0) true] }

/-- WRITE 1 at its second wait, the byte queued. -/
def waitingTx : State :=
  { transferring .write with
    busy := true
    cur := some (.write 1)
    mpc := 7
    preq := [.tx 0x6B]
    payload := 0x6B :: List.replicate 7 0 }

/-- A READB waiting, in a read. -/
def waitingByte : State := { transferring .read with busy := true, cur := some .readb }

/-- BURST 0x3B, 2 at its second Start's wait (T-T3). -/
def waitingRestart : State :=
  { State.reset with
    busy := true
    cur := some (.burst 0x3B 2)
    mpc := 10
    phase := .started
    limit := 1
    preq := [.stop, .start]
    trace := [.start, .addr 0xD0 true, .tx 0x3B] }

/-- BURST 0x3B, 2 in its read transaction, at a µop, after the given bytes: `taken` of them taken. -/
def burstAt (mpc : Byte) (bs : List (Byte × Bool)) (taken : Nat) : State :=
  { State.reset with
    busy := true
    cur := some (.burst 0x3B 2)
    mpc := mpc
    phase := .transferring
    dir := .read
    bytes := BitVec.ofNat 8 taken
    widx := BitVec.ofNat 8 (taken / 2)
    work := workOf 7 ((bs.map Prod.fst).take taken)
    acc := (((bs.map Prod.fst).take taken).getLast?.map highByte).getD 0
    rxmode := true
    rxmore := bs.all Prod.snd
    trace := [.start, .addr 0xD0 true, .tx 0x3B, .stop, .start, .addr 0xD1 true] ++ bs.map (fun b => .rx b.1 b.2) }

/-- The bytes of T-B2. -/
def bytesB2 : List (Byte × Bool) := [(0x12, true), (0x34, true), (0x56, true), (0x78, false)]

/-- T-B2 at COMMIT, its Stop requested. -/
def committing : State :=
  { burstAt 24 bytesB2 4 with phase := .stopped, preq := [.stop], acc := 0x5678, dr := 0x78 }

/-- The state with a prompt schedule to come. -/
def scheduled (s : State) (es : List Event) : State := { s with inputs := es }

/-- Ready for a command, a Stop of an earlier one pending. -/
def stopPending : State := { transferring .write with phase := .stopped, preq := [.stop] }

/-! ### One step at a time -/

/-- T-A15: SETACK is legal in every phase, and its one µop clears ACK_EN. -/
theorem test_setack_step : (runMicro (.setAck false) (transferring .read)).1.ackEn = false ∧
    statusWord { transferring .read with ackEn := false } = 0x38 := by decide
/-- T-A11: BAD_LENGTH before SEQUENCE. -/
theorem test_burst_badLength_first :
    ∃ t, exec (.burst 0x3B 0) (transferring .read) = .next t ∧ statusWord t = 0x33C := ⟨_, rfl, by decide⟩
/-- T-A12: BURST in Transferring. -/
theorem test_burst_sequence : ∃ t, exec (.burst 0x3B 7) (transferring .read) = .next t ∧ statusWord t = 0x23C :=
  ⟨_, rfl, by decide⟩
/-- T-A13: no repeated start. -/
theorem test_begin_sequence : ∃ t, exec (.begin .write) (transferring .read) = .next t ∧ statusWord t = 0x23C :=
  ⟨_, rfl, by decide⟩
/-- T-G2: at its second wait STATUS shows BUSY 1, PHASE 2, WAIT 2, DIR 1. -/
theorem test_begin_status :
    statusWord { beginning with cur := some (.begin .read), mpc := 3, phase := .addressSent, dir := .read } = 0x202D := by decide
/-- T-W5: WRITE 9 with depth 8. -/
theorem test_write_badLength : ∃ t, exec (.write 9) State.reset = .next t ∧ statusWord t = 0x304 := ⟨_, rfl, by decide⟩
/-- T-W6: the payload is a copy. -/
theorem test_write_copies :
    ∃ t, exec (.write 2) { State.reset with txbuf := [0x11, 0x22, 0, 0, 0, 0, 0, 0] } = .next t ∧
      runningProg { t with txbuf := [0x11, 0x33, 0, 0, 0, 0, 0, 0] } = uprog (.write 2) [0x11, 0x22] :=
  ⟨_, rfl, by decide⟩
/-- T-R3: READB after BEGIN W. -/
theorem test_readb_sequence : ∃ t, exec .readb (transferring .write) = .next t ∧ statusWord t = 0x234 := ⟨_, rfl, by decide⟩
/-- R133: RXB takes DR. -/
theorem test_rxb : (microRxb { transferring .read with dr := 0x2A, rxNotEmpty := true }).rxdata = 0x2A := by decide
/-- T-P2: STOP twice. -/
theorem test_stop_sequence : ∃ t, exec .stop { stopPending with preq := [] } = .next t ∧ statusWord t = 0x244 :=
  ⟨_, rfl, by decide⟩
/-- T-P3: a byte in DR is discarded by the Stop. -/
theorem test_stop_discards :
    (busStep .bStop { transferring .read with preq := [.stop], rxNotEmpty := true, dr := 0x99 }).rxNotEmpty = false := by decide
/-- T-B3: the last word is 0x12C8, not 0x11C8. -/
theorem test_rxadd_zero_extends : addLow (highByte 0x12) 0xC8 = 0x12C8 := by decide
/-- T-B4: the first byte is the high byte. -/
theorem test_rxlo_big_endian : orLow (highByte 0x00) 0xC8 = 0x00C8 := by decide
/-- T-T1: the abort at the first wait flushes the Start and requests no Stop. -/
theorem test_abort_flushes_start : ∃ t, engineStep (waitingStart 1 0) = .next t ∧ statusWord t = 0x1444 ∧ t.preq = [] :=
  ⟨_, rfl, by decide⟩
/-- T-T3: the abort flushes the second Start and leaves the one Stop. -/
theorem test_abort_keeps_stop : ∃ t, engineStep waitingRestart = .next t ∧ statusWord t = 0x1444 ∧ t.preq = [.stop] :=
  ⟨_, rfl, by decide⟩
/-- T-O3: a CMD write during a hang. -/
theorem test_overrun_status :
    ∃ t, hostStep (cmdWrite 0x50000000) (waitingStart 0 10) = .next t ∧ statusWord t = 0x1095 := ⟨_, rfl, by decide⟩
/-- T-M4, T-M5: refused accesses. -/
theorem test_refused_accesses :
    hostStep (.write 0 1 0x20000000) State.reset = .next { State.reset with refused := true } ∧
    hostStep (.read 6 4) State.reset = .next { State.reset with refused := true } := ⟨rfl, rfl⟩
/-- T-T9: reserved bits of TIMEOUT. -/
theorem test_timeout_bits : ∃ t, hostStep (.write 0x0C 4 0x12345678) State.reset = .next t ∧ readReg t 0x0C = 0x5678 :=
  ⟨_, rfl, by decide⟩
/-- R62: an access outside the window. -/
theorem test_outside_window : hostStep (.read 0x100 4) State.reset = .refused .outsideWindow := by rfl
/-- R84: with prefetch a byte is shifted in while the one before it is still in DR. -/
theorem test_prefetch_shift :
    busEnabled (.bShift 1) { transferring .read with params := { Params.standard with rxPrefetch := true }, rxNotEmpty := true }
      = true := by decide

/-! ### Witnesses: for every statement with hypotheses, states and operands that meet them, each clause at its boundary -/

theorem witness_EncodeGivesSyntaxTableWord : (0 : Nat) < 256 ∧ (255 : Nat) < 256 := by decide

theorem witness_DecodeOfEncodeIsIdentity :
    Instr.wellFormed (.burst 0xFF 255) = true ∧ Instr.wellFormed (.write 0) = true := by decide

theorem witness_EncodeOfDecodeIsIdentity :
    decode 0x6000FFFF = .ok (.burst 0xFF 255) ∧ decode 0x200000FF = .ok (.write 255) := by decide

theorem witness_WordDecodesToExactlyOneRow :
    decode 0x40000001 = .ok (.setack true) ∧ decode 0x40000002 = .error .operandBits := by decide

theorem witness_DecodeWorkedEncodings : State.reset.busy = false := rfl

theorem witness_IllegalWordsAndTheirOutcome :
    decode 0x00000000 = .error .reservedOp ∧ decode 0x60010000 = .error .reservedBits ∧ State.reset.busy = false := by decide

theorem witness_StepRunsThePresentedCommand :
    (scheduled State.reset [.host (cmdWrite 0x10000001), .engine]).busy = false ∧
    decode 0x10000001 = .ok (.begin .read) ∧
    (scheduled State.reset [.host (cmdWrite 0x10000001), .engine]).inputs = .host (cmdWrite 0x10000001) :: [.engine] := by
  decide

theorem witness_CommandWhileBusyIsDropped : beginning.busy = true := rfl

theorem witness_ChecksOfACommandInOrder :
    beginning.busy = true ∧ State.reset.busy = false ∧ decode 0 = .error .reservedOp ∧
    decode 0x20000009 = .ok (.write 9) ∧ rangeFails State.reset.params (.write 9) = true ∧
    decode 0x6000013B = .ok (.burst 0x3B 1) ∧ rangeFails State.reset.params (.burst 0x3B 1) = true ∧
    decode 0x6000083B = .ok (.burst 0x3B 8) ∧ rangeFails State.reset.params (.burst 0x3B 8) = true ∧
    decode 0x30000000 = .ok .readb ∧ rangeFails State.reset.params .readb = false ∧ phaseFails State.reset .readb = true ∧
    phaseFails (transferring .write) .readb = true ∧ (transferring .write).busy = false ∧
    decode 0x20000008 = .ok (.write 8) ∧ rangeFails State.reset.params (.write 8) = false ∧
    phaseFails State.reset (.write 8) = false := by decide

theorem witness_AcceptanceLatchesTheCommand :
    State.reset.busy = false ∧
    (∀ c ∈ [Instr.begin .read, .write 0, .write 8, .setack false, .burst 0x3B 2, .burst 0x3B 7],
      rangeFails State.reset.params c = false ∧ phaseFails State.reset c = false) ∧
    (transferring .read).busy = false ∧
    (∀ c ∈ [Instr.readb, .stop],
      rangeFails (transferring .read).params c = false ∧ phaseFails (transferring .read) c = false) := by decide

theorem witness_TakingACommandFrame :
    (∀ reg wc, Instr.write 2 ≠ .burst reg wc) ∧ (∀ n, Instr.burst 0x3B 7 ≠ .write n) :=
  ⟨fun _ _ h => Instr.noConfusion h, fun _ h => Instr.noConfusion h⟩

/-- A state ready for a command, with nothing pending or with a Stop pending, and the prompt schedule that follows. -/
theorem witness_BeginCompletes :
    (∃ s : State, s.busy = false ∧ s.phase = .idle ∧ s.preq = [] ∧ s.inputs = promptBegin s.preq ++ []) ∧
    (∃ s : State, s.busy = false ∧ s.phase = .stopped ∧ s.preq = [.stop] ∧ s.inputs = promptBegin s.preq ++ [.engine]) :=
  ⟨⟨scheduled State.reset (promptBegin []), by decide⟩, ⟨scheduled stopPending (promptBegin [.stop] ++ [.engine]), by decide⟩⟩

theorem witness_WriteCompletes :
    (∃ s : State, s.busy = false ∧ s.phase = .idle ∧ s.preq = [] ∧ s.params.legal = true ∧ 0 ≤ s.params.txbufDepth ∧
      s.txbuf.length = s.params.txbufDepth ∧ s.inputs = promptWrite s.preq 0 ++ []) ∧
    (∃ s : State, s.busy = false ∧ s.phase = .stopped ∧ s.preq = [.stop] ∧ s.params.legal = true ∧
      8 = s.params.txbufDepth ∧ s.txbuf.length = s.params.txbufDepth ∧ s.inputs = promptWrite s.preq 8 ++ []) :=
  ⟨⟨scheduled State.reset (promptWrite [] 0), by decide⟩, ⟨scheduled stopPending (promptWrite [.stop] 8), by decide⟩⟩

theorem witness_ReadbCompletes :
    (∃ s : State, s.busy = false ∧ s.phase = .transferring ∧ s.dir = .read ∧ s.rxNotEmpty = true ∧
      s.inputs = [.engine, .engine] ++ []) ∧
    (∃ s : State, s.busy = false ∧ s.phase = .transferring ∧ s.dir = .read ∧ s.rxNotEmpty = false ∧ s.shift = none ∧
      s.preq = [] ∧ s.rxmode = true ∧ s.rxmore = true ∧ s.addrAcked = false ∧
      s.inputs = promptByte s.params.rxPrefetch 0x2A ++ []) :=
  ⟨⟨scheduled { transferring .read with rxNotEmpty := true } [.engine, .engine], by decide⟩,
   ⟨scheduled (transferring .read) (promptByte false 0x2A), by decide⟩⟩

theorem witness_SetackCompletes : ∃ s : State, s.busy = false ∧ s.inputs = .engine :: [] :=
  ⟨scheduled (transferring .read) [.engine], by decide⟩

theorem witness_StopCompletes :
    ∃ s : State, s.busy = false ∧ s.phase = .transferring ∧ s.preq = [] ∧ s.inputs = [.engine, .bus .bStop] ++ [] :=
  ⟨scheduled (transferring .read) [.engine, .bus .bStop], by decide⟩

theorem witness_BurstCompletes :
    (∃ s : State, s.busy = false ∧ s.phase = .idle ∧ s.preq = [] ∧ s.params.legal = true ∧ 2 ≤ s.params.maxWords ∧
      s.ackEn = true ∧ ([0x12, 0x34, 0x56, 0x78] : List Byte).length = 2 * 2 ∧
      s.inputs = promptBurst s.preq s.params.rxPrefetch [0x12, 0x34, 0x56, 0x78] ++ []) ∧
    (∃ s : State, s.busy = false ∧ s.phase = .stopped ∧ s.preq = [.stop] ∧ s.params.legal = true ∧ 7 = s.params.maxWords ∧
      s.ackEn = true ∧ (List.replicate 14 (0xFF : Byte)).length = 2 * 7 ∧
      s.inputs = promptBurst s.preq s.params.rxPrefetch (List.replicate 14 0xFF) ++ []) :=
  ⟨⟨scheduled State.reset (promptBurst [] false [0x12, 0x34, 0x56, 0x78]), by decide⟩,
   ⟨scheduled stopPending (promptBurst [.stop] false (List.replicate 14 0xFF)), by decide⟩⟩

theorem witness_MicroprogramShapes :
    1 ≤ 2 ∧ (uprog (.burst 0x3B 2) []).getLast? = some .commit ∧ (uprog (.write 0) []).getLast? = some .stop := by decide

theorem witness_EngineStepAdvances :
    State.reset.busy = false ∧
    (beginning.busy = true ∧ currentMicro beginning = some .start ∧ MicroOp.isWait .start = false ∧
      beginning.mpc.toNat + 1 < (runningProg beginning).length) ∧
    (committing.busy = true ∧ currentMicro committing = some .commit ∧ MicroOp.isWait .commit = false ∧
      committing.mpc.toNat + 1 = (runningProg committing).length) := by decide

theorem witness_RequestMicroOpEffects : State.reset.preq.length < 2 ∧ stopPending.preq.length < 2 := by decide

theorem witness_RequestIntoFullQueueSetsFault : waitingRestart.preq.length = 2 := by decide

theorem witness_PollOfAWait :
    (let s := { waitingStart 1 0 with preq := [], startSent := true }
     s.busy = true ∧ currentMicro s = some (.wait .startSent) ∧ s.mpc.toNat + 1 < (runningProg s).length ∧
       flagValue .startSent s = true) ∧
    (let s := waitingStart 0 0xFFFF
     flagValue .startSent s = false ∧ (0xFFFF : Half).toNat = Nat.min (s.spin.toNat + 1) 0xFFFF ∧ s.limit = 0) ∧
    (let s := waitingStart 6 4
     flagValue .startSent s = false ∧ (5 : Half).toNat = min (s.spin.toNat + 1) 0xFFFF ∧ (5 : Half).toNat < s.limit.toNat) ∧
    (let s := waitingStart 5 4
     flagValue .startSent s = false ∧ (5 : Half).toNat = min (s.spin.toNat + 1) 0xFFFF ∧ s.limit ≠ 0 ∧
       s.limit.toNat ≤ (5 : Half).toNat) ∧
    flagValue .txEmpty waitingTx = false := by decide

theorem witness_WaitTimesOutAtItsLimit :
    let s := waitingStart 1 0
    s.busy = true ∧ currentMicro s = some (.wait .startSent) ∧ flagValue .startSent s = false ∧ s.spin = 0 ∧ s.limit ≠ 0 ∧
      s.inputs = [] ∧ 0 < s.limit.toNat := by decide

/-- T-T8, and the same with a limit of 12 and of 0. -/
theorem witness_TimeoutWriteReachesTheWaitInProgress :
    (∀ v : Word,
      let s := scheduled (waitingStart 0 10) ([.host (.write 0x0C 4 v), .engine] ++ [])
      s.busy = true ∧ currentMicro s = some (.wait .startSent) ∧ flagValue .startSent s = false ∧
        (11 : Half).toNat = min (s.spin.toNat + 1) 0xFFFF ∧ s.inputs = [.host (.write 0x0C 4 v), .engine] ++ []) ∧
    ((11 : Word).extractLsb' 0 16 ≠ 0 ∧ ((11 : Word).extractLsb' 0 16).toNat ≤ (11 : Half).toNat) ∧
    (11 : Half).toNat < ((12 : Word).extractLsb' 0 16).toNat ∧ (0 : Word).extractLsb' 0 16 = 0 :=
  ⟨fun _ => ⟨rfl, rfl, rfl, rfl, rfl⟩, by decide, by decide, by decide⟩

theorem witness_UnboundedWaitHangs :
    (let s := waitingStart 0 0xFFFF
     s.busy = true ∧ currentMicro s = some (.wait .startSent) ∧ flagValue .startSent s = false ∧ s.limit = 0) ∧
    (∃ t, applyEvent .engine (waitingStart 0 10) = .next t ∧ flagValue .startSent t = false) ∧
    (∃ t, applyEvent (.host (cmdWrite 0)) (waitingStart 0 10) = .next t ∧ flagValue .startSent t = false) ∧
    IsRun (fun _ => .engine) (fun _ => waitingStart 0 0xFFFF) :=
  ⟨by decide, ⟨_, rfl, rfl⟩, ⟨_, rfl, rfl⟩, fun _ => rfl, fun _ h => Event.noConfusion h⟩

/-- A Start still queued behind a Stop, and a READB past its Start. -/
theorem witness_TimeoutAbortsTheCommand :
    (let s := waitingRestart
     s.busy = true ∧ s.cur = some (.burst 0x3B 2) ∧ currentMicro s = some (.wait .startSent) ∧
       flagValue .startSent s = false ∧ s.limit ≠ 0 ∧ s.limit.toNat ≤ min (s.spin.toNat + 1) 0xFFFF ∧
       Request.start ∈ s.preq ∧ (s.preq.filter (fun q => decide (q = .stop))).length < 2) ∧
    (let s := { waitingByte with limit := 2, spin := 1 }
     s.busy = true ∧ s.cur = some .readb ∧ currentMicro s = some (.wait .rxNotEmpty) ∧
       flagValue .rxNotEmpty s = false ∧ s.limit ≠ 0 ∧ s.limit.toNat ≤ min (s.spin.toNat + 1) 0xFFFF ∧
       Request.start ∉ s.preq ∧ (s.preq.filter (fun q => decide (q = .stop))).length < 2) := by decide

theorem witness_AbortLeavesARecoverableState :
    waitingRestart.inv = true ∧ waitingRestart.busy = true ∧ waitingRestart.cur = some (.burst 0x3B 2) ∧
    ∃ t, engineStep waitingRestart = .next t ∧ t.err = .busTimeout := ⟨by decide, rfl, rfl, _, rfl, rfl⟩

theorem witness_TimeoutAndFlagInBothOrders :
    let s := waitingStart 1 0
    s.busy = true ∧ currentMicro s = some (.wait .startSent) ∧ s.mpc.toNat + 1 < (runningProg s).length ∧
      s.startSent = false ∧ s.preq = [.start] ∧ s.limit = 1 ∧ s.spin = 0 ∧
      (scheduled s [.bus .bStart, .engine]).inputs = [.bus .bStart, .engine] ++ [] ∧
      (scheduled s [.engine, .bus .bStart]).inputs = [.engine, .bus .bStart] ++ [] := by decide

theorem witness_BusPerformsTheHeadRequest :
    (waitingStart 0 0).preq = .start :: [] ∧ waitingTx.preq = .tx 0x6B :: [] ∧ waitingRestart.preq = .stop :: [.start] ∧
    ({ State.reset with preq := [.addr 0xD0] } : State).preq = .addr 0xD0 :: [] ∧ (0xD0 : Byte).getLsbD 0 = false ∧
    ({ State.reset with preq := [.addr 0xD1] } : State).preq = .addr 0xD1 :: [] ∧ (0xD1 : Byte).getLsbD 0 = true ∧
    State.reset.preq.head? ≠ some .start ∧ (waitingStart 0 0).preq.head? ≠ some .stop ∧
    (∀ b, stopPending.preq.head? ≠ some (.addr b)) ∧ (∀ b, stopPending.preq.head? ≠ some (.tx b)) := by decide

theorem witness_BusReceivesAByte :
    (let s := transferring .read
     s.params.rxPrefetch = false ∧ s.preq = [] ∧ s.rxmode = true ∧ s.rxmore = true ∧ s.addrAcked = false ∧
       s.rxNotEmpty = false) ∧
    (let s := { transferring .read with rxNotEmpty := true }
     s.params.rxPrefetch = false ∧
       ¬(s.preq = [] ∧ s.rxmode = true ∧ s.rxmore = true ∧ s.addrAcked = false ∧ s.rxNotEmpty = false)) ∧
    (let s := { transferring .read with params := { Params.standard with rxPrefetch := true } }
     s.params.rxPrefetch = true ∧ s.preq = [] ∧ s.rxmode = true ∧ s.rxmore = true ∧ s.addrAcked = false ∧ s.shift = none) ∧
    (let s := { transferring .read with params := { Params.standard with rxPrefetch := true }, shift := some (0x34, true) }
     s.params.rxPrefetch = true ∧ s.shift = some (0x34, true) ∧ s.rxNotEmpty = false ∧
       ¬(s.preq = [] ∧ s.rxmode = true ∧ s.rxmore = true ∧ s.addrAcked = false ∧ s.shift = none)) := by decide

theorem witness_BusStepFrame :
    (busStep (.bRx 0x2A) (transferring .read)).trace = (transferring .read).trace ++ [.rx 0x2A true] := by decide

theorem witness_StatusFields :
    ((waitingStart 0 0).busy = true ∧ currentMicro (waitingStart 0 0) = some (.wait .startSent)) ∧
    (beginning.busy = true ∧ currentMicro beginning = some .start ∧ MicroOp.isWait .start = false) ∧
    State.reset.busy = false := by decide

theorem witness_ReadsHaveNoSideEffect : (0 : Nat) < 0x100 ∧ 0 % 4 = 0 ∧ 0xFC < 0x100 ∧ 0xFC % 4 = 0 := by decide

theorem witness_UnsupportedAccessIsRefused :
    ((0 : Nat) < 0x100 ∧ 1 ≠ 4) ∧ (6 < 0x100 ∧ 6 % 4 ≠ 0) ∧ (0xFF < 0x100 ∧ 0xFF % 4 ≠ 0) := by decide

theorem witness_ReservedAndReadOnlyOffsets :
    State.reset.params.legal = true ∧
    (∀ off ∈ [0x30, 0x3C], off < 0x100 ∧ off % 4 = 0 ∧ 0x10 + 4 * State.reset.params.txbufDepth ≤ off ∧ off < 0x40) ∧
    (∀ off ∈ [0x5C, 0xFC], off < 0x100 ∧ off % 4 = 0 ∧ 0x40 + 4 * State.reset.params.maxWords ≤ off) ∧
    (∀ off ∈ [0x40, 0x58], off < 0x100 ∧ off % 4 = 0 ∧ 0x40 ≤ off ∧ off < 0x40 + 4 * State.reset.params.maxWords) := by decide

theorem witness_WritableRegistersStoreTheirBits :
    State.reset.params.legal = true ∧ State.reset.txbuf.length = State.reset.params.txbufDepth ∧
    7 < State.reset.params.txbufDepth ∧ 6 < State.reset.params.maxWords := by decide

theorem witness_HostCannotTouchTheBus :
    beginning.busy = true ∧ ∃ t, hostStep (.write 0x0C 4 5) beginning = .next t := ⟨rfl, _, rfl⟩

theorem witness_ResetMeetsTheInvariants :
    Params.legal ⟨1, 2, true⟩ = true ∧ Params.legal ⟨12, 48, false⟩ = true := by decide

theorem witness_StepKeepsTheInvariant :
    waitingRestart.inv = true ∧ (∃ t, step waitingRestart = .next t) ∧
    waitingTx.inv = true ∧ (∃ t, step (scheduled waitingTx [.bus .bTx]) = .next t) :=
  ⟨by decide, ⟨_, rfl⟩, by decide, ⟨_, rfl⟩⟩

theorem witness_StepKeepsTheBurstData :
    (burstAt 16 bytesB2.dropLast 1).inv = true ∧ committing.inv = true ∧ committing.dataInv = true ∧
    ∃ t, step committing = .next t := ⟨by decide, by decide, by decide, _, rfl⟩

theorem witness_InvariantGivesTheRulesOfState :
    (waitingRestart.inv = true ∧ waitingRestart.phase = .started ∧ waitingRestart.preq.length = 2) ∧
    (let s := { transferring .read with rxNotEmpty := true }
     s.inv = true ∧ s.busy = false ∧ s.rxNotEmpty = true) := by decide

theorem witness_OnlyAccessesOutsideStop :
    committing.inv = true ∧ (scheduled State.reset [.host (.read 0x100 4)]).inv = true := by decide

theorem witness_StepKeepsTheParameters : ∃ t, step (scheduled committing [.reset]) = .next t := ⟨_, rfl⟩

theorem witness_WritersOfResultAndRxdata :
    (∃ t, applyEvent .engine committing = .next t ∧ t.result ≠ committing.result ∧ committing.resultValid = false ∧
      t.resultValid = true) ∧
    (∃ t, applyEvent .engine { waitingByte with mpc := 1, rxNotEmpty := true, dr := 0x2A } = .next t ∧
      t.rxdata ≠ waitingByte.rxdata) := ⟨⟨_, rfl, by decide⟩, ⟨_, rfl, by decide⟩⟩

theorem witness_WritersOfPhaseDirAndAck :
    (∃ t, applyEvent .engine beginning = .next t ∧ t.phase ≠ beginning.phase) ∧
    (∃ t, applyEvent .engine { beginning with mpc := 2, startSent := true, cur := some (.begin .read) } = .next t ∧
      t.dir ≠ beginning.dir) ∧
    (∃ t, applyEvent .engine { State.reset with busy := true, cur := some (.setack false) } = .next t ∧
      t.ackEn ≠ State.reset.ackEn) := ⟨⟨_, rfl, by decide⟩, ⟨_, rfl, by decide⟩, ⟨_, rfl, by decide⟩⟩

theorem witness_WritersOfErrTmoWhereAndOverrun :
    (∃ t, applyEvent (.host (cmdWrite 0)) State.reset = .next t ∧ t.err ≠ State.reset.err) ∧
    (∃ t, applyEvent .engine waitingRestart = .next t ∧ t.tmoWhere ≠ waitingRestart.tmoWhere) ∧
    (∃ t, applyEvent (.host (cmdWrite 0)) beginning = .next t ∧ beginning.cmdOvr = false ∧ t.cmdOvr = true) ∧
    (∃ t, applyEvent (.host (cmdWrite 0)) { State.reset with cmdOvr := true } = .next t ∧ t.cmdOvr = false) :=
  ⟨⟨_, rfl, by decide⟩, ⟨_, rfl, by decide⟩, ⟨_, rfl, by decide⟩, ⟨_, rfl, by decide⟩⟩

theorem witness_BurstEndsWithAckEnabled :
    (∃ t, committing.inv = true ∧ applyEvent .engine committing = .next t ∧ committing.busy = true ∧
      committing.cur = some (.burst 0x3B 2) ∧ t.busy = false ∧ t.err = .none) ∧
    (∃ t, waitingRestart.inv = true ∧ applyEvent .engine waitingRestart = .next t ∧ waitingRestart.busy = true ∧
      waitingRestart.cur = some (.burst 0x3B 2) ∧ t.busy = false ∧ t.err = .busTimeout) :=
  ⟨⟨_, by decide, rfl, by decide⟩, ⟨_, by decide, rfl, by decide⟩⟩

theorem witness_PublishedReadingIsTheBytesReceived :
    committing.inv = true ∧ committing.dataInv = true ∧ committing.resultValid = false ∧
    committing.params.rxPrefetch = false ∧ ∃ t, step committing = .next t ∧ t.resultValid = true :=
  ⟨by decide, by decide, rfl, rfl, _, rfl, rfl⟩

theorem witness_BurstWithAckDisabledTimesOut :
    ∃ s : State, s.busy = false ∧ s.phase = .idle ∧ s.preq = [] ∧ s.params.legal = true ∧ 2 ≤ s.params.maxWords ∧
      s.ackEn = false ∧ s.limit ≠ 0 ∧
      s.inputs = promptBegin s.preq ++ promptTx ++ [.engine] ++ promptBegin [.stop] ++ promptByte s.params.rxPrefetch 0x11
        ++ List.replicate s.limit.toNat .engine ++ [] :=
  ⟨scheduled { State.reset with ackEn := false, limit := 5 }
    (promptBegin [] ++ promptTx ++ [.engine] ++ promptBegin [.stop] ++ promptByte false 0x11 ++ List.replicate 5 .engine),
   by decide⟩

/-- The schedule of T-B12. -/
def prefetchSchedule : List Event :=
  promptBegin [] ++ promptTx ++ [.engine] ++ promptBegin [.stop] ++ earlyShifts 0x12 0x34 0x56 0x78 0x99

theorem witness_PrefetchAcksTheLastByte :
    let s := scheduled { State.reset with params := { Params.standard with rxPrefetch := true } } prefetchSchedule
    s.busy = false ∧ s.phase = .idle ∧ s.preq = [] ∧ s.params.legal = true ∧ s.params.rxPrefetch = true ∧
      s.ackEn = true ∧
      s.inputs = promptBegin s.preq ++ promptTx ++ [.engine] ++ promptBegin [.stop] ++ earlyShifts 0x12 0x34 0x56 0x78 0x99
        ++ [] :=
  ⟨rfl, rfl, rfl, rfl, rfl, rfl, rfl⟩

theorem witness_HostDrivenReadRace :
    let s := transferring .read
    s.inv = true ∧ s.busy = false ∧ s.phase = .transferring ∧ s.dir = .read ∧ s.params.rxPrefetch = false ∧
      s.ackEn = true ∧ s.rxmore = true ∧ s.rxNotEmpty = false ∧
      (scheduled s ([.host (cmdWrite (encode (.setack false))), .engine, .bus (.bRx 0x68), .host (cmdWrite (encode .readb)),
        .engine, .engine, .host (cmdWrite (encode .stop)), .engine, .bus .bStop])).inputs.length = 9 ∧
      (scheduled s ([.bus (.bRx 0x68), .host (cmdWrite (encode (.setack false))), .engine, .host (cmdWrite (encode .readb)),
        .engine, .engine, .bus (.bRx 0x11), .host (cmdWrite (encode .stop)), .engine, .bus .bStop])).inputs.length = 10 := by
  decide

/-- 11 ENGINE steps for a BEGIN with LIMIT = 4: 5 + 2·(4 − 1) (program P3). -/
theorem witness_BoundedWaitsEndEveryCommand :
    let s := scheduled { beginning with limit := 4 } (List.replicate 11 .engine ++ [.host (.read 0x04 4), .bus .bStart])
    s.inv = true ∧ s.busy = true ∧ s.mpc = 0 ∧ s.spin = 0 ∧ s.limit ≠ 0 ∧ (∀ e ∈ s.inputs, e.keepsLimit = true) ∧
      engineBound (runningProg s) s.limit.toNat ≤ s.inputs.countP (fun e => decide (e = .engine)) := by decide

/-! A fair, responsive run: a READB whose byte comes, NACKed, so that BUS has no step left afterwards. -/

/-- The READB accepted. -/
def served0 : State := { waitingByte with ackEn := false }
/-- The byte delivered. -/
def served1 : State := busStep (.bRx 0x2A) served0
/-- The wait passed. -/
def served2 : State := { served1 with mpc := 1 }
/-- The byte taken, and every state after. -/
def served3 : State := endCommand (microRxb served2)

/-- BUS delivers the byte, then ENGINE steps. -/
def servedSched (k : Nat) : Event :=
  match k with
  | 0 => .bus (.bRx 0x2A)
  | _ => .engine

/-- The states of the run. -/
def servedStates (k : Nat) : State :=
  match k with
  | 0 => served0
  | 1 => served1
  | 2 => served2
  | _ => served3

theorem served_isRun : IsRun servedSched servedStates where
  steps := fun k =>
    match k with
    | 0 => rfl
    | 1 => rfl
    | 2 => rfl
    | _ + 3 => rfl
  noReset := fun k =>
    match k with
    | 0 => by decide
    | _ + 1 => fun h => Event.noConfusion h

theorem served_fair : EngineFair servedSched servedStates := fun k _ => ⟨k + 1, Nat.le_succ k, rfl⟩

theorem served3_quiet (m : BusMove) : busEnabled m served3 = false := by cases m <;> rfl

theorem served_responsive : BusResponsive servedSched servedStates where
  fair := fun m k h => by
    have h3 := h (k + 3) (by omega)
    rw [show servedStates (k + 3) = served3 from rfl, served3_quiet] at h3
    exact absurd h3 (by decide)
  acks := fun k =>
    match k with
    | 0 => by decide
    | _ + 1 => fun h => Event.noConfusion h

theorem witness_ResponsiveBusEndsEveryCommand :
    (servedStates 0).inv = true ∧ (servedStates 0).dataInv = true ∧ (servedStates 0).busy = true ∧
    (servedStates 0).cur = some .readb ∧ (servedStates 0).mpc = 0 ∧ canBeServed .readb (servedStates 0) = true ∧
    IsRun servedSched servedStates ∧ EngineFair servedSched servedStates ∧ BusResponsive servedSched servedStates ∧
    (∀ k, (servedStates k).limit = 0) :=
  ⟨by decide, by decide, rfl, rfl, rfl, by decide, served_isRun, served_fair, served_responsive,
   fun k =>
    match k with
    | 0 => rfl
    | 1 => rfl
    | 2 => rfl
    | _ + 3 => rfl⟩

end Sys2Proof.Tests
end

section
/-! PROOFS. The statements of 00_scope.md: how a step presents a command to the block. -/

namespace Sys2Proof.Machine

open Host

/-- A HOST event is a HOST step (R69). -/
theorem applyEvent_host (a : Access) (s : State) : applyEvent (.host a) s = hostStep a s := rfl

/-- A CMD write of a word that decodes takes its command when BUSY = 0 (R120). -/
theorem presentWord_of_ok {w : Word} {i : Instr} {s : State} (hb : s.busy = false) (hd : decode w = .ok i) :
    presentWord w s = exec i s := by
  simp [presentWord, hb, hd]

/-- Settles O7: the step is the scheduled HOST step, which presents its word, and with BUSY = 0 a word that decodes is taken. -/
theorem stepRunsThePresentedCommand : Obligations.StepRunsThePresentedCommand := by
  intro s w i es hbusy hdec hin
  have hbusy' : (s.withInputs es).busy = false := (withInputs_busy es s).trans hbusy
  calc step s = applyEvent (.host (cmdWrite w)) (s.withInputs es) := step_of_cons hin
    _ = hostStep (cmdWrite w) (s.withInputs es) := applyEvent_host _ _
    _ = presentWord w (s.withInputs es) := hostStep_cmdWrite _ _
    _ = exec i (s.withInputs es) := presentWord_of_ok hbusy' hdec

end Sys2Proof.Machine
end

section
/-! PROOFS. The statements of 10_state.md: what each agent's step can do, one inversion per agent. -/

namespace Sys2Proof.Machine
open Host

/-- R122's range of LEN, as the meaning and as the statements write it. -/
theorem lenInRange_eq (p : Params) (n : Nat) : lenInRange p n = !rangeFails p (.write n) := by
  rw [Bool.eq_iff_iff]
  simp [lenInRange, rangeFails]

/-- R122's range of WC, as the meaning and as the statements write it. -/
theorem wcInRange_eq (p : Params) (r : Byte) (wc : Nat) : wcInRange p wc = !rangeFails p (.burst r wc) := by
  rw [Bool.eq_iff_iff]
  simp [wcInRange, rangeFails]
  omega

/-- R123's phases of BEGIN, WRITE and BURST, as the statements write them. -/
theorem phaseClosed_eq (s : State) : phaseClosed s = (s.phase == .idle || s.phase == .stopped) := rfl

/-- Every command is taken by `present` with the checks of R122 and R123, and what it latches gives the accepted state (R120). -/
theorem exec_eq_present_checks (c : Instr) (s : State) :
    ∃ latch, exec c s = .next (present c (!rangeFails s.params c) (!phaseFails s c) latch s) ∧
      latch (accept c (clearOutcome s)) = acceptedState c s := by
  cases c with
  | begin d => exact ⟨id, by simp [exec, execBegin, phaseClosed_eq, rangeFails, phaseFails], rfl⟩
  | write n => exact ⟨latchPayload n, by simp [exec, execWrite, lenInRange_eq, phaseClosed_eq, phaseFails], rfl⟩
  | readb => exact ⟨id, by simp [exec, execReadb, phaseReading, rangeFails, phaseFails]; rfl, rfl⟩
  | setack e => exact ⟨id, rfl, rfl⟩
  | stop => exact ⟨id, by simp [exec, execStop, phaseTransferring, rangeFails, phaseFails]; rfl, rfl⟩
  | burst r wc => exact ⟨openBurst, by simp [exec, execBurst, wcInRange_eq s.params r, phaseClosed_eq, phaseFails], rfl⟩

/-- What a HOST step inside the window can do: a store, a mark or a recorded read, an overrun, a rejection, or the acceptance of
a command (R69, R120, R121). -/
inductive HostEffect (a : Access) (s : State) : State → Prop where
  | quiet (limit : Half) (txbuf : List Byte) (refused : Bool) (reads : List HostRead) (hlen : txbuf.length = s.txbuf.length) :
      HostEffect a s { s with limit := limit, txbuf := txbuf, refused := refused, reads := reads }
  | overrun (w : Word) (ha : a = cmdWrite w) (hb : s.busy = true) : HostEffect a s (overrun s)
  | rejected (w : Word) (e : ErrCode) (ha : a = cmdWrite w) (hb : s.busy = false) (he : e ≠ .busTimeout) :
      HostEffect a s (reject e (clearOutcome s))
  | accepted (w : Word) (c : Instr) (ha : a = cmdWrite w) (hb : s.busy = false) (hr : rangeFails s.params c = false)
      (hp : phaseFails s c = false) : HostEffect a s (acceptedState c s)

/-- Every HOST step that answers a next state has one of these effects. -/
theorem hostEffect_of_step {a : Access} {s t : State} (h : hostStep a s = .next t) : HostEffect a s t := by
  obtain ⟨-, rfl | ⟨off, -, rfl⟩ | ⟨w, ha, hw⟩ | ⟨v, -, rfl⟩ | ⟨off, v, i, -, -, rfl⟩ | rfl⟩ := hostStep_cases h
  · exact .quiet s.limit s.txbuf true s.reads rfl
  · exact .quiet s.limit s.txbuf s.refused _ rfl
  · rcases presentWord_cases w s with ⟨hb, e⟩ | ⟨hb, -, e⟩ | ⟨hb, c, -, e⟩
    · cases hw.symm.trans e
      exact .overrun w ha hb
    · cases hw.symm.trans e
      exact .rejected w .illegalCmd ha hb (by decide)
    · obtain ⟨latch, hx, hl⟩ := exec_eq_present_checks c s
      cases hw.symm.trans (e.trans hx)
      rcases present_cases c (!rangeFails s.params c) (!phaseFails s c) latch s with
        ⟨h1, -⟩ | ⟨-, -, e⟩ | ⟨-, -, -, e⟩ | ⟨-, hr, hp, e⟩
      · simp [hb] at h1
      · exact e ▸ .rejected w .badLength ha hb (by decide)
      · exact e ▸ .rejected w .sequence ha hb (by decide)
      · exact e ▸ hl ▸ .accepted w c ha hb (by simpa using hr) (by simpa using hp)
  · exact .quiet _ s.txbuf s.refused s.reads rfl
  · exact .quiet s.limit _ s.refused s.reads (by simp)
  · exact .quiet t.limit t.txbuf t.refused t.reads rfl

/-- A µop that returns Advance: every one but a wait, and a wait whose flag is 1 (R127, R128 to R134). -/
def Advances (u : MicroOp) (s : State) : Prop := ∀ f, u = .wait f → flagValue f s = true

/-- The sequencer advances past such a µop. -/
theorem runMicro_verdict_of_advances {u : MicroOp} {s : State} (h : Advances u s) : (runMicro u s).2 = .advance := by
  cases u with
  | wait f => simp [runMicro, microWait_of_set (h f rfl)]
  | _ => rfl

/-- What an ENGINE step at µop `u` can do: run the µop and end the command or move on, fail a poll, or abort (R125, R127). -/
inductive EngineEffect (s : State) : State → Prop where
  | idle (hb : s.busy = false) : EngineEffect s s
  | ended (u : MicroOp) (hb : s.busy = true) (hu : currentMicro s = some u) (ha : Advances u s)
      (hlast : s.mpc.toNat + 1 = (runningProg s).length) : EngineEffect s (endCommand (runMicro u s).1)
  | moved (u : MicroOp) (hb : s.busy = true) (hu : currentMicro s = some u) (ha : Advances u s)
      (hmore : s.mpc.toNat + 1 < (runningProg s).length) :
      EngineEffect s { (runMicro u s).1 with mpc := s.mpc + 1 }
  | stayed (f : WaitFlag) (hb : s.busy = true) (hu : currentMicro s = some (.wait f)) (hf : flagValue f s = false) :
      EngineEffect s { s with spin := spinAfterFail s.spin }
  | aborted (f : WaitFlag) (hb : s.busy = true) (hu : currentMicro s = some (.wait f)) (hf : flagValue f s = false) :
      EngineEffect s (abort f { s with spin := spinAfterFail s.spin })

/-- Every ENGINE step that answers a next state has one of these effects. -/
theorem engineEffect_of_step {s t : State} (h : engineStep s = .next t) : EngineEffect s t := by
  obtain ⟨hb, rfl⟩ | ⟨hb, u, hu, rfl⟩ := engineStep_cases h
  · exact .idle hb
  · by_cases ha : Advances u s
    · obtain ⟨-, -, hm, -⟩ := runMicro_keeps u s
      rw [applyVerdict, runMicro_verdict_of_advances ha]
      by_cases hlast : s.mpc.toNat + 1 = (runningProg s).length
      · exact advance_of_last (hm.symm ▸ hlast) ▸ .ended u hb hu ha hlast
      · have hlt := (List.getElem?_eq_some_iff.mp hu).1
        have e := advance_of_more (s := (runMicro u s).1) (len := (runningProg s).length) (by rw [hm]; exact hlast)
        rw [hm] at e
        exact e ▸ .moved u hb hu ha (by omega)
    · obtain ⟨f, rfl, hf⟩ : ∃ f, u = .wait f ∧ flagValue f s = false := by simpa [Advances] using ha
      have e := (engineStep_of_micro hb hu).symm.trans (engineStep_of_failedPoll hb hu hf)
      rw [Outcome.next.inj e]
      split
      · exact .aborted f hb hu hf
      · exact .stayed f hb hu hf

end Sys2Proof.Machine
end

section
/-! PROOFS. The statements of 10_state.md: the registers and reset. -/

namespace Sys2Proof.Machine
open Host

/-- The one bit of a flag's field. -/
theorem getLsbD_ofBool_eq_ite (b : Bool) (i : Nat) : (BitVec.ofBool b).getLsbD i = if i < 1 then b else false := by
  rw [BitVec.getLsbD_ofBool]
  rcases i with _ | i <;> simp

/-- Every bit of STATUS, field by field (R34). -/
theorem statusWord_getLsbD (s : State) (i : Nat) :
    (statusWord s).getLsbD i =
      if i < 1 then s.busy
      else if i < 2 then s.resultValid
      else if i < 3 then s.ackEn
      else if i < 4 then s.dir.bit
      else if i < 7 then s.phase.code.getLsbD (i - 4)
      else if i < 8 then s.cmdOvr
      else if i < 12 then s.err.code.getLsbD (i - 8)
      else if i < 15 then (waitField s).getLsbD (i - 12)
      else if i < 16 then false
      else if i < 24 then s.bytes.getLsbD (i - 16)
      else false := by
  change (0#8 ++ (s.bytes ++ (0#1 ++ (waitField s ++ (s.err.code ++ (BitVec.ofBool s.cmdOvr ++ (s.phase.code ++
    (BitVec.ofBool s.dir.bit ++ (BitVec.ofBool s.ackEn ++ (BitVec.ofBool s.resultValid ++
      BitVec.ofBool s.busy))))))))) :
        BitVec (8 + (8 + (1 + (3 + (4 + (1 + (3 + (1 + (1 + (1 + 1))))))))))).getLsbD i = _
  simp only [BitVec.getLsbD_append, BitVec.getLsbD_zero, getLsbD_ofBool_eq_ite]
  rcases Nat.lt_or_ge i 8 with h | h
  · grind
  · grind

/-- A write to STATUS is ignored (R34, R64). -/
theorem hostStep_write_status (v : Word) (s : State) : hostStep (.write 0x04 4 v) s = .next s := by
  simp [hostStep, Access.offset, Config.windowBytes, memWrite, accessSupported, writeReg, txbufIndex]

/-- While a command runs, STATUS.WAIT is the flag of the WAIT it stands at (R30). -/
theorem waitField_of_wait {s : State} {f : WaitFlag} (hb : s.busy = true) (hu : currentMicro s = some (.wait f)) :
    waitField s = f.code := by
  simp [waitField, hb, hu]

/-- STATUS.WAIT is 0 at every other µop (R30). -/
theorem waitField_of_notWait {s : State} {u : MicroOp} (hb : s.busy = true) (hu : currentMicro s = some u)
    (hw : u.isWait = false) : waitField s = 0 := by
  cases u with
  | wait f => cases hw
  | _ => simp [waitField, hb, hu]

/-- Between commands STATUS.WAIT is the flag of the last timeout (R30). -/
theorem waitField_of_idle {s : State} (hb : s.busy = false) :
    waitField s = (s.tmoWhere.map WaitFlag.code).getD 0 := by
  rw [waitField, hb]
  cases s.tmoWhere <;> rfl

/-- Settles O34: the bits of STATUS read off one by one, and WAIT in the three situations of R30. -/
theorem statusFields : Obligations.StatusFields := by
  refine ⟨fun s => ⟨rfl, fun v => hostStep_write_status v s, statusWord_getLsbD s 0, statusWord_getLsbD s 1,
    statusWord_getLsbD s 2, statusWord_getLsbD s 3, ?phase, statusWord_getLsbD s 7, ?err, ?wait, statusWord_getLsbD s 15,
    ?bytes, ?upper, fun f => waitField_of_wait, fun u => waitField_of_notWait, waitField_of_idle⟩, by decide, rfl, rfl, rfl⟩
  all_goals
    ext i hi
    rw [BitVec.getElem_extractLsb', statusWord_getLsbD]
  all_goals grind

/-- The low `k` bits of a word, zero-extended, are what a mask of `k` ones keeps. -/
theorem setWidth_extractLsb'_zero (v : Word) (k : Nat) (hk : k ≤ 32) :
    (v.extractLsb' 0 k).setWidth 32 = v &&& BitVec.ofNat 32 (2 ^ k - 1) := by
  have h2 : 2 ^ k ≤ 2 ^ 32 := Nat.pow_le_pow_right (by decide) hk
  have h1 : 0 < 2 ^ k := Nat.two_pow_pos k
  have hm : 2 ^ k - 1 < 2 ^ 32 := by omega
  have hv := Nat.mod_lt v.toNat h1
  apply BitVec.eq_of_toNat_eq
  rw [BitVec.toNat_and, BitVec.toNat_ofNat, Nat.mod_eq_of_lt hm, Nat.and_two_pow_sub_one_eq_mod, BitVec.toNat_setWidth,
    BitVec.extractLsb'_toNat, Nat.shiftRight_zero, Nat.mod_eq_of_lt (by omega)]

/-- An aligned offset of TXBUF names its register (R61). -/
theorem txbufIndex_of_lt {s : State} {i : Nat} (h : i < s.params.txbufDepth) : txbufIndex s (0x10 + 4 * i) = some i := by
  rw [txbufIndex, if_pos (by omega), Nat.add_sub_cancel_left, Nat.mul_div_cancel_left i (by decide)]

/-- An aligned offset of RESULT names its register (R61). -/
theorem resultIndex_of_lt {s : State} {i : Nat} (h : i < s.params.maxWords) : resultIndex s (0x40 + 4 * i) = some i := by
  rw [resultIndex, if_pos (by omega), Nat.add_sub_cancel_left, Nat.mul_div_cancel_left i (by decide)]

/-- Above TXBUF no offset names one of its registers. -/
theorem txbufIndex_of_ge {s : State} {off : Nat} (h : 0x10 + 4 * s.params.txbufDepth ≤ off) : txbufIndex s off = none := by
  rw [txbufIndex, if_neg (by omega)]

/-- A read of TXBUF[i] (R37, R69). -/
theorem readReg_txbuf {s : State} {i : Nat} (h : i < s.params.txbufDepth) :
    readReg s (0x10 + 4 * i) = (s.txbuf.getD i 0).setWidth 32 := by
  simp only [readReg, txbufIndex_of_lt h]
  rw [if_neg (by omega), if_neg (by omega), if_neg (by omega), if_neg (by omega)]

/-- A read of RESULT[i] (R38, R69); TXBUF ends below it. -/
theorem readReg_result {s : State} {i : Nat} (hd : s.params.txbufDepth ≤ 12) (h : i < s.params.maxWords) :
    readReg s (0x40 + 4 * i) = (s.result.getD i 0).setWidth 32 := by
  simp only [readReg, txbufIndex_of_ge (s := s) (off := 0x40 + 4 * i) (by omega), resultIndex_of_lt h]
  rw [if_neg (by omega), if_neg (by omega), if_neg (by omega), if_neg (by omega)]

/-- A write of TXBUF[i] (R37, R69). -/
theorem hostStep_write_txbuf {s : State} {i : Nat} (v : Word) (hd : s.params.txbufDepth ≤ 12) (h : i < s.params.txbufDepth) :
    hostStep (.write (0x10 + 4 * i) 4 v) s = .next { s with txbuf := s.txbuf.set i (v.setWidth 8) } := by
  have hw : ¬ Config.windowBytes ≤ 0x10 + 4 * i := by rw [Config.windowBytes]; omega
  have ha : accessSupported (0x10 + 4 * i) 4 = true := by simp [accessSupported]
  simp only [hostStep, Access.offset, hw, if_false, memWrite, ha, if_true, writeReg, txbufIndex_of_lt h]
  rw [if_neg (by omega), if_neg (by omega)]

/-- Settles O38: each register's index is found from its offset, and the store and the read of it are the rules of R69. -/
theorem writableRegistersStoreTheirBits : Obligations.WritableRegistersStoreTheirBits := by
  intro s v hp hl
  simp only [Params.legal, Bool.and_eq_true, decide_eq_true_eq] at hp
  obtain ⟨⟨⟨-, hd⟩, -⟩, -⟩ := hp
  refine ⟨⟨rfl, setWidth_extractLsb'_zero v 16 (by decide)⟩, fun i hi => ⟨hostStep_write_txbuf v hd hi, ?_⟩, rfl,
    fun i hi => readReg_result hd hi⟩
  have hlen : i < s.txbuf.length := hl.symm ▸ hi
  refine (readReg_txbuf (s := { s with txbuf := s.txbuf.set i (v.extractLsb' 0 8) }) hi).trans ?_
  simpa [hlen] using setWidth_extractLsb'_zero v 8 (by decide)

/-- Settles O40: the step is the reset state of R53, whatever the state before. -/
theorem resetSetsEveryElement : Obligations.ResetSetsEveryElement :=
  fun s => ⟨resetStep s, rfl, by simp [resetStep, State.afterReset, Config.timeoutReset]⟩

/-- Every element at its reset value meets the invariant, whatever steps are to come. -/
theorem afterReset_inv {p : Params} (es : List Event) (hp : p.legal = true) : (State.afterReset p es).inv = true := by
  refine (inv_iff _).mpr ⟨?_, rfl, rfl, rfl, .inr ⟨rfl, rfl, rfl, rfl, rfl⟩⟩
  simp [sizesOk, State.afterReset, hp]

/-- Settles O42: no command runs at reset, so the data invariant has nothing to say. -/
theorem resetMeetsTheInvariants : Obligations.ResetMeetsTheInvariants :=
  ⟨afterReset_inv [] rfl, rfl, fun _ es hp => ⟨afterReset_inv es hp, rfl⟩⟩

end Sys2Proof.Machine
end

section
/-! PROOFS. The statements of 10_state.md: who writes what. -/

namespace Sys2Proof.Machine
open Host

/-- What a BUS step leaves alone (R85). -/
theorem busStep_frame (m : BusMove) (s : State) :
    busStep m s =
      { s with
        startSent := (busStep m s).startSent
        addrAcked := (busStep m s).addrAcked
        rxNotEmpty := (busStep m s).rxNotEmpty
        preq := (busStep m s).preq
        dr := (busStep m s).dr
        rxmode := (busStep m s).rxmode
        rxmore := (busStep m s).rxmore
        shift := (busStep m s).shift
        trace := (busStep m s).trace } := by
  rcases busStep_cases m s with h | ⟨-, -, h⟩ | ⟨_, _, _, -, -, h⟩ | ⟨_, _, -, -, h⟩ | ⟨-, -, h⟩ | ⟨_, -, -, -, -, h⟩ |
      ⟨_, -, -, -, -, h⟩ | ⟨_, _, -, -, -, -, h⟩ <;>
    rw [h] <;> rfl

/-! ### What a µop writes -/

/-- A poll writes SPIN only (R127). -/
theorem runMicro_wait (f : WaitFlag) (s : State) : ∃ n, (runMicro (.wait f) s).1 = { s with spin := n } := by
  unfold runMicro microWait
  dsimp only
  split
  · exact ⟨0, rfl⟩
  · split <;> exact ⟨spinAfterFail s.spin, rfl⟩

/-- What the µops write besides the requests and the bus-side flags: each field, with the µops that write it
(R128 to R134, R175 to R181). -/
theorem runMicro_writes (u : MicroOp) (s : State) :
    (runMicro u s).1.result = (if u = .commit then s.work else s.result) ∧
    (runMicro u s).1.resultValid = (decide (u = .commit) || s.resultValid) ∧
    (runMicro u s).1.rxdata = (if u = .rxb then s.dr else s.rxdata) ∧
    (runMicro u s).1.bytes = (if u.takesByte then s.bytes + 1 else s.bytes) ∧
    (runMicro u s).1.widx = (if u.endsWord then s.widx + 1 else s.widx) ∧
    (runMicro u s).1.work = (if u.endsWord then s.work.set s.widx.toNat (runMicro u s).1.acc else s.work) ∧
    ((runMicro u s).1.dir = s.dir ∨ u = .addr (runMicro u s).1.dir) ∧
    ((runMicro u s).1.ackEn = s.ackEn ∨ u = .setAck (runMicro u s).1.ackEn ∨
      (u = .rxHiNack ∧ (runMicro u s).1.ackEn = false) ∨ (u = .ackOn ∧ (runMicro u s).1.ackEn = true)) ∧
    ((runMicro u s).1.phase = s.phase ∨
      (u = .start ∧ (runMicro u s).1.phase = .started) ∨
      ((∃ d, u = .addr d) ∧ (runMicro u s).1.phase = .addressSent) ∨
      (u = .clrAddr ∧ (runMicro u s).1.phase = .transferring) ∨
      (u = .stop ∧ (runMicro u s).1.phase = .stopped)) := by
  cases u with
  | wait f =>
    obtain ⟨n, h⟩ := runMicro_wait f s
    simp [h, MicroOp.takesByte, MicroOp.endsWord]
  | _ =>
    simp [runMicro, microStart, microAddr, microClrAddr, microTx, microStop, microRxb, microSetAck, microRxHi, microRxLo,
      microRxHiNack, microRxAdd, microAckOn, microCommit, MicroOp.takesByte, MicroOp.endsWord]

/-- Only COMMIT writes RESULT (R181). -/
theorem runMicro_result (u : MicroOp) (s : State) :
    (runMicro u s).1.result = if u = .commit then s.work else s.result := by
  obtain ⟨h, -⟩ := runMicro_writes u s
  exact h

/-- Only COMMIT sets RESULT_VALID (R181). -/
theorem runMicro_resultValid (u : MicroOp) (s : State) :
    (runMicro u s).1.resultValid = (decide (u = .commit) || s.resultValid) := by
  obtain ⟨-, h, -⟩ := runMicro_writes u s
  exact h

/-- BYTES counts the µops that take a byte (R31). -/
theorem runMicro_bytes (u : MicroOp) (s : State) :
    (runMicro u s).1.bytes = if u.takesByte then s.bytes + 1 else s.bytes := by
  obtain ⟨-, -, -, h, -⟩ := runMicro_writes u s
  exact h

/-- WIDX counts the µops that complete a word (R42). -/
theorem runMicro_widx (u : MicroOp) (s : State) :
    (runMicro u s).1.widx = if u.endsWord then s.widx + 1 else s.widx := by
  obtain ⟨-, -, -, -, h, -⟩ := runMicro_writes u s
  exact h

/-- Only the µops that complete a word write WORK, one word of it (R176, R178). -/
theorem runMicro_work (u : MicroOp) (s : State) :
    (runMicro u s).1.work = if u.endsWord then s.work.set s.widx.toNat (runMicro u s).1.acc else s.work := by
  obtain ⟨-, -, -, -, -, h, -⟩ := runMicro_writes u s
  exact h

/-! ### Who writes what -/

/-- Settles O39: each effect of a HOST step is an update that leaves the bus side alone, and the two that write the command need
BUSY = 0. -/
theorem hostCannotTouchTheBus : Obligations.HostCannotTouchTheBus := by
  intro s t a h
  cases hostEffect_of_step h with
  | quiet | overrun =>
    exact ⟨rfl, rfl, rfl, rfl, rfl, rfl, rfl, rfl, rfl, rfl, rfl, rfl, rfl, fun _ => ⟨rfl, rfl⟩⟩
  | rejected w e ha hb | accepted w c ha hb =>
    exact ⟨rfl, rfl, rfl, rfl, rfl, rfl, rfl, rfl, rfl, rfl, rfl, rfl, rfl, fun hb' => by simp [hb] at hb'⟩

/-- Settles O48: of the steps, only an ENGINE step at COMMIT or RXB reaches RESULT or RXDATA. -/
theorem writersOfResultAndRxdata : Obligations.WritersOfResultAndRxdata := by
  intro e s t hne h
  cases e with
  | reset => exact absurd rfl hne
  | bus m =>
    cases h
    rw [busStep_frame]
    exact ⟨(absurd rfl ·), fun h0 h1 => by simp [h0] at h1, (absurd rfl ·)⟩
  | host a =>
    cases hostEffect_of_step h with
    | quiet | overrun | rejected => exact ⟨(absurd rfl ·), fun h0 h1 => by simp [h0] at h1, (absurd rfl ·)⟩
    | accepted w c =>
      refine ⟨(absurd rfl ·), fun h0 h1 => ?_, (absurd rfl ·)⟩
      cases c <;> simp [acceptedState, h0] at h1
  | engine =>
    cases engineEffect_of_step h with
    | idle | stayed => exact ⟨(absurd rfl ·), fun h0 h1 => by simp [h0] at h1, (absurd rfl ·)⟩
    | aborted f =>
      exact ⟨(absurd (abort_result _ _) ·), fun h0 h1 => by simp [h0] at h1, (absurd (abort_rxdata _ _) ·)⟩
    | ended u hb hu | moved u hb hu =>
      obtain ⟨hresult, hvalid, hrxdata, -⟩ := runMicro_writes u s
      simp only [endCommand_result, endCommand_resultValid, endCommand_rxdata]
      grind

/-- Settles O49: HOST and BUS have none of the three fields in their reach, and an ENGINE step writes what its µop or the abort
writes. -/
theorem writersOfPhaseDirAndAck : Obligations.WritersOfPhaseDirAndAck := by
  intro e s t hne h
  cases e with
  | reset => exact absurd rfl hne
  | bus m =>
    cases h
    rw [busStep_frame]
    exact ⟨(absurd rfl ·), (absurd rfl ·), (absurd rfl ·)⟩
  | host a => cases hostEffect_of_step h <;> exact ⟨(absurd rfl ·), (absurd rfl ·), (absurd rfl ·)⟩
  | engine =>
    cases engineEffect_of_step h with
    | idle | stayed => exact ⟨(absurd rfl ·), (absurd rfl ·), (absurd rfl ·)⟩
    | aborted f hb hu =>
      refine ⟨fun _ => ⟨rfl, hb, .inr (.inr (.inr (.inr ⟨⟨f, hu⟩, rfl, rfl⟩)))⟩, (absurd (abort_dir _ _) ·), fun hne => ?_⟩
      replace hne : (burstRunning s || s.ackEn) ≠ s.ackEn := hne
      have hburst : burstRunning s = true := by
        by_contra hr
        simp [hr] at hne
      have hack : (burstRunning s || s.ackEn) = true := by rw [hburst, Bool.true_or]
      exact ⟨rfl, hb, .inr (.inr (.inr ⟨⟨f, hu⟩, hburst, rfl, hack⟩))⟩
    | ended u hb hu | moved u hb hu =>
      obtain ⟨-, -, -, -, -, -, hdir, hack, hphase⟩ := runMicro_writes u s
      simp only [endCommand_phase, endCommand_dir, endCommand_ackEn]
      grind

/-- Settles O50: a taken CMD write clears the outcome, an abort records its own, and only an overrun sets CMD_OVR. -/
theorem writersOfErrTmoWhereAndOverrun : Obligations.WritersOfErrTmoWhereAndOverrun := by
  intro e s t hne h
  cases e with
  | reset => exact absurd rfl hne
  | bus m =>
    cases h
    rw [busStep_frame]
    simp +contextual
  | host a =>
    cases hostEffect_of_step h with
    | quiet => simp +contextual
    | overrun w ha hb => simp [ha, hb]
    | rejected w e ha hb => simp [ha, hb]
    | accepted w c ha hb => simp [ha, hb, acceptedState]
  | engine =>
    cases engineEffect_of_step h with
    | idle | stayed => simp +contextual
    | aborted f hb hu hf => simp [hb, hu, hf]
    | ended u hb hu | moved u hb hu =>
      obtain ⟨-, -, -, -, -, -, herr, htmo, hovr, -⟩ := runMicro_keeps u s
      simp [herr, htmo, hovr]

/-- A step of the machine is a step of one of the agents or RESET, once its event is taken from those to come. -/
theorem applyEvent_of_step {s t : State} (h : step s = .next t) : ∃ e es, applyEvent e (s.withInputs es) = .next t := by
  obtain ⟨-, h⟩ | ⟨e, es, -, h⟩ := step_cases h
  · exact ⟨.engine, s.inputs, h⟩
  · exact ⟨e, es, h⟩

/-- Settles O47: no agent's step writes the parameters, and RESET takes them over. -/
theorem stepKeepsTheParameters : Obligations.StepKeepsTheParameters := by
  intro s t h
  obtain ⟨e, es, h⟩ := applyEvent_of_step h
  cases e with
  | host a => cases hostEffect_of_step h <;> rfl
  | engine =>
    cases engineEffect_of_step h with
    | idle | stayed => rfl
    | aborted f => exact abort_params f _
    | ended u | moved u =>
      obtain ⟨-, -, -, hparams, -⟩ := runMicro_keeps u (s.withInputs es)
      exact hparams
  | bus m =>
    cases h
    rw [busStep_frame]
    rfl
  | reset =>
    cases h
    rfl

/-- One step is a run of length 1. -/
theorem run_one (s : State) : run 1 s = step s := by
  cases h : step s with
  | next t => exact run_succ_of_next h
  | fault r => exact run_succ_of_fault h
  | refused r => exact run_succ_of_refused h

/-- A write to TIMEOUT (R36, R69). -/
theorem hostStep_write_timeout (v : Word) (s : State) :
    hostStep (.write 0x0C 4 v) s = .next { s with limit := v.extractLsb' 0 16 } := rfl

/-- Settles O26: after the write the next poll fails under the new limit, with SPIN one higher. -/
theorem timeoutWriteReachesTheWaitInProgress : Obligations.TimeoutWriteReachesTheWaitInProgress := by
  intro s f v n rest hb hu hf hn hin
  have hspin : spinAfterFail s.spin = n := BitVec.eq_of_toNat_eq (by rw [spinAfterFail_toNat, hn])
  have hrun : run 2 s = engineStep { s with limit := v.extractLsb' 0 16, inputs := rest } := by
    rw [run_succ_of_next ((step_of_cons hin).trans (hostStep_write_timeout v _))]
    exact run_one _
  rw [hrun, engineStep_of_failedPoll (s := { s with limit := v.extractLsb' 0 16, inputs := rest }) hb hu ?_]
  · simp only [hspin]
    constructor
    · intro h0 hle
      rw [if_pos ((timesOut_iff _ _).mpr ⟨h0, hle⟩)]
      exact ⟨_, rfl, rfl, rfl, rfl, abort_limit _ _⟩
    · intro hlt
      rw [if_neg]
      intro ht
      obtain ⟨h0, hle⟩ := (timesOut_iff _ _).mp ht
      rcases hlt with hlt | hlt
      · exact h0 hlt
      · omega
  · exact Eq.trans (by cases f <;> rfl) hf

end Sys2Proof.Machine
end

section
/-! PROOFS. The statements of 10_state.md: the invariant read as propositions, and kept by BUS (R54, R90, R91). -/

namespace Sys2Proof.Machine
open Host

/-! ### The parts of the invariant, read as propositions -/

/-- A transaction is open unless the bus is closed or the grammar broken. -/
theorem isOpen_iff (v : BusView) : v.isOpen = true ↔ v ≠ .closed ∧ v ≠ .broken := by
  simp [BusView.isOpen]

/-- The flags against the bus, one by one (R32, R48, R49, R54(c), R91). -/
theorem linkOk_iff (s : State) :
    linkOk s = true ↔
      busView s.trace ≠ .broken ∧
      (s.rxmode = true ↔ busView s.trace = .reading ∨ busView s.trace = .readEnd) ∧
      (s.rxmore = true ↔ busView s.trace = .reading) ∧
      (s.rxNotEmpty = true → s.rxmode = true) ∧
      (s.shift ≠ none → s.rxmode = true ∧ s.params.rxPrefetch = true) ∧
      (s.startSent = true → busView s.trace = .opened ∧ s.preq = []) ∧
      (s.addrAcked = true → (busView s.trace = .writing ∨ busView s.trace = .reading) ∧ s.preq = []) := by
  simp only [linkOk, Bool.and_eq_true, Bool.or_eq_true, decide_eq_true_eq, Bool.not_eq_true', Option.isNone_iff_eq_none]
  grind

/-- PREQ between transactions (R90). -/
theorem restingQueue_iff (s : State) :
    restingQueue s = true ↔
      (s.preq = [] ∧ busView s.trace = .closed) ∨ (s.preq = [.stop] ∧ (busView s.trace).isOpen = true) := by
  simp [restingQueue]

/-- The phases in which a new transaction may begin (R123). -/
theorem phaseClosed_iff (s : State) : phaseClosed s = true ↔ s.phase = .idle ∨ s.phase = .stopped := by
  simp [phaseClosed]

/-- The data phase of each direction. -/
theorem dataPhase_iff (s : State) :
    dataPhase s = true ↔
      (s.dir = .write ∧ busView s.trace = .writing) ∨
      (s.dir = .read ∧ (busView s.trace = .reading ∨ busView s.trace = .readEnd)) := by
  cases h : s.dir <;> simp [dataPhase, h]

/-- PHASE = Transferring, with nothing pending. -/
theorem transferringOk_iff (s : State) :
    transferringOk s = true ↔ s.phase = .transferring ∧ s.preq = [] ∧ dataPhase s = true ∧ s.addrAcked = false := by
  simp [transferringOk, and_assoc]

/-- The state between commands (R54(a)). -/
theorem restOk_iff (s : State) :
    restOk s = true ↔ (phaseClosed s = true ∧ restingQueue s = true) ∨ transferringOk s = true := by
  simp [restOk]

/-- At a WAIT(TX_EMPTY): the write is in its data phase, and PREQ holds at most the byte to send. -/
theorem microOk_waitTxEmpty_iff (s : State) :
    microOk (.wait .txEmpty) s = true ↔
      s.phase = .transferring ∧ s.dir = .write ∧ busView s.trace = .writing ∧ s.addrAcked = false ∧
        (s.preq = [] ∨ ∃ b, s.preq = [.tx b]) := by
  simp only [microOk, Bool.and_eq_true, decide_eq_true_eq, Bool.not_eq_true', and_assoc]
  rcases s.preq with _ | ⟨_ | _ | _ | _, _ | _⟩ <;> simp

/-- At a WAIT(START_SENT): the Start is queued, behind a Stop or alone, or it is performed. -/
theorem microOk_waitStartSent_iff (s : State) :
    microOk (.wait .startSent) s = true ↔
      s.phase = .started ∧
        ((s.preq = [.start] ∧ busView s.trace = .closed) ∨
          (s.preq = [.stop, .start] ∧ (busView s.trace).isOpen = true) ∨ (s.preq = [] ∧ s.startSent = true)) := by
  simp [microOk, or_assoc]

/-- At a WAIT(ADDR_ACKED): the address is queued, ACKed or NACKed. -/
theorem microOk_waitAddrAcked_iff (s : State) :
    microOk (.wait .addrAcked) s = true ↔
      s.phase = .addressSent ∧
        ((s.preq = [.addr (addressByte s.dir)] ∧ busView s.trace = .opened) ∨ (s.addrAcked = true ∧ dataPhase s = true) ∨
          (s.preq = [] ∧ busView s.trace = .unanswered)) := by
  simp [microOk, or_assoc]

/-- At START: a transaction may begin (R123, R128). -/
theorem microOk_start_iff (s : State) : microOk .start s = true ↔ phaseClosed s = true ∧ restingQueue s = true := by
  simp [microOk]

/-- At ADDR: the Start is performed. -/
theorem microOk_addr_iff (d : Dir) (s : State) : microOk (.addr d) s = true ↔ s.phase = .started ∧ s.startSent = true := by
  simp [microOk]

/-- At CLRADDR: the address is ACKed. -/
theorem microOk_clrAddr_iff (s : State) :
    microOk .clrAddr s = true ↔ s.phase = .addressSent ∧ s.addrAcked = true ∧ dataPhase s = true := by
  simp [microOk, and_assoc]

/-- At TX: the data phase of a write, nothing pending. -/
theorem microOk_tx_iff (b : Byte) (s : State) : microOk (.tx b) s = true ↔ transferringOk s = true ∧ s.dir = .write := by
  simp [microOk]

/-- At a WAIT(RX_NOT_EMPTY): the data phase of a read, nothing pending. -/
theorem microOk_waitRxNotEmpty_iff (s : State) :
    microOk (.wait .rxNotEmpty) s = true ↔ transferringOk s = true ∧ s.dir = .read := by
  simp [microOk]

/-- At a µop that takes a byte: the same, and the byte is there. -/
theorem microOk_rx_iff {u : MicroOp} (hu : u = .rxb ∨ u.takesByte = true) (s : State) :
    microOk u s = true ↔ transferringOk s = true ∧ s.dir = .read ∧ s.rxNotEmpty = true := by
  cases u with
  | rxb | rxHi | rxLo | rxHiNack | rxAdd => simp [microOk, and_assoc]
  | _ => simp [MicroOp.takesByte] at hu

/-- At ACKON: the final Stop is requested (R179, R180). -/
theorem microOk_ackOn_iff (s : State) : microOk .ackOn s = true ↔ s.phase = .stopped ∧ restingQueue s = true := by
  simp [microOk]

/-- At COMMIT: the same, and ACK_EN is 1 again (R180). -/
theorem microOk_commit_iff (s : State) :
    microOk .commit s = true ↔ s.phase = .stopped ∧ restingQueue s = true ∧ s.ackEn = true := by
  simp [microOk, and_assoc]

/-- Where PREQ may stand against the bus (R90): at most one request and a Start behind a Stop, each one that BUS can perform
next without breaking R91's grammar. -/
def QueueFits (s : State) : Prop :=
  s.preq = [] ∨ (s.preq = [.start] ∧ busView s.trace = .closed) ∨
    (∃ b, s.preq = [.addr b] ∧ busView s.trace = .opened) ∨ (∃ b, s.preq = [.tx b] ∧ busView s.trace = .writing) ∨
    ((s.preq = [.stop] ∨ s.preq = [.stop, .start]) ∧ (busView s.trace).isOpen = true)

/-- A resting queue fits. -/
theorem queueFits_of_resting {s : State} (h : restingQueue s = true) : QueueFits s := by
  rcases (restingQueue_iff s).mp h with ⟨hq, -⟩ | ⟨hq, hv⟩
  · exact .inl hq
  · exact .inr (.inr (.inr (.inr ⟨.inl hq, hv⟩)))

/-- With nothing pending PREQ is empty. -/
theorem preq_of_transferring {s : State} (h : transferringOk s = true) : s.preq = [] := by
  obtain ⟨-, hq, -⟩ := (transferringOk_iff s).mp h
  exact hq

/-- START_SENT = 1 stands for a Start on the bus and nothing queued behind it. -/
theorem opened_of_startSent {s : State} (hl : linkOk s = true) (h : s.startSent = true) :
    busView s.trace = .opened ∧ s.preq = [] := by
  obtain ⟨-, -, -, -, -, hs, -⟩ := (linkOk_iff s).mp hl
  exact hs h

/-- ADDR_ACKED = 1 stands for an ACKed address on the bus and nothing queued behind it. -/
theorem answered_of_addrAcked {s : State} (hl : linkOk s = true) (h : s.addrAcked = true) :
    (busView s.trace = .writing ∨ busView s.trace = .reading) ∧ s.preq = [] := by
  obtain ⟨-, -, -, -, -, -, ha⟩ := (linkOk_iff s).mp hl
  exact ha h

/-- The queue between commands fits. -/
theorem queueFits_of_rest {s : State} (h : restOk s = true) : QueueFits s := by
  rcases (restOk_iff s).mp h with ⟨-, h⟩ | h
  · exact queueFits_of_resting h
  · exact .inl (preq_of_transferring h)

/-- The queue at every µop fits. -/
theorem queueFits_of_micro {u : MicroOp} {s : State} (hl : linkOk s = true) (h : microOk u s = true) : QueueFits s := by
  cases u with
  | wait f =>
    cases f with
    | startSent =>
      rcases (microOk_waitStartSent_iff s).mp h with ⟨-, ⟨hq, hv⟩ | ⟨hq, hv⟩ | ⟨hq, -⟩⟩
      · exact .inr (.inl ⟨hq, hv⟩)
      · exact .inr (.inr (.inr (.inr ⟨.inr hq, hv⟩)))
      · exact .inl hq
    | addrAcked =>
      rcases (microOk_waitAddrAcked_iff s).mp h with ⟨-, ⟨hq, hv⟩ | ⟨ha, -⟩ | ⟨hq, -⟩⟩
      · exact .inr (.inr (.inl ⟨_, hq, hv⟩))
      · exact .inl (answered_of_addrAcked hl ha).2
      · exact .inl hq
    | txEmpty =>
      obtain ⟨-, -, hv, -, hq | ⟨b, hq⟩⟩ := (microOk_waitTxEmpty_iff s).mp h
      · exact .inl hq
      · exact .inr (.inr (.inr (.inl ⟨b, hq, hv⟩)))
    | rxNotEmpty => exact .inl (preq_of_transferring ((microOk_waitRxNotEmpty_iff s).mp h).1)
  | setAck e => exact queueFits_of_rest h
  | start => exact queueFits_of_resting ((microOk_start_iff s).mp h).2
  | ackOn => exact queueFits_of_resting ((microOk_ackOn_iff s).mp h).2
  | commit =>
    obtain ⟨-, hr, -⟩ := (microOk_commit_iff s).mp h
    exact queueFits_of_resting hr
  | addr d => exact .inl (opened_of_startSent hl ((microOk_addr_iff d s).mp h).2).2
  | clrAddr =>
    obtain ⟨-, ha, -⟩ := (microOk_clrAddr_iff s).mp h
    exact .inl (answered_of_addrAcked hl ha).2
  | stop => exact .inl (preq_of_transferring h)
  | tx b => exact .inl (preq_of_transferring ((microOk_tx_iff b s).mp h).1)
  | rxb => exact .inl (preq_of_transferring ((microOk_rx_iff (.inl rfl) s).mp h).1)
  | rxHi | rxLo | rxHiNack | rxAdd => exact .inl (preq_of_transferring ((microOk_rx_iff (.inr rfl) s).mp h).1)

/-- What a BUS step does where the queue fits. -/
inductive BusEffect (s : State) : State → Prop where
  | none : BusEffect s s
  | start (hq : s.preq = [.start]) (hv : busView s.trace = .closed) : BusEffect s (bStart s)
  | addr (b : Byte) (ack : Bool) (hq : s.preq = [.addr b]) (hv : busView s.trace = .opened) : BusEffect s (bAddr b ack s)
  | tx (b : Byte) (hq : s.preq = [.tx b]) (hv : busView s.trace = .writing) : BusEffect s (bTx b s)
  | stop (hq : s.preq = [.stop] ∨ s.preq = [.stop, .start]) (hv : (busView s.trace).isOpen = true) : BusEffect s (bStop s)
  | rx (v : Byte) (hp : s.params.rxPrefetch = false) (hq : s.preq = []) (hv : busView s.trace = .reading)
      (ha : s.addrAcked = false) (hn : s.rxNotEmpty = false) : BusEffect s (bRx v s)
  | shift (v : Byte) (hp : s.params.rxPrefetch = true) (hq : s.preq = []) (hv : busView s.trace = .reading)
      (ha : s.addrAcked = false) (hs : s.shift = Option.none) : BusEffect s (bShift v s)
  | move (v : Byte) (a : Bool) (hp : s.params.rxPrefetch = true) (hs : s.shift = some (v, a))
      (hn : s.rxNotEmpty = false) : BusEffect s (bMove v s)

/-- What a byte needs to be received (R83, R84). -/
theorem canReceive_iff (s : State) :
    canReceive s = true ↔ s.preq = [] ∧ s.rxmode = true ∧ s.rxmore = true ∧ s.addrAcked = false := by
  simp [canReceive, and_assoc]

/-- Where the queue fits, every BUS step has one of these effects. -/
theorem busEffect_of_step {s : State} (m : BusMove) (hl : linkOk s = true) (hf : QueueFits s) : BusEffect s (busStep m s) := by
  obtain ⟨-, -, hmore, -⟩ := (linkOk_iff s).mp hl
  rcases busStep_cases m s with h | ⟨-, ⟨q, hq⟩, h⟩ | ⟨ack, b, q, -, hq, h⟩ | ⟨b, q, -, hq, h⟩ | ⟨-, ⟨q, hq⟩, h⟩ |
      ⟨v, -, hp, hc, hn, h⟩ | ⟨v, -, hp, hc, hs, h⟩ | ⟨v, a, -, hp, hs, hn, h⟩ <;>
    rw [h]
  · exact .none
  · simp [QueueFits, hq] at hf
    exact .start (by rw [hq, hf.1]) hf.2
  · simp [QueueFits, hq] at hf
    exact .addr b ack (by rw [hq, hf.1]) hf.2
  · simp [QueueFits, hq] at hf
    exact .tx b (by rw [hq, hf.1]) hf.2
  · simp [QueueFits, hq] at hf
    exact .stop (by simpa [hq] using hf.1) hf.2
  · obtain ⟨hq, -, hm, ha⟩ := (canReceive_iff s).mp hc
    exact .rx v hp hq (hmore.mp hm) ha hn
  · obtain ⟨hq, -, hm, ha⟩ := (canReceive_iff s).mp hc
    exact .shift v hp hq (hmore.mp hm) ha hs
  · exact .move v a hp hs hn

/-- Outside the data phase of a read nothing is received and nothing pending. -/
theorem noneReceived_of_view {s : State} (hl : linkOk s = true) (hv : busView s.trace ≠ .reading)
    (hv' : busView s.trace ≠ .readEnd) :
    s.rxmode = false ∧ s.rxmore = false ∧ s.rxNotEmpty = false ∧ s.shift = none := by
  obtain ⟨-, hmode, hmore, hrx, hshift, -⟩ := (linkOk_iff s).mp hl
  have hm : s.rxmode = false := Bool.eq_false_iff.mpr fun h => (hmode.mp h).elim hv hv'
  refine ⟨hm, Bool.eq_false_iff.mpr fun h => hv (hmore.mp h), Bool.eq_false_iff.mpr fun h => ?_, ?_⟩
  · simp [hm] at hrx
    simp [hrx] at h
  · by_contra h
    simpa [hm] using hshift h

/-- With a request in PREQ neither START_SENT nor ADDR_ACKED is set. -/
theorem flags_of_queued {s : State} (hl : linkOk s = true) (hq : s.preq ≠ []) : s.startSent = false ∧ s.addrAcked = false :=
  ⟨Bool.eq_false_iff.mpr fun h => hq (opened_of_startSent hl h).2,
    Bool.eq_false_iff.mpr fun h => hq (answered_of_addrAcked hl h).2⟩

/-- BUS keeps the flags in step with what it does on the bus. -/
theorem BusEffect.keeps_link {s t : State} (h : BusEffect s t) (hl : linkOk s = true) : linkOk t = true := by
  cases h with
  | none => exact hl
  | start hq hv =>
    have hnone := noneReceived_of_view hl (by simp [hv]) (by simp [hv])
    have hflags := flags_of_queued hl (by simp [hq])
    simp [linkOk_iff, bStart, popRequest, hq, hv, hnone, hflags, BusView.next]
  | addr b ack hq hv =>
    have hnone := noneReceived_of_view hl (by simp [hv]) (by simp [hv])
    have hflags := flags_of_queued hl (by simp [hq])
    cases ack <;> cases hb : b[0] <;>
      simp [linkOk_iff, bAddr, popRequest, hq, hv, hb, hnone, hflags, BusView.next]
  | tx b hq hv =>
    have hnone := noneReceived_of_view hl (by simp [hv]) (by simp [hv])
    have hflags := flags_of_queued hl (by simp [hq])
    simp [linkOk_iff, bTx, popRequest, hq, hv, hnone, hflags, BusView.next]
  | stop hq hv =>
    rw [isOpen_iff] at hv
    cases hw : busView s.trace <;> simp [linkOk_iff, bStop, popRequest, hw, BusView.next] at hv ⊢
  | rx v hp hq hv ha hn =>
    have hl := (linkOk_iff s).mp hl
    cases he : s.ackEn <;> simp [linkOk_iff, bRx, hp, hq, hv, ha, he, BusView.next] at hl ⊢ <;> simp [hl]
  | shift v hp hq hv ha hs =>
    have hl := (linkOk_iff s).mp hl
    cases he : s.ackEn <;> simp [linkOk_iff, bShift, hp, hq, hv, ha, he, BusView.next] at hl ⊢ <;> simp [hl]
  | move v a hp hs hn =>
    obtain ⟨hview, hmode, hmore, -, hshift, hstart, hack⟩ := (linkOk_iff s).mp hl
    have hm : s.rxmode = true := (hshift (by simp [hs])).1
    exact (linkOk_iff _).mpr ⟨hview, hmode, hmore, fun _ => hm, fun h => absurd rfl h, hstart, hack⟩

/-- A resting queue stays one: BUS can only perform its Stop. -/
theorem BusEffect.keeps_resting {s t : State} (h : BusEffect s t) (hr : restingQueue s = true) : restingQueue t = true := by
  rw [restingQueue_iff] at hr ⊢
  cases h with
  | none => exact hr
  | start hq hv | addr b ack hq hv | tx b hq hv => simp [hq] at hr
  | stop hq hv =>
    left
    rw [isOpen_iff] at hv
    cases hw : busView s.trace <;> simp [hw, BusView.next, bStop, popRequest] at hv hr ⊢ <;> simp [hr]
  | rx v hp hq hv | shift v hp hq hv => simp [hq, hv] at hr
  | move v a hp hs hn => exact hr

/-- In the data phase with nothing pending BUS can only deliver bytes. -/
theorem BusEffect.keeps_transferring {s t : State} (h : BusEffect s t) (hr : transferringOk s = true) :
    transferringOk t = true ∧ t.dir = s.dir ∧ (s.rxNotEmpty = true → t.rxNotEmpty = true) := by
  rw [transferringOk_iff, dataPhase_iff] at hr ⊢
  cases h with
  | none => exact ⟨hr, rfl, id⟩
  | start hq hv | addr b ack hq hv | tx b hq hv => simp [hq] at hr
  | stop hq hv => grind
  | rx v hp hq hv =>
    cases he : s.ackEn <;> simp [bRx, hq, hv, he, BusView.next] at hr ⊢ <;> simp [hr]
  | shift v hp hq hv =>
    cases he : s.ackEn <;> simp [bShift, hq, hv, he, BusView.next] at hr ⊢ <;> simp [hr]
  | move v a hp hs hn => exact ⟨hr, rfl, fun _ => rfl⟩

/-- PHASE, DIR and ACK_EN are not BUS's (R85). -/
theorem BusEffect.keeps_frame {s t : State} (h : BusEffect s t) : t.phase = s.phase ∧ t.dir = s.dir ∧ t.ackEn = s.ackEn := by
  cases h <;> exact ⟨rfl, rfl, rfl⟩

/-- BUS does not leave PHASE ∈ {Idle, Stopped}. -/
theorem BusEffect.keeps_closed {s t : State} (h : BusEffect s t) (hr : phaseClosed s = true) : phaseClosed t = true := by
  rwa [phaseClosed, h.keeps_frame.1]

/-- BUS keeps the state between commands. -/
theorem BusEffect.keeps_rest {s t : State} (h : BusEffect s t) (hr : restOk s = true) : restOk t = true := by
  rw [restOk_iff] at hr ⊢
  exact hr.imp (fun hr => ⟨h.keeps_closed hr.1, h.keeps_resting hr.2⟩) (fun hr => (h.keeps_transferring hr).1)

/-- With START_SENT = 1 BUS has no request to perform and no byte to receive. -/
theorem BusEffect.keeps_startSent {s t : State} (h : BusEffect s t) (hl : linkOk s = true) (hs : s.startSent = true) :
    t.startSent = true ∧ t.preq = [] := by
  obtain ⟨hv, hq⟩ := opened_of_startSent hl hs
  cases h with
  | none | move => exact ⟨hs, hq⟩
  | start hq' | addr b ack hq' | tx b hq' | stop hq' => simp [hq] at hq'
  | rx v hp hq' hv' | shift v hp hq' hv' => simp [hv] at hv'

/-- With ADDR_ACKED = 1 BUS has no request to perform, and receives no byte yet (R83). -/
theorem BusEffect.keeps_addrAcked {s t : State} (h : BusEffect s t) (hl : linkOk s = true) (ha : s.addrAcked = true) :
    t.addrAcked = true ∧ dataPhase t = dataPhase s := by
  obtain ⟨-, hq⟩ := answered_of_addrAcked hl ha
  cases h with
  | none | move => exact ⟨ha, rfl⟩
  | start hq' | addr b ack hq' | tx b hq' | stop hq' => simp [hq] at hq'
  | rx v hp hq' hv' ha' | shift v hp hq' hv' ha' => simp [ha] at ha'

/-- BUS performs the Stop, then the Start (R87). -/
theorem BusEffect.keeps_waitStartSent {s t : State} (h : BusEffect s t) (hl : linkOk s = true)
    (hm : microOk (.wait .startSent) s = true) : microOk (.wait .startSent) t = true := by
  rw [microOk_waitStartSent_iff] at hm ⊢
  obtain ⟨hphase, hm⟩ := hm
  refine ⟨h.keeps_frame.1.trans hphase, ?_⟩
  rcases hm with ⟨hq, hv⟩ | ⟨hq, hv⟩ | ⟨hq, hs⟩
  · cases h with
    | none | move => exact .inl ⟨hq, hv⟩
    | start => exact .inr (.inr ⟨by simp [bStart, popRequest, hq], rfl⟩)
    | addr b ack hq' | tx b hq' | stop hq' | rx v hp hq' | shift v hp hq' => simp [hq] at hq'
  · cases h with
    | none | move => exact .inr (.inl ⟨hq, hv⟩)
    | start hq' | addr b ack hq' | tx b hq' => simp [hq] at hq'
    | stop =>
      refine .inl ⟨by simp [bStop, popRequest, hq], ?_⟩
      rw [isOpen_iff] at hv
      cases hw : busView s.trace <;> simp [hw, bStop, BusView.next] at hv ⊢
    | rx v hp hq' | shift v hp hq' => simp [hq] at hq'
  · obtain ⟨hs', hq'⟩ := h.keeps_startSent hl hs
    exact .inr (.inr ⟨hq', hs'⟩)

/-- The low bit of the address byte, in simp's form. -/
theorem addressByte_getElem_zero (d : Dir) : (addressByte d)[0] = d.bit := addressByte_bit0 d

/-- BUS performs the address, and its ACK opens the data phase of DIR (R80). -/
theorem BusEffect.keeps_waitAddrAcked {s t : State} (h : BusEffect s t) (hl : linkOk s = true)
    (hm : microOk (.wait .addrAcked) s = true) : microOk (.wait .addrAcked) t = true := by
  rw [microOk_waitAddrAcked_iff] at hm ⊢
  obtain ⟨hphase, hm⟩ := hm
  refine ⟨h.keeps_frame.1.trans hphase, ?_⟩
  rcases hm with ⟨hq, hv⟩ | ⟨ha, hd⟩ | ⟨hq, hv⟩
  · cases h with
    | none | move => exact .inl ⟨hq, hv⟩
    | start hq' | tx b hq' => simp [hq] at hq'
    | addr b ack hq' =>
      obtain rfl : addressByte s.dir = b := by simpa [hq] using hq'
      cases ack with
      | false => exact .inr (.inr ⟨by simp [bAddr, popRequest, hq], by simp [bAddr, hv, BusView.next]⟩)
      | true =>
        refine .inr (.inl ⟨by simp [bAddr], (dataPhase_iff _).mpr ?_⟩)
        cases hd : s.dir <;> simp [bAddr, popRequest, hd, hv, BusView.next, addressByte_getElem_zero, Dir.bit]
    | stop hq' => simp [hq] at hq'
    | rx v hp hq' | shift v hp hq' => simp [hq] at hq'
  · obtain ⟨ha', hd'⟩ := h.keeps_addrAcked hl ha
    exact .inr (.inl ⟨ha', hd'.trans hd⟩)
  · cases h with
    | none | move => exact .inr (.inr ⟨hq, hv⟩)
    | start hq' | addr b ack hq' | tx b hq' | stop hq' => simp [hq] at hq'
    | rx v hp hq' hv' | shift v hp hq' hv' => simp [hv] at hv'

/-- BUS sends the byte (R81). -/
theorem BusEffect.keeps_waitTxEmpty {s t : State} (h : BusEffect s t) (hm : microOk (.wait .txEmpty) s = true) :
    microOk (.wait .txEmpty) t = true := by
  rw [microOk_waitTxEmpty_iff] at hm ⊢
  cases h with
  | none | move => exact hm
  | start hq hv | addr b ack hq hv => simp [hq] at hm
  | tx b hq hv => simp [bTx, popRequest, hq, hv, BusView.next] at hm ⊢; exact hm
  | stop hq hv => rcases hq with hq | hq <;> simp [hq] at hm
  | rx v hp hq hv | shift v hp hq hv => simp [hv] at hm

/-- BUS leaves the byte in DR to a µop that takes it. -/
theorem BusEffect.keeps_rx {u : MicroOp} {s t : State} (h : BusEffect s t) (hu : u = .rxb ∨ u.takesByte = true)
    (hm : microOk u s = true) : microOk u t = true := by
  rw [microOk_rx_iff hu] at hm ⊢
  obtain ⟨ht, hd, hn⟩ := hm
  obtain ⟨ht', hd', hn'⟩ := h.keeps_transferring ht
  exact ⟨ht', hd'.trans hd, hn' hn⟩

/-- BUS keeps what holds at the µop ENGINE stands at. -/
theorem BusEffect.keeps_micro {u : MicroOp} {s t : State} (h : BusEffect s t) (hl : linkOk s = true) (hm : microOk u s = true) :
    microOk u t = true := by
  obtain ⟨hphase, hdir, hack⟩ := h.keeps_frame
  cases u with
  | wait f =>
    cases f with
    | startSent => exact h.keeps_waitStartSent hl hm
    | addrAcked => exact h.keeps_waitAddrAcked hl hm
    | txEmpty => exact h.keeps_waitTxEmpty hm
    | rxNotEmpty =>
      obtain ⟨ht, hd⟩ := (microOk_waitRxNotEmpty_iff s).mp hm
      exact (microOk_waitRxNotEmpty_iff t).mpr ⟨(h.keeps_transferring ht).1, hdir.trans hd⟩
  | start =>
    obtain ⟨hc, hr⟩ := (microOk_start_iff s).mp hm
    exact (microOk_start_iff t).mpr ⟨h.keeps_closed hc, h.keeps_resting hr⟩
  | addr d =>
    obtain ⟨hp, hs⟩ := (microOk_addr_iff d s).mp hm
    exact (microOk_addr_iff d t).mpr ⟨hphase.trans hp, (h.keeps_startSent hl hs).1⟩
  | clrAddr =>
    obtain ⟨hp, ha, hd⟩ := (microOk_clrAddr_iff s).mp hm
    obtain ⟨ha', hd'⟩ := h.keeps_addrAcked hl ha
    exact (microOk_clrAddr_iff t).mpr ⟨hphase.trans hp, ha', hd'.trans hd⟩
  | tx b =>
    obtain ⟨ht, hd⟩ := (microOk_tx_iff b s).mp hm
    exact (microOk_tx_iff b t).mpr ⟨(h.keeps_transferring ht).1, hdir.trans hd⟩
  | stop => exact (h.keeps_transferring hm).1
  | setAck e => exact h.keeps_rest hm
  | rxb => exact h.keeps_rx (.inl rfl) hm
  | rxHi | rxLo | rxHiNack | rxAdd => exact h.keeps_rx (.inr rfl) hm
  | ackOn =>
    obtain ⟨hp, hr⟩ := (microOk_ackOn_iff s).mp hm
    exact (microOk_ackOn_iff t).mpr ⟨hphase.trans hp, h.keeps_resting hr⟩
  | commit =>
    obtain ⟨hp, hr, he⟩ := (microOk_commit_iff s).mp hm
    exact (microOk_commit_iff t).mpr ⟨hphase.trans hp, h.keeps_resting hr, hack.trans he⟩

end Sys2Proof.Machine
end

section
/-! PROOFS. The statements of 10_state.md: the invariant along one µop. -/

namespace Sys2Proof.Machine
open Host

/-! ### ENGINE: what holds after a µop -/

/-- START with a resting queue (R128). -/
theorem microStart_eq {s : State} (h : restingQueue s = true) :
    microStart s = { s with preq := s.preq ++ [.start], phase := .started } := by
  rw [restingQueue_iff] at h
  rw [microStart, enqueue_of_room]
  rcases h with ⟨hq, -⟩ | ⟨hq, -⟩ <;> simp [hq, Config.preqCap]

/-- A request made with PREQ empty (R135). -/
theorem enqueue_of_empty {q : Request} {s : State} (h : s.preq = []) : enqueue q s = { s with preq := [q] } := by
  rw [enqueue_of_room (by simp [h, Config.preqCap]), h, List.nil_append]

/-- Between transactions START_SENT and ADDR_ACKED are 0. -/
theorem flags_of_resting {s : State} (hl : linkOk s = true) (h : restingQueue s = true) :
    s.startSent = false ∧ s.addrAcked = false := by
  rw [restingQueue_iff] at h
  refine ⟨Bool.eq_false_iff.mpr fun hs => ?_, Bool.eq_false_iff.mpr fun ha => ?_⟩
  · obtain ⟨hv, hq⟩ := opened_of_startSent hl hs
    simp [hv, hq] at h
  · obtain ⟨hv, hq⟩ := answered_of_addrAcked hl ha
    rcases hv with hv | hv <;> simp [hv, hq] at h

/-- In the data phase START_SENT is 0. -/
theorem startSent_of_transferring {s : State} (hl : linkOk s = true) (h : transferringOk s = true) : s.startSent = false := by
  rw [transferringOk_iff, dataPhase_iff] at h
  refine Bool.eq_false_iff.mpr fun hs => ?_
  simp [(opened_of_startSent hl hs).1] at h

/-- In the data phase the transaction is open. -/
theorem isOpen_of_dataPhase {s : State} (h : dataPhase s = true) : (busView s.trace).isOpen = true := by
  rcases (dataPhase_iff s).mp h with ⟨-, hv⟩ | ⟨-, hv | hv⟩ <;> simp [isOpen_iff, hv]

/-- The STOP µop in the data phase leaves a resting queue (R132). -/
theorem restingQueue_of_stop {s : State} (h : transferringOk s = true) :
    microStop s = { s with preq := [.stop], phase := .stopped } ∧ restingQueue (microStop s) = true := by
  obtain ⟨-, hq, hd, -⟩ := (transferringOk_iff s).mp h
  have e : microStop s = { s with preq := [.stop], phase := .stopped } := by rw [microStop, enqueue_of_empty hq]
  exact ⟨e, e ▸ (restingQueue_iff _).mpr (.inr ⟨rfl, isOpen_of_dataPhase hd⟩)⟩

/-- ADDR once the Start is performed (R129). -/
theorem microAddr_eq {d : Dir} {s : State} (hl : linkOk s = true) (hs : s.startSent = true) :
    microAddr d s =
      { s with preq := [.addr (addressByte d)], startSent := false, dir := d, phase := .addressSent } := by
  rw [microAddr, enqueue_of_empty (opened_of_startSent hl hs).2]

/-- TX with nothing pending (R131). -/
theorem microTx_eq {b : Byte} {s : State} (ht : transferringOk s = true) : microTx b s = { s with preq := [.tx b] } :=
  enqueue_of_empty (preq_of_transferring ht)

/-- ENGINE may clear the flags it owns, and requests something only while START_SENT and ADDR_ACKED are 0 (R89). -/
theorem linkOk_of_engine {s t : State} (hl : linkOk s = true)
    (hkeep : t.trace = s.trace ∧ t.rxmode = s.rxmode ∧ t.rxmore = s.rxmore ∧ t.shift = s.shift ∧ t.params = s.params)
    (hrx : t.rxNotEmpty = true → s.rxNotEmpty = true)
    (hs : t.startSent = true → s.startSent = true ∧ t.preq = s.preq)
    (ha : t.addrAcked = true → s.addrAcked = true ∧ t.preq = s.preq) : linkOk t = true := by
  obtain ⟨htrace, hmode, hmore, hshift, hparams⟩ := hkeep
  obtain ⟨hview, h2, h3, h4, h5, h6, h7⟩ := (linkOk_iff s).mp hl
  rw [linkOk_iff, htrace, hmode, hmore, hshift, hparams]
  refine ⟨hview, h2, h3, fun h => h4 (hrx h), h5, fun h => ?_, fun h => ?_⟩
  · obtain ⟨hs, hq⟩ := hs h
    exact hq ▸ h6 hs
  · obtain ⟨ha, hq⟩ := ha h
    exact hq ▸ h7 ha

/-- A request made with both flags 0. -/
theorem linkOk_of_request {s t : State} (hl : linkOk s = true) (hs : t.startSent = false) (ha : t.addrAcked = false)
    (hkeep : t.trace = s.trace ∧ t.rxmode = s.rxmode ∧ t.rxmore = s.rxmore ∧ t.shift = s.shift ∧ t.params = s.params)
    (hrx : t.rxNotEmpty = s.rxNotEmpty) : linkOk t = true :=
  linkOk_of_engine hl hkeep (fun h => hrx ▸ h) (fun h => by simp [hs] at h) (fun h => by simp [ha] at h)

/-- Every µop keeps the link between flags and bus. -/
theorem runMicro_keeps_link {u : MicroOp} {s : State} (hl : linkOk s = true) (hm : microOk u s = true) :
    linkOk (runMicro u s).1 = true := by
  cases u with
  | wait f => obtain ⟨n, h⟩ := runMicro_wait f s; exact h ▸ hl
  | start =>
    obtain ⟨-, hr⟩ := (microOk_start_iff s).mp hm
    obtain ⟨hs, ha⟩ := flags_of_resting hl hr
    rw [runMicro, microStart_eq hr]
    exact linkOk_of_request hl hs ha ⟨rfl, rfl, rfl, rfl, rfl⟩ rfl
  | addr d =>
    obtain ⟨-, hs⟩ := (microOk_addr_iff d s).mp hm
    have ha : s.addrAcked = false := Bool.eq_false_iff.mpr fun ha => by
      have hw := (answered_of_addrAcked hl ha).1
      simp [(opened_of_startSent hl hs).1] at hw
    rw [runMicro, microAddr_eq hl hs]
    exact linkOk_of_request hl rfl ha ⟨rfl, rfl, rfl, rfl, rfl⟩ rfl
  | tx b =>
    obtain ⟨ht, -⟩ := (microOk_tx_iff b s).mp hm
    obtain ⟨-, -, -, ha⟩ := (transferringOk_iff s).mp ht
    have hs := startSent_of_transferring hl ht
    rw [runMicro, microTx_eq ht]
    exact linkOk_of_request hl hs ha ⟨rfl, rfl, rfl, rfl, rfl⟩ rfl
  | stop =>
    obtain ⟨-, -, -, ha⟩ := (transferringOk_iff s).mp hm
    have hs := startSent_of_transferring hl hm
    rw [runMicro, (restingQueue_of_stop hm).1]
    exact linkOk_of_request hl hs ha ⟨rfl, rfl, rfl, rfl, rfl⟩ rfl
  | clrAddr => exact linkOk_of_engine hl ⟨rfl, rfl, rfl, rfl, rfl⟩ id (⟨·, rfl⟩) Bool.noConfusion
  | rxb | rxHi | rxLo | rxHiNack | rxAdd =>
    exact linkOk_of_engine hl ⟨rfl, rfl, rfl, rfl, rfl⟩ Bool.noConfusion (⟨·, rfl⟩) (⟨·, rfl⟩)
  | setAck | ackOn | commit => exact hl

/-- No µop overflows PREQ (R90, R135). -/
theorem runMicro_keeps_fault {u : MicroOp} {s : State} (hl : linkOk s = true) (hm : microOk u s = true) :
    (runMicro u s).1.fault = s.fault := by
  cases u with
  | wait f => obtain ⟨n, h⟩ := runMicro_wait f s; rw [h]
  | start => rw [runMicro, microStart_eq ((microOk_start_iff s).mp hm).2]
  | addr d => rw [runMicro, microAddr_eq hl ((microOk_addr_iff d s).mp hm).2]
  | tx b => rw [runMicro, microTx_eq ((microOk_tx_iff b s).mp hm).1]
  | stop => rw [runMicro, (restingQueue_of_stop hm).1]
  | _ => rfl

/-- A wait passed on a set flag changes nothing the invariant reads but SPIN. -/
theorem runMicro_wait_of_set {f : WaitFlag} {s : State} (h : flagValue f s = true) :
    (runMicro (.wait f) s).1 = { s with spin := 0 } := by
  simp [runMicro, microWait_of_set h]

/-- CLRADDR ends the addressing: the data phase, with nothing pending (R130). -/
theorem transferringOk_of_clrAddr {s : State} (hl : linkOk s = true) (hm : microOk .clrAddr s = true) :
    transferringOk (microClrAddr s) = true := by
  obtain ⟨-, ha, hd⟩ := (microOk_clrAddr_iff s).mp hm
  exact (transferringOk_iff _).mpr ⟨rfl, (answered_of_addrAcked hl ha).2, hd, rfl⟩

/-- A µop that may end a command leaves the state of R54(a). -/
theorem runMicro_rest {u : MicroOp} {s : State} (hl : linkOk s = true) (hm : microOk u s = true) (he : u.endsCommand = true) :
    restOk (runMicro u s).1 = true := by
  cases u with
  | clrAddr => exact (restOk_iff _).mpr (.inr (transferringOk_of_clrAddr hl hm))
  | stop =>
    obtain ⟨e, hr⟩ := restingQueue_of_stop hm
    exact (restOk_iff _).mpr (.inl ⟨rfl, hr⟩)
  | rxb => exact (restOk_iff _).mpr (.inr ((microOk_rx_iff (.inl rfl) s).mp hm).1)
  | setAck e => exact hm
  | commit =>
    obtain ⟨hp, hr, -⟩ := (microOk_commit_iff s).mp hm
    exact (restOk_iff _).mpr (.inl ⟨(phaseClosed_iff s).mpr (.inr hp), hr⟩)
  | _ => cases he

/-- In the data phase of a write, at a wait for TX_EMPTY that succeeds, nothing is pending. -/
theorem transferringOk_of_txEmpty {s : State} (hm : microOk (.wait .txEmpty) s = true) (hf : txEmpty s.preq = true) :
    transferringOk s = true ∧ s.dir = .write := by
  obtain ⟨hp, hd, hv, ha, hq⟩ := (microOk_waitTxEmpty_iff s).mp hm
  have hq : s.preq = [] := by
    rcases hq with hq | ⟨b, hq⟩
    · exact hq
    · simp [hq, txEmpty] at hf
  exact ⟨(transferringOk_iff s).mpr ⟨hp, hq, (dataPhase_iff s).mpr (.inl ⟨hd, hv⟩), ha⟩, hd⟩

/-- A µop that takes a byte, after the wait for it. -/
theorem microOk_rx_of_wait {u : MicroOp} {s : State} (hu : u = .rxb ∨ u.takesByte = true)
    (hm : microOk (.wait .rxNotEmpty) s = true) (hf : s.rxNotEmpty = true) :
    microOk u (runMicro (.wait .rxNotEmpty) s).1 = true := by
  obtain ⟨ht, hd⟩ := (microOk_waitRxNotEmpty_iff s).mp hm
  rw [runMicro_wait_of_set (show flagValue .rxNotEmpty s = true from hf)]
  exact (microOk_rx_iff hu _).mpr ⟨ht, hd, hf⟩

/-- After a µop has advanced, what the next µop needs holds. -/
theorem runMicro_next {u v : MicroOp} {s : State} (hl : linkOk s = true) (hm : microOk u s = true) (ha : Advances u s)
    (hv : followsIn (runMicro u s).1.dir u v = true) : microOk v (runMicro u s).1 = true := by
  unfold followsIn at hv
  split at hv
  · -- START, WAIT(START_SENT)
    obtain ⟨-, hr⟩ := (microOk_start_iff s).mp hm
    rw [microOk_waitStartSent_iff, runMicro, microStart_eq hr]
    refine ⟨rfl, ?_⟩
    rcases (restingQueue_iff s).mp hr with ⟨hq, hv⟩ | ⟨hq, hv⟩
    · exact .inl ⟨by simp [hq], hv⟩
    · exact .inr (.inl ⟨by simp [hq], hv⟩)
  · -- WAIT(START_SENT), ADDR
    have hf : s.startSent = true := ha _ rfl
    rw [runMicro_wait_of_set (ha _ rfl)]
    exact (microOk_addr_iff _ _).mpr ⟨((microOk_waitStartSent_iff s).mp hm).1, hf⟩
  · -- ADDR, WAIT(ADDR_ACKED)
    obtain ⟨-, hs⟩ := (microOk_addr_iff _ s).mp hm
    rw [microOk_waitAddrAcked_iff, runMicro, microAddr_eq hl hs]
    exact ⟨rfl, .inl ⟨rfl, (opened_of_startSent hl hs).1⟩⟩
  · -- WAIT(ADDR_ACKED), CLRADDR
    have hf : s.addrAcked = true := ha _ rfl
    obtain ⟨hw, -⟩ := answered_of_addrAcked hl hf
    rw [runMicro_wait_of_set (ha _ rfl)]
    obtain ⟨hp, ⟨-, hv⟩ | ⟨-, hd⟩ | ⟨-, hv⟩⟩ := (microOk_waitAddrAcked_iff s).mp hm
    · simp [hv] at hw
    · exact (microOk_clrAddr_iff _).mpr ⟨hp, hf, hd⟩
    · simp [hv] at hw
  · -- CLRADDR, WAIT(TX_EMPTY)
    obtain ⟨hp, hq, hd, ha⟩ := (transferringOk_iff _).mp (transferringOk_of_clrAddr hl hm)
    have hw : (microClrAddr s).dir = .write := of_decide_eq_true hv
    rw [dataPhase_iff] at hd
    have hview : busView (microClrAddr s).trace = .writing := by simpa [hw] using hd
    exact (microOk_waitTxEmpty_iff _).mpr ⟨hp, hw, hview, ha, .inl hq⟩
  · -- CLRADDR, WAIT(RX_NOT_EMPTY)
    exact (microOk_waitRxNotEmpty_iff _).mpr ⟨transferringOk_of_clrAddr hl hm, of_decide_eq_true hv⟩
  · -- CLRADDR, STOP
    exact transferringOk_of_clrAddr hl hm
  · -- WAIT(TX_EMPTY), TX
    rw [runMicro_wait_of_set (ha _ rfl)]
    exact (microOk_tx_iff _ _).mpr (transferringOk_of_txEmpty hm (ha _ rfl))
  · -- WAIT(TX_EMPTY), STOP
    rw [runMicro_wait_of_set (ha _ rfl)]
    exact (transferringOk_of_txEmpty hm (ha _ rfl)).1
  · -- WAIT(TX_EMPTY), WAIT(TX_EMPTY)
    rw [runMicro_wait_of_set (ha _ rfl)]
    exact hm
  · -- TX, WAIT(TX_EMPTY)
    obtain ⟨ht, hw⟩ := (microOk_tx_iff _ s).mp hm
    obtain ⟨hp, -, hd, ha⟩ := (transferringOk_iff s).mp ht
    rw [dataPhase_iff] at hd
    rw [microOk_waitTxEmpty_iff, runMicro, microTx_eq ht]
    exact ⟨hp, hw, by simpa [hw] using hd, ha, .inr ⟨_, rfl⟩⟩
  · -- WAIT(RX_NOT_EMPTY), RXB
    exact microOk_rx_of_wait (.inl rfl) hm (ha _ rfl)
  -- WAIT(RX_NOT_EMPTY), and the four µops of a BURST that take the byte
  iterate 4
    · exact microOk_rx_of_wait (.inr rfl) hm (ha _ rfl)
  -- RXHI, RXLO, RXHI_NACK, WAIT(RX_NOT_EMPTY)
  iterate 3
    · obtain ⟨ht, hd, -⟩ := (microOk_rx_iff (.inr rfl) s).mp hm
      exact (microOk_waitRxNotEmpty_iff _).mpr ⟨ht, hd⟩
  · -- RXADD, STOP
    exact ((microOk_rx_iff (.inr rfl) s).mp hm).1
  · -- STOP, START
    exact (microOk_start_iff _).mpr ⟨rfl, (restingQueue_of_stop hm).2⟩
  · -- STOP, ACKON
    exact (microOk_ackOn_iff _).mpr ⟨rfl, (restingQueue_of_stop hm).2⟩
  · -- ACKON, COMMIT
    obtain ⟨hp, hr⟩ := (microOk_ackOn_iff s).mp hm
    exact (microOk_commit_iff _).mpr ⟨hp, hr, rfl⟩
  · cases hv

end Sys2Proof.Machine
end

section
/-! PROOFS. The statements of 10_state.md: the invariant along one ENGINE step, with the positions in a µprogram. -/

namespace Sys2Proof.Machine
open Host

/-! ### Positions in a µprogram -/

/-- A command in range has a µprogram of fewer than 256 µops, so MPC does not wrap (R21). -/
theorem uprog_length_lt {p : Params} {c : Instr} (ps : List Byte) (hp : p.legal = true) (hc : commandInRange p c = true) :
    (uprog c ps).length < 256 := by
  simp only [Params.legal, Bool.and_eq_true, decide_eq_true_eq] at hp
  cases c with
  | write n =>
    simp only [commandInRange, lenInRange, decide_eq_true_eq] at hc
    simp [uprog, uprogWrite, beginSeq, txSeq, List.length_flatMap]
    omega
  | burst r wc =>
    simp only [commandInRange, wcInRange, Bool.and_eq_true, decide_eq_true_eq] at hc
    simp [uprog, uprogBurst, beginSeq, txSeq, wordSeq, lastWordSeq]
    omega
  | _ => simp [uprog, uprogBegin, beginSeq, uprogReadb, uprogSetack, uprogStop]

/-- The last µop of a list is the one at its last position. -/
theorem getLast?_of_last {l : List MicroOp} {i : Nat} {u : MicroOp} (hu : l[i]? = some u) (hlast : i + 1 = l.length) :
    l.getLast? = some u := by
  rw [List.getLast?_eq_getElem?, ← hlast, Nat.add_sub_cancel, hu]

/-- A BURST ends at COMMIT (R172). -/
theorem commit_of_last {r : Byte} {wc i : Nat} {ps : List Byte} {u : MicroOp} (hu : (uprog (.burst r wc) ps)[i]? = some u)
    (hlast : i + 1 = (uprog (.burst r wc) ps).length) : u = .commit := by
  have hu := getLast?_of_last hu hlast
  rw [uprog, uprogBurst, List.getLast?_append] at hu
  simpa using hu.symm

/-- The last µop of every µprogram ends its command in a state of R54(a). -/
theorem endsCommand_of_last {c : Instr} {ps : List Byte} {i : Nat} {u : MicroOp} (hu : (uprog c ps)[i]? = some u)
    (hlast : i + 1 = (uprog c ps).length) : u.endsCommand = true := by
  cases c with
  | burst r wc => exact commit_of_last hu hlast ▸ rfl
  | write n =>
    have hu := getLast?_of_last hu hlast
    rw [uprog, uprogWrite, List.getLast?_append] at hu
    obtain rfl : u = .stop := by simpa using hu.symm
    rfl
  | _ =>
    have hu := getLast?_of_last hu hlast
    simp [uprog, uprogBegin, beginSeq, uprogReadb, uprogSetack, uprogStop] at hu
    subst hu
    rfl

/-- The direction of the address byte last requested before position `i` of a command's µprogram (R24). -/
def requestedDir (c : Instr) (i : Nat) : Option Dir :=
  if i ≤ 2 then none
  else
    match c with
    | .begin d => some d
    | .write _ => some .write
    | .burst _ _ => some (if i ≤ 11 then .write else .read)
    | _ => none

/-- DIR is the direction last requested (R24). -/
theorem dirOk_iff {s : State} {c : Instr} (hc : s.cur = some c) :
    dirOk s = true ↔ ∀ d, requestedDir c s.mpc.toNat = some d → s.dir = d := by
  cases c <;> simp [dirOk, hc, requestedDir] <;> grind

/-- One position on: either an ADDR requested the direction, or it is the one requested before. -/
theorem requestedDir_succ {c : Instr} {ps : List Byte} {i : Nat} {u : MicroOp} {d : Dir} (hu : (uprog c ps)[i]? = some u)
    (hd : requestedDir c (i + 1) = some d) :
    u = .addr d ∨ ((∀ d', u ≠ .addr d') ∧ requestedDir c i = some d) := by
  cases c with
  | begin d' =>
    simp only [uprog, uprogBegin, beginSeq] at hu
    rcases i with _ | _ | _ | _ | _ | i <;> simp [requestedDir] at hu hd ⊢ <;> grind
  | write n =>
    rcases Nat.lt_or_ge i 5 with hi | hi
    · rw [uprog, uprogWrite_opening _ _ _ hi, beginSeq] at hu
      rcases i with _ | _ | _ | _ | _ | i <;> simp [requestedDir] at hu hd ⊢ <;> grind
    · have := uprogWrite_rest n ps i hi hu
      simp [requestedDir] at hd ⊢
      grind
  | burst r wc =>
    rcases Nat.lt_or_ge i 14 with hi | hi
    · rw [uprog, uprogBurst_opening _ _ _ hi, burstOpening] at hu
      interval_cases i <;> simp [requestedDir] at hu hd ⊢ <;> grind
    · obtain ⟨k, rfl⟩ := Nat.exists_eq_add_of_le hi
      rw [uprog, uprogBurst_receive] at hu
      have hs := standsAt_of_receive _ _ _ hu
      have hne : ∀ d', u ≠ .addr d' := by
        rintro d' rfl
        exact hs
      simp [requestedDir] at hd ⊢
      grind
  | _ => simp [requestedDir] at hd

/-- What follows CLRADDR fits the direction of the address before it. -/
theorem follows_clrAddr {c : Instr} {ps : List Byte} {i : Nat} {v : MicroOp} (hu : (uprog c ps)[i]? = some .clrAddr)
    (hv : (uprog c ps)[i + 1]? = some v) : ∃ d, requestedDir c i = some d ∧ followsIn d .clrAddr v = true := by
  have hf := follows_of_positions hu hv
  cases c with
  | begin d =>
    simp only [uprog, uprogBegin, beginSeq] at hu hv
    rcases i with _ | _ | _ | _ | _ | i <;> simp at hu hv
  | write n =>
    rcases Nat.lt_or_ge i 5 with hi | hi
    · rw [uprog, uprogWrite_opening _ _ _ hi, beginSeq] at hu
      obtain rfl : i = 4 := by
        rcases i with _ | _ | _ | _ | _ | i <;> simp at hu ⊢
      rcases uprogWrite_rest n ps 5 le_rfl hv with rfl | ⟨b, rfl⟩ | rfl
      · exact ⟨.write, rfl, rfl⟩
      · cases hf
      · exact ⟨.write, rfl, rfl⟩
    · rcases uprogWrite_rest n ps i hi hu with h | ⟨b, h⟩ | h <;> cases h
  | burst r wc =>
    rcases Nat.lt_or_ge i 14 with hi | hi
    · rw [uprog, uprogBurst_opening _ _ _ hi, burstOpening] at hu
      obtain rfl | rfl : i = 4 ∨ i = 13 := by
        interval_cases i <;> simp at hu ⊢
      · rw [uprog, uprogBurst_opening _ _ _ (by decide), burstOpening] at hv
        simp at hv
        exact ⟨.write, rfl, hv ▸ rfl⟩
      · have h0 : (uprogBurst r wc)[14]? = some (.wait .rxNotEmpty) := by
          rw [uprogBurst_receive r wc 0]
          cases wc - 1 <;> rfl
        obtain rfl : v = .wait .rxNotEmpty := Option.some.inj (hv.symm.trans h0)
        exact ⟨.read, rfl, rfl⟩
    · obtain ⟨k, rfl⟩ := Nat.exists_eq_add_of_le hi
      rw [uprog, uprogBurst_receive] at hu
      exact (standsAt_of_receive _ _ _ hu).elim
  | readb | setack | stop =>
    rcases i with _ | _ | i <;> simp [uprog, uprogReadb, uprogSetack, uprogStop] at hu

/-- Only what follows CLRADDR depends on the direction. -/
theorem followsIn_dir {u : MicroOp} (h : u ≠ .clrAddr) (v : MicroOp) (d d' : Dir) : followsIn d u v = followsIn d' u v := by
  unfold followsIn
  split <;> simp_all

/-- Which µop follows which, in a state whose direction is the one last requested. -/
theorem followsIn_of_positions {c : Instr} {ps : List Byte} {i : Nat} {u v : MicroOp} {d : Dir}
    (hu : (uprog c ps)[i]? = some u) (hv : (uprog c ps)[i + 1]? = some v)
    (hd : u = .clrAddr → ∀ d', requestedDir c i = some d' → d = d') : followsIn d u v = true := by
  by_cases h : u = .clrAddr
  · subst h
    obtain ⟨d', hd', hf⟩ := follows_clrAddr hu hv
    exact hd rfl d' hd' ▸ hf
  · have hf := follows_of_positions hu hv
    rw [CanFollow, followsIn_dir h v .write d, followsIn_dir h v .read d, Bool.or_self] at hf
    exact hf

/-- COMMIT stands at the end of a BURST only (R172). -/
theorem commit_position {c : Instr} {ps : List Byte} {i : Nat} (h : (uprog c ps)[i]? = some .commit) :
    ∃ r wc, c = .burst r wc ∧ i = 14 + (4 * (wc - 1) + 6) ∧ i + 1 = (uprog c ps).length := by
  cases c with
  | burst r wc =>
    rcases Nat.lt_or_ge i 14 with hi | hi
    · rw [uprog, uprogBurst_opening _ _ _ hi, burstOpening] at h
      interval_cases i <;> simp at h
    · obtain ⟨k, rfl⟩ := Nat.exists_eq_add_of_le hi
      rw [uprog, uprogBurst_receive] at h
      obtain rfl : k = 4 * (wc - 1) + 6 := standsAt_of_receive _ _ _ h
      refine ⟨r, wc, rfl, rfl, ?_⟩
      simp [uprog, uprogBurst_eq, burstOpening, burstReceive, wordSeq, lastWordSeq]
      omega
  | write n =>
    have := List.mem_of_getElem? h
    simp [uprog, uprogWrite, beginSeq, txSeq] at this
  | _ =>
    have := List.mem_of_getElem? h
    simp [uprog, uprogBegin, beginSeq, uprogReadb, uprogSetack, uprogStop] at this

/-- The counters of a BURST (R26, R31, R42). -/
theorem burstCounts_iff {s : State} {r : Byte} {wc : Nat} (hc : s.cur = some (.burst r wc)) :
    burstCounts s = true ↔
      s.bytes.toNat = ((runningProg s).take s.mpc.toNat).countP MicroOp.takesByte ∧
      s.widx.toNat = ((runningProg s).take s.mpc.toNat).countP MicroOp.endsWord ∧ s.resultValid = false := by
  simp [burstCounts, hc, and_assoc]

/-- Other commands do not count. -/
theorem burstCounts_of_notBurst {s : State} (h : ∀ r wc, s.cur ≠ some (.burst r wc)) : burstCounts s = true := by
  unfold burstCounts
  split
  · next r wc hc => exact absurd hc (h r wc)
  · rfl

/-- One µop more, counted. -/
theorem countP_take_succ {α : Type} (p : α → Bool) {l : List α} {i : Nat} {a : α} (h : l[i]? = some a) :
    (l.take (i + 1)).countP p = (l.take i).countP p + if p a then 1 else 0 := by
  rw [List.take_add_one, h]
  simp [List.countP_cons, List.countP_append]

/-- A byte counter that counts the µops of a short µprogram does not wrap. -/
theorem toNat_counted {p : MicroOp → Bool} {l : List MicroOp} {i : Nat} {u : MicroOp} {b : Byte} (hlen : l.length < 256)
    (hu : l[i]? = some u) (hb : b.toNat = (l.take i).countP p) :
    (if p u then b + 1 else b).toNat = (l.take (i + 1)).countP p := by
  have hle : (l.take (i + 1)).countP p ≤ l.length := List.countP_le_length.trans (List.take_sublist _ _).length_le
  rw [countP_take_succ p hu] at hle ⊢
  split <;> simp_all [BitVec.toNat_add]
  omega

/-! ### The invariant along a step -/

/-- The lengths of the buffers, one by one (R37, R38, R40, R45). -/
theorem sizesOk_iff (s : State) :
    sizesOk s = true ↔
      s.params.legal = true ∧ s.txbuf.length = s.params.txbufDepth ∧ s.payload.length = s.params.txbufDepth ∧
        s.result.length = s.params.maxWords ∧ s.work.length = s.params.maxWords := by
  simp [sizesOk, and_assoc]

/-- No µop changes the length of WORK. -/
theorem runMicro_work_length (u : MicroOp) (s : State) : (runMicro u s).1.work.length = s.work.length := by
  rw [runMicro_work]
  split
  · exact List.length_set
  · rfl

/-- Every µop keeps the lengths of the buffers. -/
theorem runMicro_keeps_sizes {s : State} (u : MicroOp) (hs : sizesOk s = true) : sizesOk (runMicro u s).1 = true := by
  obtain ⟨-, -, -, hparams, htx, hpay, -⟩ := runMicro_keeps u s
  rw [sizesOk_iff] at hs ⊢
  rw [hparams, htx, hpay, runMicro_work_length, runMicro_result]
  obtain ⟨h1, h2, h3, h4, h5⟩ := hs
  refine ⟨h1, h2, h3, ?_, h5⟩
  split
  · exact h5
  · exact h4

/-- A running command, taken out of the invariant. -/
structure Running (s : State) (c : Instr) (u : MicroOp) : Prop where
  sizes : sizesOk s = true
  link : linkOk s = true
  noFault : s.fault = false
  noTimeout : s.tmoWhere = none
  busy : s.busy = true
  cur : s.cur = some c
  micro : (uprog c s.payload)[s.mpc.toNat]? = some u
  inRange : commandInRange s.params c = true
  ok : microOk u s = true
  spin : u.isWait = true ∨ s.spin = 0
  noErr : s.err = .none
  dir : dirOk s = true
  counts : burstCounts s = true

/-- The µop at MPC is one of CUR's µprogram (R125). -/
theorem currentMicro_of_cur {s : State} {c : Instr} (hc : s.cur = some c) :
    currentMicro s = (uprog c s.payload)[s.mpc.toNat]? := by
  rw [currentMicro, runningProg_of_cur hc]

/-- The µop at MPC. -/
theorem Running.current {s : State} {c : Instr} {u : MicroOp} (h : Running s c u) : currentMicro s = some u :=
  (currentMicro_of_cur h.cur).trans h.micro

/-- The invariant, with a command running, gives what holds at its µop. -/
theorem running_of_inv {s : State} {u : MicroOp} (hi : s.inv = true) (hb : s.busy = true) (hu : currentMicro s = some u) :
    ∃ c, Running s c u := by
  obtain ⟨hsz, hl, hf, ht, ⟨-, c, u', hc, hu', hr, hm, hs, he, hd, hn⟩ | ⟨hb', -⟩⟩ := (inv_iff s).mp hi
  · obtain rfl : u' = u := Option.some.inj (hu'.symm.trans hu)
    exact ⟨c, hsz, hl, hf, by simpa [he] using ht, hb, hc, currentMicro_of_cur hc ▸ hu, hr, hm, hs, he, hd, hn⟩
  · simp [hb] at hb'

/-- What holds at a µop gives the invariant back. -/
theorem Running.inv {s : State} {c : Instr} {u : MicroOp} (h : Running s c u) : s.inv = true :=
  (inv_iff s).mpr ⟨h.sizes, h.link, h.noFault, by simp [h.noTimeout, h.noErr],
    .inl ⟨h.busy, c, u, h.cur, h.current, h.inRange, h.ok, h.spin, h.noErr, h.dir, h.counts⟩⟩

/-- The invariant between commands. -/
theorem inv_of_rest {s : State} (hs : sizesOk s = true) (hl : linkOk s = true) (hf : s.fault = false)
    (ht : s.tmoWhere.isSome = decide (s.err = .busTimeout)) (hb : s.busy = false) (hr : restOk s = true) (hc : s.cur = none)
    (hm : s.mpc = 0) (hp : s.spin = 0) : s.inv = true :=
  (inv_iff s).mpr ⟨hs, hl, hf, ht, .inr ⟨hb, hr, hc, hm, hp⟩⟩

/-- SPIN is 0 after every µop that advances (R206). -/
theorem runMicro_spin {u : MicroOp} {s : State} (ha : Advances u s) (hs : u.isWait = true ∨ s.spin = 0) :
    (runMicro u s).1.spin = 0 := by
  cases u with
  | wait f => rw [runMicro_wait_of_set (ha f rfl)]
  | _ =>
    obtain ⟨-, -, -, -, -, -, -, -, -, -, -, -, h⟩ := runMicro_keeps _ s
    exact (h rfl).trans (hs.resolve_left Bool.false_ne_true)

/-- The running µprogram has fewer than 256 µops. -/
theorem Running.length_lt {s : State} {c : Instr} {u : MicroOp} (h : Running s c u) : (uprog c s.payload).length < 256 :=
  uprog_length_lt _ ((sizesOk_iff s).mp h.sizes).1 h.inRange

/-- MPC moves on without wrapping (R21). -/
theorem Running.mpc_succ {s : State} {c : Instr} {u : MicroOp} (h : Running s c u)
    (hmore : s.mpc.toNat + 1 < (runningProg s).length) : (s.mpc + 1).toNat = s.mpc.toNat + 1 := by
  rw [runningProg_of_cur h.cur] at hmore
  have hlen := h.length_lt
  rw [BitVec.toNat_add]
  exact Nat.mod_eq_of_lt (by simp; omega)

/-- The last µop of a command leaves the state between commands. -/
theorem Running.inv_of_ended {s : State} {c : Instr} {u : MicroOp} (h : Running s c u) (ha : Advances u s)
    (hlast : s.mpc.toNat + 1 = (runningProg s).length) : (endCommand (runMicro u s).1).inv = true := by
  obtain ⟨-, -, -, -, -, -, herr, htmo, -⟩ := runMicro_keeps u s
  rw [runningProg_of_cur h.cur] at hlast
  refine inv_of_rest (runMicro_keeps_sizes u h.sizes) (runMicro_keeps_link h.link h.ok)
    ((runMicro_keeps_fault h.link h.ok).trans h.noFault) ?_ rfl
    (runMicro_rest h.link h.ok (endsCommand_of_last h.micro hlast)) rfl rfl (runMicro_spin ha h.spin)
  rw [endCommand_tmoWhere, endCommand_err, htmo, herr, h.noTimeout, h.noErr]
  rfl

/-- Before the last µop, what the next µop needs holds after this one. -/
theorem Running.inv_of_moved {s : State} {c : Instr} {u : MicroOp} (h : Running s c u) (ha : Advances u s)
    (hmore : s.mpc.toNat + 1 < (runningProg s).length) :
    State.inv { (runMicro u s).1 with mpc := s.mpc + 1 } = true := by
  obtain ⟨hbusy, hcur, -, hparams, -, hpay, herr, htmo, -⟩ := runMicro_keeps u s
  have hmpc := h.mpc_succ hmore
  rw [runningProg_of_cur h.cur] at hmore
  have hlen := h.length_lt
  obtain ⟨v, hv⟩ : ∃ v, (uprog c s.payload)[s.mpc.toNat + 1]? = some v := ⟨_, List.getElem?_eq_getElem hmore⟩
  have hnext : microOk v (runMicro u s).1 = true := by
    refine runMicro_next h.link h.ok ha (followsIn_of_positions h.micro hv ?_)
    rintro rfl d hd
    exact (dirOk_iff h.cur).mp h.dir d hd
  have hdir : dirOk { (runMicro u s).1 with mpc := s.mpc + 1 } = true := by
    refine (dirOk_iff (s := { (runMicro u s).1 with mpc := s.mpc + 1 }) (hcur.trans h.cur)).mpr fun d hd => ?_
    rw [hmpc] at hd
    rcases requestedDir_succ h.micro hd with rfl | ⟨hne, hd⟩
    · rfl
    · obtain ⟨-, -, -, -, -, -, hdir', -⟩ := runMicro_writes u s
      exact (hdir'.resolve_right (hne _)).trans ((dirOk_iff h.cur).mp h.dir d hd)
  have hcounts : burstCounts { (runMicro u s).1 with mpc := s.mpc + 1 } = true := by
    by_cases hburst : ∃ r wc, c = .burst r wc
    · obtain ⟨r, wc, rfl⟩ := hburst
      obtain ⟨hbytes, hwidx, hvalid⟩ := (burstCounts_iff h.cur).mp h.counts
      have hne : u ≠ .commit := by
        rintro rfl
        obtain ⟨-, -, -, -, hend⟩ := commit_position h.micro
        omega
      refine (burstCounts_iff (s := { (runMicro u s).1 with mpc := s.mpc + 1 }) (hcur.trans h.cur)).mpr ?_
      rw [runningProg_of_cur (s := { (runMicro u s).1 with mpc := s.mpc + 1 }) (hcur.trans h.cur)]
      rw [runningProg_of_cur h.cur] at hbytes hwidx
      simp only [runMicro_bytes, runMicro_widx, runMicro_resultValid, hpay, hmpc]
      exact ⟨toNat_counted hlen h.micro hbytes, toNat_counted hlen h.micro hwidx, by simp [hne, hvalid]⟩
    · refine burstCounts_of_notBurst fun r wc hc => hburst ⟨r, wc, ?_⟩
      exact Option.some.inj ((hcur.trans h.cur).symm.trans hc)
  exact Running.inv (c := c) (u := v)
    { sizes := runMicro_keeps_sizes u h.sizes
      link := runMicro_keeps_link h.link h.ok
      noFault := (runMicro_keeps_fault h.link h.ok).trans h.noFault
      noTimeout := htmo.trans h.noTimeout
      busy := hbusy.trans h.busy
      cur := hcur.trans h.cur
      micro := by rw [hpay, hmpc, hv]
      inRange := hparams.symm ▸ h.inRange
      ok := hnext
      spin := .inr (runMicro_spin ha h.spin)
      noErr := herr.trans h.noErr
      dir := hdir
      counts := hcounts }

/-- What a wait that fails its poll leaves to the abort: the flags are 0, and the queue is a Start not yet performed, with or
without the Stop before it, or something else in an open transaction (R207). -/
theorem failedWait_cases {f : WaitFlag} {s : State} (hl : linkOk s = true) (hm : microOk (.wait f) s = true)
    (hf : flagValue f s = false) :
    s.startSent = false ∧ s.addrAcked = false ∧
      ((s.preq = [.start] ∧ busView s.trace = .closed) ∨
        (s.preq = [.stop, .start] ∧ (busView s.trace).isOpen = true) ∨
        (Request.start ∉ s.preq ∧ Request.stop ∉ s.preq ∧ (busView s.trace).isOpen = true)) := by
  rw [linkOk_iff] at hl
  cases f with
  | startSent =>
    replace hf : s.startSent = false := hf
    rw [microOk_waitStartSent_iff] at hm
    grind
  | addrAcked =>
    replace hf : s.addrAcked = false := hf
    rw [microOk_waitAddrAcked_iff] at hm
    rw [isOpen_iff]
    grind
  | txEmpty =>
    rw [microOk_waitTxEmpty_iff] at hm
    rw [isOpen_iff]
    grind
  | rxNotEmpty =>
    obtain ⟨ht, -⟩ := (microOk_waitRxNotEmpty_iff s).mp hm
    have hs := startSent_of_transferring ((linkOk_iff s).mpr hl) ht
    obtain ⟨-, hq, hd, ha⟩ := (transferringOk_iff s).mp ht
    exact ⟨hs, ha, .inr (.inr ⟨by simp [hq], by simp [hq], isOpen_of_dataPhase hd⟩)⟩

/-- The abort leaves a resting queue: the Stop already queued or requested now, if the transaction is open (R207). -/
theorem restingQueue_of_abort {f : WaitFlag} {s : State} (hl : linkOk s = true) (hm : microOk (.wait f) s = true)
    (hf : flagValue f s = false) : restingQueue (stopIfStarted s) = true ∧ (stopIfStarted s).fault = s.fault := by
  obtain ⟨-, -, ⟨hq, hv⟩ | ⟨hq, hv⟩ | ⟨hstart, hstop, hv⟩⟩ := failedWait_cases hl hm hf
  · rw [stopIfStarted_of_queued (by simp [hq])]
    exact ⟨(restingQueue_iff _).mpr (.inl ⟨by simp [flushRequests, hq], hv⟩), rfl⟩
  · rw [stopIfStarted_of_queued (by simp [hq])]
    exact ⟨(restingQueue_iff _).mpr (.inr ⟨by simp [flushRequests, hq], hv⟩), rfl⟩
  · have hflush : (flushRequests s).preq = [] := by
      simp only [flushRequests, List.filter_eq_nil_iff, decide_eq_true_eq]
      rintro q hq rfl
      exact hstop hq
    rw [stopIfStarted_of_started hstart, enqueue_of_empty hflush]
    exact ⟨(restingQueue_iff _).mpr (.inr ⟨rfl, hv⟩), rfl⟩

/-- A failed poll changes SPIN only, at a WAIT. -/
theorem Running.inv_of_stayed {s : State} {c : Instr} {f : WaitFlag} (h : Running s c (.wait f)) (n : Half) :
    State.inv { s with spin := n } = true :=
  Running.inv (c := c) (u := .wait f) { h with spin := .inl rfl }

/-- The abort leaves the state between commands (R207). -/
theorem Running.inv_of_aborted {s : State} {c : Instr} {f : WaitFlag} (h : Running s c (.wait f)) (hf : flagValue f s = false)
    (n : Half) : (abort f { s with spin := n }).inv = true := by
  have hf' : flagValue f { s with spin := n } = false := by cases f <;> exact hf
  have hm' : microOk (.wait f) { s with spin := n } = true := h.ok
  obtain ⟨hr, hfault⟩ := restingQueue_of_abort (s := { s with spin := n }) h.link hm' hf'
  obtain ⟨hs, ha, -⟩ := failedWait_cases h.link h.ok hf
  refine inv_of_rest ?_ ?_ (hfault.trans h.noFault) rfl rfl ((restOk_iff _).mpr (.inl ⟨rfl, ?_⟩)) rfl rfl rfl
  · have := (sizesOk_iff s).mp h.sizes
    rw [sizesOk_iff]
    simpa using this
  · have := (linkOk_iff s).mp h.link
    rw [linkOk_iff]
    simpa [hs, ha] using this
  · rw [restingQueue_iff] at hr ⊢
    simpa using hr

/-- Every ENGINE step keeps the invariant. -/
theorem engineStep_keeps_inv {s t : State} (hi : s.inv = true) (h : engineStep s = .next t) : t.inv = true := by
  cases engineEffect_of_step h with
  | idle => exact hi
  | ended u hb hu ha hlast =>
    obtain ⟨c, hr⟩ := running_of_inv hi hb hu
    exact hr.inv_of_ended ha hlast
  | moved u hb hu ha hmore =>
    obtain ⟨c, hr⟩ := running_of_inv hi hb hu
    exact hr.inv_of_moved ha hmore
  | stayed f hb hu =>
    obtain ⟨c, hr⟩ := running_of_inv hi hb hu
    exact hr.inv_of_stayed _
  | aborted f hb hu hf =>
    obtain ⟨c, hr⟩ := running_of_inv hi hb hu
    exact hr.inv_of_aborted hf _

end Sys2Proof.Machine
end

section
/-! PROOFS. The statements of 10_state.md: the invariant along HOST steps and RESET, and what it gives. -/

namespace Sys2Proof.Machine
open Host

/-! ### HOST, BUS and RESET -/

/-- The range check is R122's in both forms. -/
theorem commandInRange_of_range {p : Params} {c : Instr} (h : rangeFails p c = false) : commandInRange p c = true := by
  cases c with
  | write n => rw [commandInRange, lenInRange_eq, h]; rfl
  | burst r wc => rw [commandInRange, wcInRange_eq p r wc, h]; rfl
  | _ => rfl

/-- The phase check of BEGIN, WRITE and BURST (R123). -/
theorem phaseClosed_of_check {s : State} (h : (!(s.phase == .idle || s.phase == .stopped)) = false) : phaseClosed s = true := by
  rwa [Bool.not_eq_false'] at h

/-- The first µop of an accepted command finds what it needs (R123). -/
theorem firstMicro_of_accepted {c : Instr} {s : State} (ps : List Byte) (hp : phaseFails s c = false) (hr : restOk s = true) :
    ∃ u, (uprog c ps)[0]? = some u ∧ microOk u s = true := by
  have hclosed : phaseClosed s = true → microOk .start s = true := by
    intro hc
    refine (microOk_start_iff s).mpr ⟨hc, ?_⟩
    rcases (restOk_iff s).mp hr with ⟨-, hr⟩ | ht
    · exact hr
    · obtain ⟨hp, -⟩ := (transferringOk_iff s).mp ht
      simp [phaseClosed_iff, hp] at hc
  have hopen : s.phase = .transferring → transferringOk s = true := by
    intro hp
    rcases (restOk_iff s).mp hr with ⟨hc, -⟩ | ht
    · simp [phaseClosed_iff, hp] at hc
    · exact ht
  cases c with
  | begin d => exact ⟨.start, rfl, hclosed (phaseClosed_of_check hp)⟩
  | write n => exact ⟨.start, rfl, hclosed (phaseClosed_of_check hp)⟩
  | burst r wc => exact ⟨.start, rfl, hclosed (phaseClosed_of_check hp)⟩
  | setack e => exact ⟨.setAck e, rfl, hr⟩
  | stop =>
    simp [phaseFails] at hp
    exact ⟨.stop, rfl, hopen hp⟩
  | readb =>
    simp [phaseFails] at hp
    exact ⟨.wait .rxNotEmpty, rfl, (microOk_waitRxNotEmpty_iff s).mpr ⟨hopen hp.1, hp.2⟩⟩

/-- Acceptance keeps the lengths of the buffers: PAYLOAD is overwritten from TXBUF in place, WORK is cleared (R120). -/
theorem sizesOk_acceptedState {c : Instr} {s : State} (hs : sizesOk s = true) : sizesOk (acceptedState c s) = true := by
  rw [sizesOk_iff] at hs ⊢
  obtain ⟨hp, ht, hpay, hr, hw⟩ := hs
  refine ⟨hp, ht, ?_, hr, ?_⟩
  · cases c <;> simp [acceptedState, ht, hpay]
    omega
  · cases c <;> simp [acceptedState, hw]

/-- An accepted command stands at its first µop. -/
theorem acceptedState_inv {c : Instr} {s : State} (hi : s.inv = true) (hb : s.busy = false)
    (hr : rangeFails s.params c = false) (hp : phaseFails s c = false) : (acceptedState c s).inv = true := by
  obtain ⟨hsz, hl, hf, -, ⟨hb', -⟩ | ⟨-, hrest, -⟩⟩ := (inv_iff s).mp hi
  · simp [hb] at hb'
  · obtain ⟨u, hu, hm⟩ := firstMicro_of_accepted (acceptedState c s).payload hp hrest
    have hcur : (acceptedState c s).cur = some c := rfl
    exact Running.inv (c := c) (u := u)
      { sizes := sizesOk_acceptedState hsz
        link := hl
        noFault := hf
        noTimeout := rfl
        busy := rfl
        cur := rfl
        micro := hu
        inRange := commandInRange_of_range hr
        ok := hm
        spin := .inr rfl
        noErr := rfl
        dir := (dirOk_iff hcur).mpr fun d hd => by simp [requestedDir, acceptedState] at hd
        counts := by cases c <;> rfl }

/-- Every HOST step keeps the invariant. -/
theorem hostEffect_keeps_inv {a : Access} {s t : State} (hi : s.inv = true) (h : HostEffect a s t) : t.inv = true := by
  cases h with
  | quiet limit txbuf refused reads hlen =>
    obtain ⟨hsz, hrest⟩ := (inv_iff s).mp hi
    refine (inv_iff _).mpr ⟨?_, hrest⟩
    rw [sizesOk_iff] at hsz ⊢
    exact hlen.symm ▸ hsz
  | overrun => exact hi
  | rejected w e ha hb he =>
    obtain ⟨hsz, hl, hf, -, ⟨hb', -⟩ | ⟨-, hrest, hc, hm, hs⟩⟩ := (inv_iff s).mp hi
    · simp [hb] at hb'
    · exact inv_of_rest hsz hl hf (by simp [he]) hb hrest hc hm hs
  | accepted w c ha hb hr hp => exact acceptedState_inv hi hb hr hp

/-- In a state that meets the invariant the queue fits the bus (R90). -/
theorem queueFits_of_inv {s : State} (hi : s.inv = true) : QueueFits s := by
  obtain ⟨-, hl, -, -, ⟨-, c, u, -, -, -, hm, -⟩ | ⟨-, hrest, -⟩⟩ := (inv_iff s).mp hi
  · exact queueFits_of_micro hl hm
  · exact queueFits_of_rest hrest

/-- The effects of a BUS step in a state that meets the invariant. -/
theorem busEffect_of_inv {s : State} (hi : s.inv = true) (m : BusMove) : BusEffect s (busStep m s) := by
  obtain ⟨-, hl, -⟩ := (inv_iff s).mp hi
  exact busEffect_of_step m hl (queueFits_of_inv hi)

/-- Every BUS step keeps the invariant. -/
theorem busStep_keeps_inv {s : State} (m : BusMove) (hi : s.inv = true) : (busStep m s).inv = true := by
  have h := busEffect_of_inv hi m
  obtain ⟨hsz, hl, hf, ht, hrun⟩ := (inv_iff s).mp hi
  have hl' := h.keeps_link hl
  have hmicro := fun u => h.keeps_micro (u := u) hl
  have hrest := h.keeps_rest
  rw [busStep_frame] at hl' hrest hmicro ⊢
  refine (inv_iff _).mpr ⟨hsz, hl', hf, ht, ?_⟩
  rcases hrun with ⟨hb, c, u, hc, hu, hr, hm, hrun⟩ | ⟨hb, hr, hrun⟩
  · exact .inl ⟨hb, c, u, hc, hu, hr, hmicro u hm, hrun⟩
  · exact .inr ⟨hb, hrest hr, hrun⟩

/-- Every step of every agent keeps the invariant of the machine. -/
theorem applyEvent_keeps_inv {e : Event} {s t : State} (hi : s.inv = true) (h : applyEvent e s = .next t) : t.inv = true := by
  cases e with
  | host a => exact hostEffect_keeps_inv hi (hostEffect_of_step h)
  | engine => exact engineStep_keeps_inv hi h
  | bus m =>
    cases h
    exact busStep_keeps_inv m hi
  | reset =>
    cases h
    obtain ⟨hs, -⟩ := (inv_iff s).mp hi
    exact afterReset_inv _ ((sizesOk_iff s).mp hs).1

/-- Settles O43: the step is one of the agents' or RESET, and the steps still to come are no part of the invariant. -/
theorem stepKeepsTheInvariant : Obligations.StepKeepsTheInvariant := by
  intro s t hi h
  obtain ⟨e, es, h⟩ := applyEvent_of_step h
  exact applyEvent_keeps_inv (s := s.withInputs es) hi h

/-- Settles O45: R54(a) is the state between commands, the rest are parts of the invariant and the queue that fits the bus. -/
theorem invariantGivesTheRulesOfState : Obligations.InvariantGivesTheRulesOfState := by
  intro s hi
  obtain ⟨hsz, hl, hf, ht, hrun⟩ := (inv_iff s).mp hi
  have hq := queueFits_of_inv hi
  obtain ⟨hview, -, -, hrx, -⟩ := (linkOk_iff s).mp hl
  have hidle : s.busy = false → s.phase = .idle ∨ s.phase = .transferring ∨ s.phase = .stopped := by
    intro hb
    rcases hrun with ⟨hb', -⟩ | ⟨-, hr, -⟩
    · simp [hb] at hb'
    · rw [restOk_iff, phaseClosed_iff, transferringOk_iff] at hr
      grind
  refine ⟨hidle, fun hp => ?_, hrx, ?_, hf, ?_, hview⟩
  · cases hb : s.busy
    · have := hidle hb
      grind
    · rfl
  · grind [QueueFits]
  · grind [QueueFits]

end Sys2Proof.Machine
end

section
/-! PROOFS. The statements of 10_state.md: the data of a burst (R182 to R185). -/

namespace Sys2Proof.Machine
open Host

/-! ### The data of a burst past its read address -/

/-- What holds of a burst's data once its read address is ACKed (R182 to R184). -/
structure BurstData (wc : Nat) (s : State) : Prop where
  work : s.work = workOf s.params.maxWords (takenBytes s)
  taken : (takenBytes s).length = s.bytes.toNat
  acc : s.bytes.toNat % 2 = 0 ∨ some s.acc = (takenBytes s).getLast?.map highByte
  received : s.phase = .stopped ∨ (receivedSinceAddr s.trace).map Prod.fst = takenBytes s ++ pendingBytes s
  acks : s.params.rxPrefetch = true ∨ acksOk wc s = true

/-- The data invariant of a burst, before the end of its second BEGIN_SEQ and after it apart (R172). -/
theorem burstDataOk_iff {s : State} {r : Byte} {wc : Nat} (hc : s.cur = some (.burst r wc)) :
    burstDataOk s = true ↔
      (s.mpc.toNat < 14 ∧ s.work = workOf s.params.maxWords []) ∨ (14 ≤ s.mpc.toNat ∧ BurstData wc s) := by
  simp only [burstDataOk, hc, Bool.and_eq_true, Bool.or_eq_true, decide_eq_true_eq]
  rcases Nat.lt_or_ge s.mpc.toNat 14 with h | h
  · simp [h, Nat.not_le.mpr h]
  · simp only [Nat.not_lt.mpr h, if_false, false_or, false_and, h, true_and]
    exact ⟨fun ⟨h1, ⟨⟨h2, h3⟩, h4⟩, h5⟩ => ⟨h1, h2, h3, h4, h5⟩, fun ⟨h1, h2, h3, h4, h5⟩ => ⟨h1, ⟨⟨h2, h3⟩, h4⟩, h5⟩⟩

/-- Other commands have no burst's data. -/
theorem burstDataOk_of_notBurst {s : State} (h : ∀ r wc, s.cur ≠ some (.burst r wc)) : burstDataOk s = true := by
  unfold burstDataOk
  split
  · next r wc hc => exact absurd hc (h r wc)
  · rfl

/-- The three parts of the data invariant. -/
theorem dataInv_iff (s : State) : s.dataInv = true ↔ burstDataOk s = true ∧ resultOk s = true ∧ freshAddrOk s = true := by
  simp [State.dataInv, and_assoc]

/-- With ADDR_ACKED = 1 nothing is received (R83). -/
theorem freshAddrOk_iff (s : State) :
    freshAddrOk s = true ↔
      (s.addrAcked = true → receivedSinceAddr s.trace = [] ∧ s.rxNotEmpty = false ∧ s.shift = none) := by
  cases h : s.addrAcked <;> simp [freshAddrOk, h, and_assoc]

/-- With RESULT_VALID = 0 RESULT is not constrained (R55). -/
theorem resultOk_of_invalid {s : State} (h : s.resultValid = false) : resultOk s = true := by
  simp [resultOk, h]

/-! ### One byte more -/

/-- `zext_16` keeps the value (R10). -/
theorem zext16_toNat (b : Byte) : (zext16 b).toNat = b.toNat :=
  BitVec.toNat_setWidth_of_le (by decide)

/-- The high byte stands above the low eight bits (R175). -/
theorem highByte_toNat (b : Byte) : (highByte b).toNat = b.toNat <<< 8 := by
  have := b.isLt
  simp [highByte, zext16, Nat.shiftLeft_eq]
  omega

/-- The low byte ORed in: the word of two bytes, the first the high one (R176, R186). -/
theorem orLow_highByte (h l : Byte) : orLow (highByte h) l = h ++ l := by
  apply BitVec.eq_of_toNat_eq
  rw [orLow, BitVec.toNat_or, highByte_toNat, BitVec.toNat_append, zext16_toNat]

/-- The low byte added: the same word (R178, R186). -/
theorem addLow_highByte (h l : Byte) : addLow (highByte h) l = h ++ l := by
  have := h.isLt
  have hl := l.isLt
  apply BitVec.eq_of_toNat_eq
  rw [addLow, BitVec.toNat_add, highByte_toNat, BitVec.toNat_append, zext16_toNat, ← Nat.shiftLeft_add_eq_or_of_lt hl,
    Nat.shiftLeft_eq]
  omega

/-- A µop that takes the byte in DR takes the next byte received. -/
theorem takenBytes_take {s t : State} (hrec : (receivedSinceAddr s.trace).map Prod.fst = takenBytes s ++ pendingBytes s)
    (hlen : (takenBytes s).length = s.bytes.toNat) (hn : s.rxNotEmpty = true) (htrace : t.trace = s.trace)
    (hbytes : t.bytes.toNat = s.bytes.toNat + 1) (hn' : t.rxNotEmpty = false) (hshift : t.shift = s.shift) :
    takenBytes t = takenBytes s ++ [s.dr] ∧
      (receivedSinceAddr t.trace).map Prod.fst = takenBytes t ++ pendingBytes t := by
  have hrec' : (receivedSinceAddr s.trace).map Prod.fst = (takenBytes s ++ [s.dr]) ++ pendingBytes t := by
    rw [hrec]
    simp [pendingBytes, hn, hn', hshift]
  have ht : takenBytes t = takenBytes s ++ [s.dr] := by
    rw [takenBytes, htrace, hrec', hbytes]
    exact List.take_left' (by simp [hlen])
  exact ⟨ht, by rw [htrace, ht, hrec']⟩

/-- The ACK bits when one more byte is taken. -/
theorem acksOk_take {wc : Nat} {s t : State} (h : acksOk wc s = true) (hp : s.phase ≠ .stopped) (htrace : t.trace = s.trace)
    (hbytes : t.bytes.toNat = s.bytes.toNat + 1) (hlen : s.bytes.toNat < (receivedSinceAddr s.trace).length)
    (hkeep : s.ackEn = false → t.ackEn = false)
    (hack : s.ackEn = decide (s.bytes.toNat < 2 * wc - 1) → t.ackEn = decide (t.bytes.toNat < 2 * wc - 1)) :
    acksOk wc t = true := by
  rw [acksOk_iff] at h ⊢
  rw [htrace]
  rcases h with ⟨hpre, hacks⟩ | ⟨hoff, -, hacks⟩
  · exact .inl ⟨hpre, .inr (hack (hacks.resolve_left hp))⟩
  · have hle : ((receivedSinceAddr s.trace).map Prod.snd).length ≤ 1 := by
      rcases hacks with h | h <;> simp [h]
    rw [List.length_map] at hle
    exact .inr ⟨hkeep hoff, by omega, hacks⟩

/-- With a byte in DR more bytes are received than taken. -/
theorem BurstData.bytes_lt_received {wc : Nat} {s : State} (h : BurstData wc s) (hp : s.phase ≠ .stopped)
    (hn : s.rxNotEmpty = true) :
    s.bytes.toNat < (receivedSinceAddr s.trace).length := by
  have := congrArg List.length (h.received.resolve_left hp)
  simp [pendingBytes, hn, h.taken] at this
  omega

/-- The first byte of a word is taken: RXHI, and RXHI_NACK with ACK_EN cleared (R175, R177). -/
theorem BurstData.take_high {wc : Nat} {s : State} (h : BurstData wc s) (hp : s.phase ≠ .stopped) (hn : s.rxNotEmpty = true)
    (heven : s.bytes.toNat % 2 = 0) (e : Bool) (hkeep : s.ackEn = false → e = false)
    (hack : s.ackEn = decide (s.bytes.toNat < 2 * wc - 1) → e = decide (s.bytes.toNat + 1 < 2 * wc - 1)) :
    BurstData wc { takeToAcc (highByte s.dr) s with ackEn := e } := by
  have hbytes : (s.bytes + 1).toNat = s.bytes.toNat + 1 := by
    rw [BitVec.toNat_add]
    exact Nat.mod_eq_of_lt (by simp; omega)
  obtain ⟨htaken, hrec⟩ := takenBytes_take (t := { takeToAcc (highByte s.dr) s with ackEn := e }) (h.received.resolve_left hp)
    h.taken hn rfl hbytes rfl rfl
  have hlen : (takenBytes s).length = 2 * (s.bytes.toNat / 2) := by rw [h.taken]; omega
  exact
    { work := by rw [htaken, workOf_high hlen]; exact h.work
      taken := by rw [htaken, List.length_append, h.taken]; exact hbytes.symm
      acc := .inr (by rw [htaken]; simp)
      received := .inr hrec
      acks := h.acks.imp_right fun ha => acksOk_take ha hp rfl hbytes (h.bytes_lt_received hp hn) hkeep
        fun he => (hack he).trans (by rw [← hbytes]; rfl) }

/-- The second byte of a word is taken, and the word is stored: RXLO and RXADD (R176, R178). -/
theorem BurstData.take_low {wc : Nat} {s : State} (h : BurstData wc s) (hp : s.phase ≠ .stopped) (hn : s.rxNotEmpty = true)
    (hodd : s.bytes.toNat % 2 = 1) (hlt : s.bytes.toNat < 255) (hwidx : s.widx.toNat = s.bytes.toNat / 2)
    (hmax : s.widx.toNat < s.params.maxWords) (v : Half) (hv : ∀ b, s.acc = highByte b → v = b ++ s.dr)
    (hack : s.ackEn = decide (s.bytes.toNat < 2 * wc - 1) → s.ackEn = decide (s.bytes.toNat + 1 < 2 * wc - 1)) :
    BurstData wc (storeWord (takeToAcc v s)) := by
  have hbytes : (s.bytes + 1).toNat = s.bytes.toNat + 1 := by
    rw [BitVec.toNat_add]
    exact Nat.mod_eq_of_lt (by simp; omega)
  obtain ⟨htaken, hrec⟩ := takenBytes_take (t := storeWord (takeToAcc v s)) (h.received.resolve_left hp)
    h.taken hn rfl hbytes rfl rfl
  obtain ⟨init, b, hinit⟩ : ∃ init b, takenBytes s = init ++ [b] := by
    rcases List.eq_nil_or_concat (takenBytes s) with h0 | ⟨init, b, h1⟩
    · have := h.taken
      simp [h0] at this
      omega
    · exact ⟨init, b, by simpa using h1⟩
  have hacc : s.acc = highByte b := by
    have := h.acc.resolve_left (by omega)
    simpa [hinit] using this
  have hlen : init.length = 2 * s.widx.toNat := by
    have := h.taken
    simp [hinit] at this
    omega
  have hwork : s.work = workOf s.params.maxWords init := by rw [h.work, hinit, workOf_high hlen]
  exact
    { work := by
        rw [htaken, hinit, List.append_assoc, List.cons_append, List.nil_append]
        simp only [storeWord_params, takeToAcc_params]
        rw [workOf_pair hlen hmax, ← hwork, ← hv b hacc]
        rfl
      taken := by rw [htaken, List.length_append, h.taken]; exact hbytes.symm
      acc := .inl (by show (s.bytes + 1).toNat % 2 = 0; omega)
      received := .inr hrec
      acks := h.acks.imp_right fun ha => acksOk_take ha hp rfl hbytes (h.bytes_lt_received hp hn) id
        fun he => (hack he).trans (by rw [← hbytes]; rfl) }

/-! ### Positions in the receive part of a BURST -/

/-- Where a µop of a BURST stands, counted from the end of its second BEGIN_SEQ. -/
theorem burstReceive_position {r : Byte} {wc i : Nat} {ps : List Byte} {u : MicroOp} (hi : 14 ≤ i)
    (hu : (uprog (.burst r wc) ps)[i]? = some u) : standsAt (wc - 1) (i - 14) u := by
  obtain ⟨k, rfl⟩ := Nat.exists_eq_add_of_le hi
  rw [uprog, uprogBurst_receive] at hu
  simpa using standsAt_of_receive _ _ _ hu

/-- BYTES and WIDX by position, from the end of the second BEGIN_SEQ on. -/
theorem Running.counted {s : State} {r : Byte} {wc : Nat} {u : MicroOp} (h : Running s (.burst r wc) u)
    (hi : 14 ≤ s.mpc.toNat) :
    s.bytes.toNat = min ((s.mpc.toNat - 14) / 2) (2 * wc) ∧ s.widx.toNat = min ((s.mpc.toNat - 14) / 4) wc ∧
      2 ≤ wc ∧ wc ≤ s.params.maxWords ∧ s.params.maxWords ≤ 48 := by
  obtain ⟨hbytes, hwidx, -⟩ := (burstCounts_iff h.cur).mp h.counts
  have hp := ((sizesOk_iff s).mp h.sizes).1
  have hr := h.inRange
  simp only [Params.legal, commandInRange, wcInRange, Bool.and_eq_true, decide_eq_true_eq] at hp hr
  obtain ⟨k, hk⟩ := Nat.exists_eq_add_of_le hi
  have hwc : wc - 1 + 1 = wc := by omega
  obtain ⟨htake, hend⟩ := burstReceive_counts (wc - 1) k
  have hopen : ∀ p : MicroOp → Bool, (burstOpening r).countP p = 0 →
      ((uprogBurst r wc).take (14 + k)).countP p = ((burstReceive (wc - 1)).take k).countP p := by
    intro p h0
    rw [uprogBurst_eq, List.take_append, List.countP_append, List.take_of_length_le (by simp [burstOpening]), h0]
    simp [burstOpening]
  rw [runningProg_of_cur h.cur, uprog, hk, hopen _ rfl] at hbytes hwidx
  rw [htake, hwc] at hbytes
  rw [hend, hwc] at hwidx
  rw [hk, Nat.add_sub_cancel_left]
  exact ⟨hbytes, hwidx, hr.1, hr.2, hp.2⟩

/-- The µops of the receive part run in the data phase of the read, or with the final Stop requested. -/
theorem Running.receiving {s : State} {r : Byte} {wc : Nat} {u : MicroOp} (h : Running s (.burst r wc) u)
    (hi : 14 ≤ s.mpc.toNat) :
    transferringOk s = true ∨ (s.phase = .stopped ∧ restingQueue s = true) := by
  have hu := burstReceive_position hi h.micro
  have hm := h.ok
  cases u with
  | wait f =>
    obtain ⟨rfl, -⟩ := hu
    exact .inl ((microOk_waitRxNotEmpty_iff s).mp hm).1
  | rxHi | rxLo | rxHiNack | rxAdd => exact .inl ((microOk_rx_iff (.inr rfl) s).mp hm).1
  | stop => exact .inl hm
  | ackOn => exact .inr ((microOk_ackOn_iff s).mp hm)
  | commit =>
    obtain ⟨hp, hr, -⟩ := (microOk_commit_iff s).mp hm
    exact .inr ⟨hp, hr⟩
  | _ => exact hu.elim

/-- Every µop of the receive part but COMMIT keeps the data of the burst (R182 to R185). -/
theorem Running.keeps_data {s : State} {r : Byte} {wc : Nat} {u : MicroOp} (h : Running s (.burst r wc) u)
    (hi : 14 ≤ s.mpc.toNat) (hd : BurstData wc s) : BurstData wc (runMicro u s).1 := by
  have hu := burstReceive_position hi h.micro
  obtain ⟨hbytes, hwidx, hwc, hmax, h48⟩ := h.counted hi
  have htaking : u.takesByte = true → s.phase ≠ .stopped ∧ s.rxNotEmpty = true := by
    intro ht
    obtain ⟨hm, -, hn⟩ := (microOk_rx_iff (.inr ht) s).mp h.ok
    obtain ⟨hp, -⟩ := (transferringOk_iff s).mp hm
    exact ⟨by simp [hp], hn⟩
  cases u with
  | wait f =>
    obtain ⟨n, e⟩ := runMicro_wait f s
    exact e ▸ { hd with }
  | rxHi =>
    obtain ⟨hp, hn⟩ := htaking rfl
    obtain ⟨hmod, hlt⟩ := hu
    refine hd.take_high hp hn (by omega) s.ackEn id fun he => ?_
    rw [he, decide_eq_decide]
    omega
  | rxLo =>
    obtain ⟨hp, hn⟩ := htaking rfl
    obtain ⟨hmod, hlt⟩ := hu
    refine hd.take_low hp hn (by omega) (by omega) (by omega) (by omega) _ (fun b hb => hb ▸ orLow_highByte b s.dr)
      fun he => ?_
    rw [he, decide_eq_decide]
    omega
  | rxHiNack =>
    obtain ⟨hp, hn⟩ := htaking rfl
    replace hu : s.mpc.toNat - 14 = 4 * (wc - 1) + 1 := hu
    refine hd.take_high hp hn (by omega) false (fun _ => rfl) fun _ => ?_
    rw [eq_comm, decide_eq_false_iff_not]
    omega
  | rxAdd =>
    obtain ⟨hp, hn⟩ := htaking rfl
    replace hu : s.mpc.toNat - 14 = 4 * (wc - 1) + 3 := hu
    refine hd.take_low hp hn (by omega) (by omega) (by omega) (by omega) _ (fun b hb => hb ▸ addLow_highByte b s.dr)
      fun he => ?_
    rw [he, decide_eq_decide]
    omega
  | stop =>
    simp only [runMicro, (restingQueue_of_stop h.ok).1]
    exact
      { hd with
        received := .inl rfl
        acks := hd.acks.imp_right fun ha => (acksOk_iff _ _).mpr
          (((acksOk_iff wc s).mp ha).imp_left fun ⟨hpre, _⟩ => ⟨hpre, .inl rfl⟩) }
  | ackOn =>
    replace hu : s.mpc.toNat - 14 = 4 * (wc - 1) + 5 := hu
    obtain ⟨hp, -⟩ := (microOk_ackOn_iff s).mp h.ok
    refine { hd with acks := hd.acks.imp_right fun ha => (acksOk_iff _ _).mpr ?_ }
    rcases (acksOk_iff wc s).mp ha with ⟨hpre, -⟩ | ⟨-, hle, -⟩
    · exact .inl ⟨hpre, .inl hp⟩
    · omega
  | commit => exact { hd with }
  | _ => exact hu.elim

end Sys2Proof.Machine
end

section
/-! PROOFS. The statements of 10_state.md: how a burst ends, and what a published reading is. -/

namespace Sys2Proof.Machine
open Host

/-! ### BUS and the data of a burst -/

/-- BUS appends to the bytes received, so the bytes taken stay. -/
theorem takenBytes_of_append {s t : State} {bs : List Byte} (hb : t.bytes = s.bytes)
    (hrec : (receivedSinceAddr t.trace).map Prod.fst = (receivedSinceAddr s.trace).map Prod.fst ++ bs)
    (hlen : (takenBytes s).length = s.bytes.toNat) : takenBytes t = takenBytes s := by
  rw [takenBytes, List.length_take] at hlen
  rw [takenBytes, takenBytes, hrec, hb, List.take_append_of_le_length (by omega)]

/-- How many bytes may all be ACKed (R182). -/
theorem replicate_prefix_burstAcks {wc n : Nat} : List.replicate n true <+: burstAcks wc ↔ n ≤ 2 * wc - 1 := by
  constructor
  · intro h
    have hlen := h.length_le
    simp only [burstAcks, List.length_replicate, List.length_append, List.length_singleton] at hlen
    rcases Nat.lt_or_ge (2 * wc - 1) n with hlt | hle
    · have heq := h.eq_of_length (by simp [burstAcks]; omega)
      have hmem : false ∈ List.replicate n true := by rw [heq]; simp [burstAcks]
      simp at hmem
    · exact hle
  · intro h
    obtain ⟨k, hk⟩ := Nat.exists_eq_add_of_le h
    rw [burstAcks, hk, List.replicate_add, List.append_assoc]
    exact List.prefix_append _ _

/-- The next ACK bit of R182. -/
theorem snoc_prefix_burstAcks {wc n : Nat} (h : n ≤ 2 * wc - 1) :
    List.replicate n true ++ [decide (n < 2 * wc - 1)] <+: burstAcks wc := by
  rcases Nat.lt_or_ge n (2 * wc - 1) with hlt | hge
  · rw [decide_eq_true hlt, ← List.replicate_succ']
    exact replicate_prefix_burstAcks.mpr hlt
  · obtain rfl : n = 2 * wc - 1 := by omega
    rw [decide_eq_false (by omega)]
    exact List.prefix_refl _

/-- A byte received with ACK_EN as R182 wants it keeps the ACK bits. -/
theorem acksOk_rx {wc : Nat} {s : State} (h : acksOk wc s = true) (v : Byte) (hp : s.phase ≠ .stopped)
    (hv : busView s.trace = .reading) (hlen : (receivedSinceAddr s.trace).length = s.bytes.toNat) :
    acksOk wc (bRx v s) = true := by
  have hall : (receivedSinceAddr s.trace).map Prod.snd = List.replicate s.bytes.toNat true := by
    refine List.eq_replicate_iff.mpr ⟨by rw [List.length_map, hlen], fun a ha => ?_⟩
    obtain ⟨p, hp, rfl⟩ := List.mem_map.mp ha
    exact acked_of_reading _ hv p hp
  have hnew : (receivedSinceAddr (bRx v s).trace).map Prod.snd = List.replicate s.bytes.toNat true ++ [s.ackEn] := by
    simp [bRx, hall]
  rw [acksOk_iff, hall] at h
  rw [acksOk_iff, hnew]
  rcases h with ⟨hpre, hack⟩ | ⟨hoff, hle, hacks⟩
  · have hack := hack.resolve_left hp
    refine .inl ⟨?_, .inr hack⟩
    rw [hack]
    exact snoc_prefix_burstAcks (replicate_prefix_burstAcks.mp hpre)
  · refine .inr ⟨hoff, hle, .inr ?_⟩
    have h0 : List.replicate s.bytes.toNat true = [] := by
      rcases hacks with h | h
      · exact h
      · have : false ∈ List.replicate s.bytes.toNat true := by rw [h]; simp
        simp at this
    rw [h0, hoff]
    rfl

/-- A step that changes only the BUS side, and appends the bytes it delivers to those received and to those pending, keeps the
data of the burst. -/
theorem BurstData.of_append {wc : Nat} {s t : State} {bs : List Byte} (hd : BurstData wc s)
    (hframe : t.work = s.work ∧ t.acc = s.acc ∧ t.bytes = s.bytes ∧ t.params = s.params)
    (hrec : (receivedSinceAddr t.trace).map Prod.fst = (receivedSinceAddr s.trace).map Prod.fst ++ bs)
    (hpend : t.phase = .stopped ∨ (s.phase ≠ .stopped ∧ pendingBytes t = pendingBytes s ++ bs))
    (hacks : s.params.rxPrefetch = true ∨ acksOk wc t = true) : BurstData wc t := by
  obtain ⟨hwork, hacc, hbytes, hparams⟩ := hframe
  have ht := takenBytes_of_append hbytes hrec hd.taken
  exact
    { work := by rw [hwork, hparams, ht]; exact hd.work
      taken := by rw [ht, hbytes]; exact hd.taken
      acc := by rw [ht, hacc, hbytes]; exact hd.acc
      received := hpend.imp_right fun ⟨hp, hpend⟩ => by
        rw [hrec, ht, hpend, hd.received.resolve_left hp, List.append_assoc]
      acks := by rw [hparams]; exact hacks }

/-- With RX_PREFETCH = false nothing is ever shifted (R84). -/
theorem shift_of_noPrefetch {s : State} (hl : linkOk s = true) (hp : s.params.rxPrefetch = false) : s.shift = none := by
  obtain ⟨-, -, -, -, hshift, -⟩ := (linkOk_iff s).mp hl
  by_contra hs
  simpa [hp] using hshift hs

/-- While bytes still come, the final Stop is not requested. -/
theorem phase_of_reading {s : State} (hr : transferringOk s = true ∨ (s.phase = .stopped ∧ restingQueue s = true))
    (hq : s.preq = []) (hv : busView s.trace = .reading) : s.phase ≠ .stopped := by
  rw [transferringOk_iff, restingQueue_iff] at hr
  rcases hr with ⟨hp, -⟩ | ⟨-, hr⟩
  · simp [hp]
  · simp [hv, hq] at hr

/-- Every BUS step keeps the data of a burst in its receive part. -/
theorem BusEffect.keeps_data {wc : Nat} {s t : State} (h : BusEffect s t) (hl : linkOk s = true)
    (hr : transferringOk s = true ∨ (s.phase = .stopped ∧ restingQueue s = true)) (hd : BurstData wc s) : BurstData wc t := by
  have hqueue : s.preq = [] ∨ (s.phase = .stopped ∧ s.preq = [.stop]) := by
    rw [transferringOk_iff, restingQueue_iff] at hr
    grind
  cases h with
  | none => exact hd
  | start hq | addr b ack hq | tx b hq => simp [hq] at hqueue
  | stop hq hv =>
    have hp : s.phase = .stopped := by
      rcases hqueue with hq' | ⟨hp, -⟩
      · simp [hq'] at hq
      · exact hp
    refine hd.of_append (bs := []) ⟨rfl, rfl, rfl, rfl⟩ (by simp [bStop]) (.inl hp) (hd.acks.imp_right fun ha => ?_)
    have hrec : receivedSinceAddr (bStop s).trace = receivedSinceAddr s.trace := by simp [bStop]
    rw [acksOk_iff, hrec]
    exact (acksOk_iff wc s).mp ha
  | rx v hp hq hv ha hn =>
    have hphase := phase_of_reading hr hq hv
    have hshift := shift_of_noPrefetch hl hp
    have hpend : pendingBytes s = [] := by simp [pendingBytes, hn, hshift]
    have hlen : (receivedSinceAddr s.trace).length = s.bytes.toNat := by
      have := congrArg List.length (hd.received.resolve_left hphase)
      simpa [hpend, hd.taken] using this
    exact hd.of_append (bs := [v]) ⟨rfl, rfl, rfl, rfl⟩ (by simp [bRx])
      (.inr ⟨hphase, by rw [hpend]; simp [pendingBytes, bRx, hshift]⟩) (hd.acks.imp_right (acksOk_rx · v hphase hv hlen))
  | shift v hp hq hv ha hs =>
    have hpend : pendingBytes (bShift v s) = pendingBytes s ++ [v] := by
      show (if s.rxNotEmpty then [s.dr] else []) ++ [v] = pendingBytes s ++ [v]
      simp [pendingBytes, hs]
    exact hd.of_append ⟨rfl, rfl, rfl, rfl⟩ (by simp [bShift]) (.inr ⟨phase_of_reading hr hq hv, hpend⟩) (.inl hp)
  | move v a hp hs hn =>
    by_cases hphase : s.phase = .stopped
    · exact hd.of_append (bs := []) ⟨rfl, rfl, rfl, rfl⟩ (by simp [bMove]) (.inl hphase) (.inl hp)
    · exact hd.of_append (bs := []) ⟨rfl, rfl, rfl, rfl⟩ (by simp [bMove])
        (.inr ⟨hphase, by simp [pendingBytes, bMove, hs, hn]⟩) (.inl hp)

/-- A running BURST, taken out of the invariant. -/
theorem running_of_burst {s : State} {r : Byte} {wc : Nat} (hi : s.inv = true) (hc : s.cur = some (.burst r wc)) :
    ∃ u, Running s (.burst r wc) u := by
  obtain ⟨-, -, -, -, ⟨hb, c, u, -, hu, -⟩ | ⟨-, -, hc', -⟩⟩ := (inv_iff s).mp hi
  · obtain ⟨c, h⟩ := running_of_inv hi hb hu
    obtain rfl : c = .burst r wc := Option.some.inj (h.cur.symm.trans hc)
    exact ⟨u, h⟩
  · simp [hc] at hc'

/-- No byte comes before the address-acknowledge flag is cleared, whatever BUS does (R83). -/
theorem BusEffect.keeps_fresh {s t : State} (h : BusEffect s t) (hl : linkOk s = true) (hf : freshAddrOk s = true) :
    freshAddrOk t = true := by
  rw [freshAddrOk_iff] at hf ⊢
  cases h with
  | none => exact hf
  | start hq | tx b hq =>
    intro ha
    have hq' := (answered_of_addrAcked hl ha).2
    simp [hq] at hq'
  | addr b ack hq hv =>
    intro _
    obtain ⟨-, -, hn, hs⟩ := noneReceived_of_view hl (by simp [hv]) (by simp [hv])
    exact ⟨by simp [bAddr], hn, hs⟩
  | stop => intro ha; cases ha
  | rx v hp hq hv ha' | shift v hp hq hv ha' =>
    intro ha
    cases ha'.symm.trans ha
  | move v a hp hs =>
    intro ha
    cases hs.symm.trans (hf ha).2.2

/-- Every BUS step keeps the data invariant. -/
theorem busStep_keeps_dataInv {s : State} (m : BusMove) (hi : s.inv = true) (hd : s.dataInv = true) :
    (busStep m s).dataInv = true := by
  have h := busEffect_of_inv hi m
  obtain ⟨-, hl, -⟩ := (inv_iff s).mp hi
  obtain ⟨hburst, hres, hfresh⟩ := (dataInv_iff s).mp hd
  refine (dataInv_iff _).mpr ⟨?_, by rw [busStep_frame]; exact hres, h.keeps_fresh hl hfresh⟩
  have hcur : (busStep m s).cur = s.cur := by rw [busStep_frame]
  have hmpc : (busStep m s).mpc = s.mpc := by rw [busStep_frame]
  have hwork : (busStep m s).work = s.work := by rw [busStep_frame]
  have hparams : (busStep m s).params = s.params := by rw [busStep_frame]
  by_cases hc : ∃ r wc, s.cur = some (.burst r wc)
  · obtain ⟨r, wc, hc⟩ := hc
    obtain ⟨u, hu⟩ := running_of_burst hi hc
    rw [burstDataOk_iff hc] at hburst
    rw [burstDataOk_iff (hcur.trans hc), hmpc, hwork, hparams]
    exact hburst.imp_right fun ⟨h14, hd⟩ => ⟨h14, h.keeps_data hl (hu.receiving h14) hd⟩
  · exact burstDataOk_of_notBurst fun r wc hc' => hc ⟨r, wc, hcur.symm.trans hc'⟩

/-! ### ENGINE and the data of a burst -/

/-- The end of the second BEGIN_SEQ: nothing is received, nothing is taken (R174). -/
theorem burstData_of_clrAddr {s : State} {wc : Nat} (hwork : s.work = workOf s.params.maxWords []) (hwc : 2 ≤ wc)
    (hb : s.bytes.toNat = 0) (hrec : receivedSinceAddr s.trace = []) (hn : s.rxNotEmpty = false) (hs : s.shift = none) :
    BurstData wc (microClrAddr s) := by
  have ht : takenBytes (microClrAddr s) = [] := by simp [takenBytes, microClrAddr, hrec]
  have hack : acksOk wc (microClrAddr s) = true := by
    rw [acksOk_iff]
    cases he : s.ackEn
    · exact .inr ⟨he, by simp [microClrAddr, hb], .inl (by simp [microClrAddr, hrec])⟩
    · refine .inl ⟨by simp [microClrAddr, hrec], .inr ?_⟩
      simp [microClrAddr, he, hb]
      omega
  exact
    { work := ht.symm ▸ hwork
      taken := by rw [ht]; exact hb.symm
      acc := .inl (by simp [microClrAddr, hb])
      received := .inr (by rw [ht]; simp [microClrAddr, hrec, pendingBytes, hn, hs])
      acks := .inr hack }

/-- No µop of the opening completes a word. -/
theorem endsWord_of_opening {r : Byte} {u : MicroOp} (h : u ∈ burstOpening r) : u.endsWord = false := by
  have hall : ∀ v ∈ burstOpening r, v.endsWord = false := by simp [burstOpening, MicroOp.endsWord]
  exact hall u h

/-- An ENGINE step inside a BURST keeps its data. -/
theorem Running.burstData_of_moved {s : State} {r : Byte} {wc : Nat} {u : MicroOp} (h : Running s (.burst r wc) u)
    (hd : burstDataOk s = true) (hf : freshAddrOk s = true) (hmpc : (s.mpc + 1).toNat = s.mpc.toNat + 1) :
    burstDataOk { (runMicro u s).1 with mpc := s.mpc + 1 } = true := by
  obtain ⟨-, hcur, -, hparams, -⟩ := runMicro_keeps u s
  refine (burstDataOk_iff (s := { (runMicro u s).1 with mpc := s.mpc + 1 }) (hcur.trans h.cur)).mpr ?_
  rw [hmpc]
  rcases (burstDataOk_iff h.cur).mp hd with ⟨hlt, hwork⟩ | ⟨hge, hd⟩
  · have hu := h.micro
    rw [uprog, uprogBurst_opening _ _ _ hlt] at hu
    rcases Nat.lt_or_ge s.mpc.toNat 13 with hlt' | hge
    · have hword : u.endsWord = false := endsWord_of_opening (List.mem_of_getElem? hu)
      refine .inl ⟨by omega, ?_⟩
      simp only [runMicro_work, hword, Bool.false_eq_true, if_false, hparams, hwork]
    · have h13 : s.mpc.toNat = 13 := by omega
      have h13u : u = .clrAddr := by
        rw [h13] at hu
        exact (Option.some.inj hu).symm
      subst h13u
      obtain ⟨hbytes, -⟩ := (burstCounts_iff h.cur).mp h.counts
      have hr := h.inRange
      simp only [commandInRange, wcInRange, Bool.and_eq_true, decide_eq_true_eq] at hr
      obtain ⟨-, ha, -⟩ := (microOk_clrAddr_iff s).mp h.ok
      obtain ⟨hrec, hn, hs⟩ := (freshAddrOk_iff s).mp hf ha
      rw [runningProg_of_cur h.cur, h13, uprog, uprogBurst_eq] at hbytes
      have hb : s.bytes.toNat = 0 := hbytes
      have hd := burstData_of_clrAddr hwork hr.1 hb hrec hn hs
      exact .inr ⟨by omega, { hd with }⟩
  · have hd' := h.keeps_data hge hd
    exact .inr ⟨by omega, { hd' with }⟩

/-- Only a BURST counts bytes (R31). -/
theorem burst_of_takesByte {c : Instr} {ps : List Byte} {i : Nat} {u : MicroOp} (hu : (uprog c ps)[i]? = some u)
    (ht : u.takesByte = true) : ∃ r wc, c = .burst r wc := by
  have hmem := List.mem_of_getElem? hu
  cases c with
  | burst r wc => exact ⟨r, wc, rfl⟩
  | write n =>
    have hall : ∀ v ∈ uprogWrite n ps, v.takesByte = false := by
      simp [uprogWrite, beginSeq, txSeq, MicroOp.takesByte]
      grind
    simp [hall u hmem] at ht
  | _ =>
    simp [uprog, uprogBegin, beginSeq, uprogReadb, uprogSetack, uprogStop] at hmem
    grind [MicroOp.takesByte]

/-- At COMMIT all bytes are taken (R181, R182). -/
theorem Running.bytes_of_commit {s : State} {r : Byte} {wc : Nat} (h : Running s (.burst r wc) .commit)
    (hd : burstDataOk s = true) : s.bytes.toNat = 2 * wc ∧ BurstData wc s := by
  obtain ⟨r', wc', hc, hi, -⟩ := commit_position h.micro
  cases hc
  rcases (burstDataOk_iff h.cur).mp hd with ⟨hlt, -⟩ | ⟨hge, hd⟩
  · omega
  · obtain ⟨hb, -, hwc, -⟩ := h.counted hge
    exact ⟨by omega, hd⟩

/-- What COMMIT publishes has 0 above the words of the burst (R38). -/
theorem Running.resultOk_of_commit {s : State} {r : Byte} {wc : Nat} (h : Running s (.burst r wc) .commit)
    (hd : burstDataOk s = true) : resultOk (microCommit s) = true := by
  obtain ⟨hb, hd⟩ := h.bytes_of_commit hd
  have hr := h.inRange
  simp only [commandInRange, wcInRange, Bool.and_eq_true, decide_eq_true_eq] at hr
  obtain ⟨hlen, -⟩ := bigEndianWords_even (takenBytes s) wc (hd.taken.trans hb)
  have hdrop : s.work.drop wc = List.replicate (s.params.maxWords - wc) 0 := by
    rw [hd.work, workOf, hlen]
    exact List.drop_left' hlen
  have hhalf : s.bytes.toNat / 2 = wc := by omega
  have hrange : s.bytes.toNat % 2 = 0 ∧ 4 ≤ s.bytes.toNat ∧ s.bytes.toNat ≤ 2 * s.params.maxWords := by omega
  simp [resultOk, microCommit, hhalf, hdrop, hrange]

/-- An advancing µop keeps what R38 and R55 say of RESULT. -/
theorem Running.resultOk_of_advance {s : State} {c : Instr} {u : MicroOp} (h : Running s c u) (hd : burstDataOk s = true)
    (hres : resultOk s = true) : resultOk (runMicro u s).1 = true := by
  obtain ⟨-, -, -, hparams, -⟩ := runMicro_keeps u s
  by_cases hu : u = .commit
  · subst hu
    obtain ⟨r, wc, rfl, -⟩ := commit_position h.micro
    exact h.resultOk_of_commit hd
  · have hvalid : (runMicro u s).1.resultValid = s.resultValid := by simp [runMicro_resultValid, hu]
    have hresult : (runMicro u s).1.result = s.result := by simp [runMicro_result, hu]
    by_cases ht : u.takesByte = true
    · obtain ⟨r, wc, rfl⟩ := burst_of_takesByte h.micro ht
      obtain ⟨-, -, hv⟩ := (burstCounts_iff h.cur).mp h.counts
      exact resultOk_of_invalid (hvalid.trans hv)
    · have hbytes : (runMicro u s).1.bytes = s.bytes := by simp [runMicro_bytes, ht]
      rw [resultOk, hvalid, hresult, hbytes, hparams]
      exact hres

/-- No µop receives a byte or sets ADDR_ACKED (R89). -/
theorem runMicro_keeps_fresh {s : State} (u : MicroOp) (hf : freshAddrOk s = true) : freshAddrOk (runMicro u s).1 = true := by
  obtain ⟨htrace, hshift, -, -, -, hack, hrx⟩ := runMicro_busSide u s
  rw [freshAddrOk_iff] at hf ⊢
  rw [htrace, hshift]
  intro ha
  obtain ⟨h1, h2, h3⟩ := hf (hack ha)
  exact ⟨h1, Bool.eq_false_iff.mpr fun hn => by simp [hrx hn] at h2, h3⟩

/-- Every ENGINE step keeps the data invariant. -/
theorem engineStep_keeps_dataInv {s t : State} (hi : s.inv = true) (hd : s.dataInv = true) (h : engineStep s = .next t) :
    t.dataInv = true := by
  obtain ⟨hburst, hres, hfresh⟩ := (dataInv_iff s).mp hd
  cases engineEffect_of_step h with
  | idle => exact hd
  | stayed => exact hd
  | aborted f =>
    refine (dataInv_iff _).mpr ⟨rfl, ?_, ?_⟩
    · simpa [resultOk] using hres
    · simpa [freshAddrOk] using hfresh
  | ended u hb hu ha hlast =>
    obtain ⟨c, hr⟩ := running_of_inv hi hb hu
    exact (dataInv_iff _).mpr ⟨rfl, hr.resultOk_of_advance hburst hres, runMicro_keeps_fresh u hfresh⟩
  | moved u hb hu ha hmore =>
    obtain ⟨c, hr⟩ := running_of_inv hi hb hu
    refine (dataInv_iff _).mpr ⟨?_, hr.resultOk_of_advance hburst hres, runMicro_keeps_fresh u hfresh⟩
    by_cases hc : ∃ r wc, c = .burst r wc
    · obtain ⟨r, wc, rfl⟩ := hc
      exact hr.burstData_of_moved hburst hfresh (hr.mpc_succ hmore)
    · refine burstDataOk_of_notBurst fun r wc hc' => hc ⟨r, wc, ?_⟩
      obtain ⟨-, hcur, -⟩ := runMicro_keeps u s
      exact Option.some.inj ((hcur.trans hr.cur).symm.trans hc')

/-- Every HOST step keeps the data invariant; an accepted BURST clears WORK and RESULT_VALID (R120). -/
theorem hostEffect_keeps_dataInv {a : Access} {s t : State} (hd : s.dataInv = true) (h : HostEffect a s t) :
    t.dataInv = true := by
  cases h with
  | quiet | overrun | rejected => exact hd
  | accepted w c ha hb hr hp =>
    obtain ⟨hburst, hres, hfresh⟩ := (dataInv_iff s).mp hd
    cases c with
    | burst r wc =>
      refine (dataInv_iff _).mpr ⟨(burstDataOk_iff (s := acceptedState (.burst r wc) s) rfl).mpr ?_, rfl, hfresh⟩
      exact .inl ⟨by simp [acceptedState], by simp [acceptedState, workOf, bigEndianWords]⟩
    | _ => exact (dataInv_iff _).mpr ⟨rfl, hres, hfresh⟩

/-- Settles O44: the step is one of the agents' or RESET, and each keeps the data invariant. -/
theorem stepKeepsTheBurstData : Obligations.StepKeepsTheBurstData := by
  intro s t hi hd h
  obtain ⟨e, es, h⟩ := applyEvent_of_step h
  replace hi : (s.withInputs es).inv = true := hi
  replace hd : (s.withInputs es).dataInv = true := hd
  cases e with
  | host a => exact hostEffect_keeps_dataInv hd (hostEffect_of_step h)
  | engine => exact engineStep_keeps_dataInv hi hd h
  | bus m =>
    cases h
    exact busStep_keeps_dataInv m hi hd
  | reset =>
    cases h
    rfl

/-! ### How a burst ends -/

/-- Settles O51: a BURST ends at COMMIT, which stands behind ACKON, or in an abort, which sets ACK_EN. -/
theorem burstEndsWithAckEnabled : Obligations.BurstEndsWithAckEnabled := by
  intro e s t r wc hi hne h hb hc hend
  have hbusy : t.busy ≠ s.busy := by simp [hb, hend]
  cases e with
  | reset => exact absurd rfl hne
  | bus m =>
    cases h
    exact absurd (by rw [busStep_frame]) hbusy
  | host a =>
    cases hostEffect_of_step h with
    | quiet | overrun => exact absurd rfl hbusy
    | rejected w e ha hb' | accepted w c ha hb' => simp [hb] at hb'
  | engine =>
    obtain ⟨u, hr⟩ := running_of_burst hi hc
    obtain ⟨-, -, hvalid⟩ := (burstCounts_iff hc).mp hr.counts
    cases engineEffect_of_step h with
    | idle | stayed => exact absurd rfl hbusy
    | moved u' =>
      obtain ⟨hkeep, -⟩ := runMicro_keeps u' s
      exact absurd hkeep hbusy
    | aborted f =>
      have hburst : burstRunning s = true := by simp [burstRunning, hc]
      refine ⟨rfl, ?_, .inr ⟨rfl, (abort_resultValid _ _).trans hvalid⟩⟩
      rw [abort_ackEn]
      exact (congrArg (· || s.ackEn) hburst).trans (Bool.true_or _)
    | ended u' _ hu' _ hlast =>
      obtain rfl : u' = u := Option.some.inj (hu'.symm.trans hr.current)
      rw [runningProg_of_cur hc] at hlast
      obtain rfl := commit_of_last hr.micro hlast
      obtain ⟨-, -, hack⟩ := (microOk_commit_iff s).mp hr.ok
      obtain ⟨r', wc', hc', hi', -⟩ := commit_position hr.micro
      cases hc'
      obtain ⟨hbytes, -, hwc, -⟩ := hr.counted (by omega)
      exact ⟨rfl, hack, .inl ⟨hr.noErr, rfl, by show s.bytes.toNat = 2 * wc; omega⟩⟩

/-! ### What a reading is -/

/-- Word `j` of a list of bytes is its bytes `2j` and `2j + 1` (R184). -/
theorem bigEndianWords_getElem? (bs : List Byte) (j : Nat) (hj : 2 * j + 1 < bs.length) :
    ∃ h l, bs[2 * j]? = some h ∧ bs[2 * j + 1]? = some l ∧ (bigEndianWords bs)[j]? = some (h ++ l) := by
  induction j generalizing bs with
  | zero =>
    match bs, hj with
    | h :: l :: rest, _ => exact ⟨h, l, rfl, rfl, rfl⟩
  | succ j ih =>
    match bs, hj with
    | h :: l :: rest, hj => exact ih rest (by rw [List.length_cons, List.length_cons] at hj; omega)

/-- The words in RESULT are the bytes received, in pairs (R182, R184). -/
theorem BurstData.word {wc j : Nat} {s : State} (hd : BurstData wc s) (hb : s.bytes.toNat = 2 * wc) (hj : j < wc) :
    ∃ h l : Byte × Bool, (receivedSinceAddr s.trace)[2 * j]? = some h ∧ (receivedSinceAddr s.trace)[2 * j + 1]? = some l ∧
      s.work[j]? = some (h.1 ++ l.1) := by
  obtain ⟨h, l, hh, hl, hw⟩ := bigEndianWords_getElem? (takenBytes s) j (by rw [hd.taken]; omega)
  have hreceived : ∀ {i : Nat} {b : Byte}, (takenBytes s)[i]? = some b →
      ∃ p : Byte × Bool, (receivedSinceAddr s.trace)[i]? = some p ∧ p.1 = b := by
    intro i b hi
    rw [takenBytes, List.getElem?_take] at hi
    split at hi
    · simpa using hi
    · cases hi
  obtain ⟨p, hp, rfl⟩ := hreceived hh
  obtain ⟨q, hq, rfl⟩ := hreceived hl
  refine ⟨p, q, hp, hq, ?_⟩
  rw [hd.work, workOf, List.getElem?_append_left (List.getElem?_eq_some_iff.mp hw).1, hw]

/-- RESULT is 0 above the words of the burst (R38). -/
theorem BurstData.word_above {wc j : Nat} {s : State} (hd : BurstData wc s) (hb : s.bytes.toNat = 2 * wc) (hj : wc ≤ j)
    (hmax : j < s.params.maxWords) : s.work[j]? = some 0 := by
  obtain ⟨hlen, -⟩ := bigEndianWords_even (takenBytes s) wc (hd.taken.trans hb)
  rw [hd.work, workOf, List.getElem?_append_right (by omega), hlen, List.getElem?_replicate, if_pos (by omega)]

/-- With RX_PREFETCH = false exactly 2·wc bytes came, all ACKed but the last (R182). -/
theorem BurstData.acks_of_complete {wc : Nat} {s : State} (hd : BurstData wc s) (hb : s.bytes.toNat = 2 * wc) (hwc : 2 ≤ wc)
    (hp : s.params.rxPrefetch = false) : (receivedSinceAddr s.trace).map Prod.snd = burstAcks wc := by
  have hacks : acksOk wc s = true := hd.acks.resolve_left (by simp [hp])
  rcases (acksOk_iff wc s).mp hacks with ⟨hpre, -⟩ | ⟨-, hle, -⟩
  · refine hpre.eq_of_length_le ?_
    have hlen := hd.taken
    rw [takenBytes, List.length_take, List.length_map] at hlen
    simp [burstAcks]
    omega
  · omega

/-- The step at COMMIT ends the command (R125, R181). -/
theorem Running.step_of_commit {s t : State} {c : Instr} (h : Running s c .commit) (hs : engineStep s = .next t) :
    t = endCommand (microCommit s) := by
  rw [engineStep_of_micro h.busy h.current] at hs
  cases hs
  obtain ⟨-, -, -, -, hlast⟩ := commit_position h.micro
  exact advance_of_last (hlast.trans (congrArg List.length (runningProg_of_cur h.cur).symm))

/-- Settles O52: only COMMIT publishes, and at COMMIT WORK is that of all the bytes received. -/
theorem publishedReadingIsTheBytesReceived : Obligations.PublishedReadingIsTheBytesReceived := by
  intro s t hi hd h hv0 hv1
  obtain ⟨e, es, h⟩ := applyEvent_of_step h
  have hne : e ≠ .reset := by
    rintro rfl
    cases h
    cases hv1
  obtain ⟨-, hcommit, -⟩ := writersOfResultAndRxdata e (s.withInputs es) t hne h
  obtain ⟨rfl, hu⟩ := hcommit hv0 hv1
  have hb : (s.withInputs es).busy = true := by
    by_contra hb
    cases (engineStep_of_idle (by simpa using hb)).symm.trans h
    cases hv0.symm.trans hv1
  obtain ⟨c, hr⟩ := running_of_inv (s := s.withInputs es) hi hb hu
  obtain ⟨r, wc, rfl, -⟩ := commit_position hr.micro
  obtain ⟨hburst, -⟩ := (dataInv_iff (s.withInputs es)).mp hd
  obtain ⟨hbytes, hdata⟩ := hr.bytes_of_commit hburst
  have hrange := hr.inRange
  simp only [commandInRange, wcInRange, Bool.and_eq_true, decide_eq_true_eq] at hrange
  obtain ⟨-, -, -, -, hwork⟩ := (sizesOk_iff _).mp hr.sizes
  obtain rfl := hr.step_of_commit h
  exact ⟨r, wc, hr.cur, hrange.1, hrange.2, hbytes, hwork, fun j hj => hdata.word hbytes hj,
    fun j hj hmax => hdata.word_above hbytes hj hmax, fun hp => hdata.acks_of_complete hbytes hrange.1 hp⟩

end Sys2Proof.Machine
end


section
/-! PROOFS. The statements of 20_memory.md: the steps of BUS. -/

namespace Sys2Proof.Machine
open Host

/-! ### The steps that perform a request -/

/-- The head of PREQ that enables each of the four steps that perform a request (R79 to R82). -/
theorem busEnabled_iff_head (s : State) :
    (busEnabled .bStart s = true ↔ s.preq.head? = some .start) ∧
    (∀ ack, busEnabled (.bAddr ack) s = true ↔ ∃ b, s.preq.head? = some (.addr b)) ∧
    (busEnabled .bTx s = true ↔ ∃ b, s.preq.head? = some (.tx b)) ∧
    (busEnabled .bStop s = true ↔ s.preq.head? = some .stop) := by
  rcases h : s.preq with _ | ⟨_ | _ | _ | _, _⟩ <;> simp [busEnabled, h]

/-- An event whose step is not enabled passes (log 1). -/
theorem busStep_of_not_enabled {m : BusMove} {s : State} (h : ¬ busEnabled m s = true) : busStep m s = s :=
  busStep_of_disabled (Bool.eq_false_iff.mpr h)

/-- Taking the head off a queue that has one. -/
theorem popRequest_of_cons {r : Request} {q : List Request} {s : State} (h : s.preq = r :: q) :
    popRequest s = { s with preq := q } := by
  rw [popRequest, h, List.tail_cons]

/-- Settles O31: each step pops the head that enables it and records the event; with another head it is not enabled. -/
theorem busPerformsTheHeadRequest : Obligations.BusPerformsTheHeadRequest := by
  intro s
  obtain ⟨hstart, haddr, htx, hstop⟩ := busEnabled_iff_head s
  refine ⟨fun q h => ?start, fun b q h => ⟨?nack, fun hb => ?ackWrite, fun hb => ?ackRead⟩, fun b q h => ?tx, fun q h => ?stop,
    fun h => busStep_of_not_enabled (mt hstart.mp h),
    fun h ack => busStep_of_not_enabled (mt (haddr ack).mp (not_exists.mpr h)),
    fun h => busStep_of_not_enabled (mt htx.mp (not_exists.mpr h)),
    fun h => busStep_of_not_enabled (mt hstop.mp h)⟩
  case start => rw [busStep_start h, bStart, popRequest_of_cons h]; rfl
  case nack => rw [busStep_addr false h, bAddr, popRequest_of_cons h]; rfl
  case ackWrite => rw [busStep_addr true h, bAddr, popRequest_of_cons h, hb]; rfl
  case ackRead => rw [busStep_addr true h, bAddr, popRequest_of_cons h, hb]; rfl
  case tx => rw [busStep_tx h, bTx, popRequest_of_cons h]; rfl
  case stop => rw [busStep_stop h, bStop, popRequest_of_cons h]; rfl

/-! ### The steps that receive a byte -/

/-- When B_RX is enabled (R83). -/
theorem busEnabled_rx_iff {s : State} (v : Byte) (hp : s.params.rxPrefetch = false) :
    busEnabled (.bRx v) s = true ↔
      s.preq = [] ∧ s.rxmode = true ∧ s.rxmore = true ∧ s.addrAcked = false ∧ s.rxNotEmpty = false := by
  simp [busEnabled, hp, canReceive_iff, and_assoc]

/-- When B_SHIFT is enabled (R84). -/
theorem busEnabled_shift_iff {s : State} (v : Byte) (hp : s.params.rxPrefetch = true) :
    busEnabled (.bShift v) s = true ↔
      s.preq = [] ∧ s.rxmode = true ∧ s.rxmore = true ∧ s.addrAcked = false ∧ s.shift = none := by
  simp [busEnabled, hp, canReceive_iff, and_assoc]

/-- When B_MOVE is enabled (R84). -/
theorem busEnabled_move_iff {s : State} (hp : s.params.rxPrefetch = true) :
    busEnabled .bMove s = true ↔ s.shift ≠ none ∧ s.rxNotEmpty = false := by
  simp [busEnabled, hp, Option.isSome_iff_ne_none]

/-- B_SHIFT and B_MOVE are steps of RX_PREFETCH = true only (R84, log 19). -/
theorem busStep_of_noPrefetch {s : State} (v : Byte) (hp : s.params.rxPrefetch = false) :
    busStep (.bShift v) s = s ∧ busStep .bMove s = s :=
  ⟨busStep_of_disabled (by simp [busEnabled, hp]), busStep_of_disabled (by simp [busEnabled, hp])⟩

/-- B_RX is a step of RX_PREFETCH = false only (R83, log 19). -/
theorem busStep_rx_of_prefetch {s : State} (v : Byte) (hp : s.params.rxPrefetch = true) : busStep (.bRx v) s = s :=
  busStep_of_disabled (by simp [busEnabled, hp])

/-- Settles O32: the condition of each step is R83's or R84's, and the step is performed exactly when it holds. -/
theorem busReceivesAByte : Obligations.BusReceivesAByte := by
  refine fun s v => ⟨fun hp => ?noPrefetch, fun hp => ?prefetch⟩
  case noPrefetch =>
    have hen := busEnabled_rx_iff v hp
    exact ⟨fun h => busStep_rx (hen.mpr h), fun h => busStep_of_not_enabled (mt hen.mp h), busStep_of_noPrefetch v hp⟩
  case prefetch =>
    have hen := busEnabled_shift_iff v hp
    have hmove := busEnabled_move_iff hp
    refine ⟨fun h => busStep_shift (hen.mpr h), fun h => busStep_of_not_enabled (mt hen.mp h), fun a hs hn => ?_, fun h => ?_,
      busStep_rx_of_prefetch v hp⟩
    · exact busStep_move (hmove.mpr ⟨by simp [hs], hn⟩) hs
    · refine busStep_of_not_enabled (mt hmove.mp ?_)
      rintro ⟨hs, hn⟩
      rcases h with h | h
      · exact hs h
      · simp [hn] at h

/-! ### What every step leaves unchanged -/

/-- BUS only takes requests off PREQ, one at a time from its head (R87). -/
theorem busStep_preq (m : BusMove) (s : State) : (busStep m s).preq = s.preq ∨ (busStep m s).preq = s.preq.tail := by
  rcases busStep_cases m s with h | ⟨-, -, h⟩ | ⟨_, _, _, -, -, h⟩ | ⟨_, _, -, -, h⟩ | ⟨-, -, h⟩ | ⟨_, -, -, -, -, h⟩ |
      ⟨_, -, -, -, -, h⟩ | ⟨_, _, -, -, -, -, h⟩ <;>
    rw [h]
  exacts [.inl rfl, .inr rfl, .inr rfl, .inr rfl, .inr rfl, .inl rfl, .inl rfl, .inl rfl]

/-- BUS adds at most one event to TRACE; a received byte comes in a read data phase with PREQ empty, and its ACK is ACK_EN
(R83, R84, R87). -/
theorem busStep_trace (m : BusMove) (s : State) :
    (busStep m s).trace = s.trace ∨
    ∃ e, (busStep m s).trace = s.trace ++ [e] ∧ ∀ v a, e = .rx v a → s.preq = [] ∧ s.rxmode = true ∧ a = s.ackEn := by
  rcases busStep_cases m s with h | ⟨-, -, h⟩ | ⟨ack, b, _, -, -, h⟩ | ⟨b, _, -, -, h⟩ | ⟨-, -, h⟩ | ⟨v, -, -, hr, -, h⟩ |
      ⟨v, -, -, hr, -, h⟩ | ⟨_, _, -, -, -, -, h⟩ <;>
    rw [h]
  · exact .inl rfl
  · exact .inr ⟨.start, rfl, nofun⟩
  · exact .inr ⟨.addr b ack, rfl, nofun⟩
  · exact .inr ⟨.tx b, rfl, nofun⟩
  · exact .inr ⟨.stop, rfl, nofun⟩
  · obtain ⟨hq, hm, -⟩ := (canReceive_iff s).mp hr
    exact .inr ⟨.rx v s.ackEn, rfl, fun _ _ he => by cases he; exact ⟨hq, hm, rfl⟩⟩
  · obtain ⟨hq, hm, -⟩ := (canReceive_iff s).mp hr
    exact .inr ⟨.rx v s.ackEn, rfl, fun _ _ he => by cases he; exact ⟨hq, hm, rfl⟩⟩
  · exact .inl rfl

/-- Settles O33: the fields no step writes, and what a step does to PREQ and TRACE. -/
theorem busStepFrame : Obligations.BusStepFrame := by
  refine fun m s => ⟨busStep_frame m s, busStep_preq m s, ?_⟩
  rcases busStep_trace m s with h | ⟨e, h, hrx⟩
  · exact ⟨.inl h, fun v a hva => by simp [h] at hva⟩
  · refine ⟨.inr ⟨e, h⟩, fun v a hva => hrx v a ?_⟩
    simpa using h.symm.trans hva

end Sys2Proof.Machine
end

section
/-! PROOFS. The statements of 20_memory.md: the register window, and that only an access outside it stops the machine. -/

namespace Sys2Proof.Machine
open Host

/-! ### The register window -/

/-- A read inside the window (R62, R69). -/
theorem hostStep_read {off : Nat} (n : Nat) (s : State) (h : off < 0x100) : hostStep (.read off n) s = memRead off n s :=
  if_neg (Nat.not_le.mpr h)

/-- A write inside the window (R62, R69). -/
theorem hostStep_write {off : Nat} (n : Nat) (v : Word) (s : State) (h : off < 0x100) :
    hostStep (.write off n v) s = memWrite off n v s :=
  if_neg (Nat.not_le.mpr h)

/-- An access outside the window is no access of the block (R62, log 7). -/
theorem hostStep_outside {a : Access} (s : State) (h : 0x100 ≤ a.offset) : hostStep a s = .refused .outsideWindow :=
  if_pos h

/-- R63's supported accesses. -/
theorem accessSupported_iff (off n : Nat) : accessSupported off n = true ↔ n = 4 ∧ off % 4 = 0 := by
  simp [accessSupported]

/-- A supported read records the register's value (R69, log 6). -/
theorem hostStep_read_word {off : Nat} (s : State) (h : off < 0x100) (ha : off % 4 = 0) :
    hostStep (.read off 4) s = .next (recordRead off (readReg s off) s) := by
  rw [hostStep_read 4 s h, memRead, if_pos ((accessSupported_iff off 4).mpr ⟨rfl, ha⟩)]

/-- A supported write stores into the register (R69). -/
theorem hostStep_write_word {off : Nat} (v : Word) (s : State) (h : off < 0x100) (ha : off % 4 = 0) :
    hostStep (.write off 4 v) s = writeReg off v s := by
  rw [hostStep_write 4 v s h, memWrite, if_pos ((accessSupported_iff off 4).mpr ⟨rfl, ha⟩)]

/-- Settles O35: a supported read is recorded, and no register depends on what was recorded. -/
theorem readsHaveNoSideEffect : Obligations.ReadsHaveNoSideEffect :=
  fun s _ h ha => ⟨hostStep_read_word s h ha, rfl⟩

/-- Settles O36: neither primitive goes past the check of R63. -/
theorem unsupportedAccessIsRefused : Obligations.UnsupportedAccessIsRefused := by
  intro s off n v h hbad
  have hun : ¬ accessSupported off n = true := by
    rw [accessSupported_iff]
    omega
  exact ⟨(hostStep_read n s h).trans (if_neg hun), (hostStep_write n v s h).trans (if_neg hun)⟩

/-- The offsets that are no register of TXBUF (R61). -/
theorem txbufIndex_eq_none_iff (s : State) (off : Nat) :
    txbufIndex s off = none ↔ off < 0x10 ∨ 0x10 + 4 * s.params.txbufDepth ≤ off := by
  simp only [txbufIndex, ite_eq_right_iff, reduceCtorEq, imp_false]
  omega

/-- The offsets that are no register of RESULT (R61). -/
theorem resultIndex_eq_none_iff (s : State) (off : Nat) :
    resultIndex s off = none ↔ off < 0x40 ∨ 0x40 + 4 * s.params.maxWords ≤ off := by
  simp only [resultIndex, ite_eq_right_iff, reduceCtorEq, imp_false]
  omega

/-- CMD, TIMEOUT and TXBUF are the registers that take a write; every other offset ignores it (R64, R65). -/
theorem writeReg_of_notWritable {off : Nat} {s : State} (v : Word) (hcmd : off ≠ 0x00) (htmo : off ≠ 0x0C)
    (htx : txbufIndex s off = none) : writeReg off v s = .next s := by
  rw [writeReg, if_neg hcmd, if_neg htmo, htx]

/-- Above the four single registers, an offset of neither buffer reads 0 (R65). -/
theorem readReg_of_reserved {off : Nat} {s : State} (hlow : 0x10 ≤ off) (htx : txbufIndex s off = none)
    (hres : resultIndex s off = none) : readReg s off = 0 := by
  rw [readReg, if_neg (by omega), if_neg (by omega), if_neg (by omega), if_neg (by omega), htx, hres]

/-- Settles O37: TXBUF ends below RESULT, so the offsets named are no register of TXBUF, and the reserved ones none of RESULT. -/
theorem reservedAndReadOnlyOffsets : Obligations.ReservedAndReadOnlyOffsets := by
  intro s off v hp h ha
  simp only [Params.legal, Bool.and_eq_true, decide_eq_true_eq] at hp
  obtain ⟨⟨⟨-, hd⟩, -⟩, -⟩ := hp
  have hignored : off ≠ 0x00 → off ≠ 0x0C → off < 0x10 ∨ 0x10 + 4 * s.params.txbufDepth ≤ off →
      hostStep (.write off 4 v) s = .next s := fun hcmd htmo htx =>
    (hostStep_write_word v s h ha).trans (writeReg_of_notWritable v hcmd htmo ((txbufIndex_eq_none_iff s off).mpr htx))
  refine ⟨rfl, fun hro => hignored (by omega) (by omega) (by omega), fun hres => ⟨?_, ?_⟩⟩
  · exact hignored (by omega) (by omega) (by omega)
  · exact readReg_of_reserved (by omega) ((txbufIndex_eq_none_iff s off).mpr (by omega))
      ((resultIndex_eq_none_iff s off).mpr (by omega))

/-! ### What stops the machine -/

/-- Every CMD write is answered (R120, R121). -/
theorem presentWord_answers (v : Word) (s : State) : ∃ t, presentWord v s = .next t := by
  rcases presentWord_cases v s with ⟨-, h⟩ | ⟨-, -, h⟩ | ⟨-, c, -, h⟩
  · exact ⟨_, h⟩
  · exact ⟨_, h⟩
  · obtain ⟨_, _, _, hc, -⟩ := exec_eq_present c s
    exact ⟨_, h.trans hc⟩

/-- Every supported write is answered. -/
theorem writeReg_answers (off : Nat) (v : Word) (s : State) : ∃ t, writeReg off v s = .next t := by
  unfold writeReg
  split
  · exact presentWord_answers v s
  · split
    · exact ⟨_, rfl⟩
    · split <;> exact ⟨_, rfl⟩

/-- Every access inside the window is answered: performed, or refused by a mark (R63). -/
theorem hostStep_answers {a : Access} (s : State) (h : a.offset < 0x100) : ∃ t, hostStep a s = .next t := by
  cases a with
  | read off n =>
    rw [hostStep_read (off := off) n s h, memRead]
    split <;> exact ⟨_, rfl⟩
  | write off n v =>
    rw [hostStep_write (off := off) n v s h, memWrite]
    split
    · exact writeReg_answers off v s
    · exact ⟨_, rfl⟩

/-- In a state that meets the invariant a running command stands at a µop, so ENGINE's step is answered (R21, R125). -/
theorem engineStep_answers {s : State} (hi : s.inv = true) : ∃ t, engineStep s = .next t := by
  obtain ⟨-, -, -, -, ⟨hb, c, u, -, hu, -⟩ | ⟨hb, -⟩⟩ := (inv_iff s).mp hi
  · exact ⟨_, engineStep_of_micro hb hu⟩
  · exact ⟨s, engineStep_of_idle hb⟩

/-- From the invariant every agent's step is answered, but for an access outside the window. -/
theorem applyEvent_answers {e : Event} {s : State} (hi : s.inv = true) :
    (∃ t, applyEvent e s = .next t) ∨
    ∃ a, e = .host a ∧ 0x100 ≤ a.offset ∧ applyEvent e s = .refused .outsideWindow := by
  cases e with
  | host a =>
    rcases Nat.lt_or_ge a.offset 0x100 with h | h
    · exact .inl (hostStep_answers s h)
    · exact .inr ⟨a, rfl, h, hostStep_outside s h⟩
  | engine => exact .inl (engineStep_answers hi)
  | bus m => exact .inl ⟨busStep m s, rfl⟩
  | reset => exact .inl ⟨resetStep s, rfl⟩

/-- Settles O46: the next step is ENGINE's or its event's, and a state it answers meets the invariant, FAULT = 0 with it. -/
theorem onlyAccessesOutsideStop : Obligations.OnlyAccessesOutsideStop := by
  intro s hi
  have hfault : ∀ t, step s = .next t → t.fault = false := fun t h => by
    obtain ⟨-, -, hf, -⟩ := (inv_iff t).mp (stepKeepsTheInvariant s t hi h)
    exact hf
  cases hin : s.inputs with
  | nil =>
    obtain ⟨t, h⟩ := engineStep_answers hi
    have hs := (step_of_nil hin).trans h
    exact .inl ⟨t, hs, hfault t hs⟩
  | cons e es =>
    rcases applyEvent_answers (e := e) (s := s.withInputs es) hi with ⟨t, h⟩ | ⟨a, rfl, ha, h⟩
    · have hs := (step_of_cons hin).trans h
      exact .inl ⟨t, hs, hfault t hs⟩
    · exact .inr ⟨a, es, rfl, ha, (step_of_cons hin).trans h⟩

end Sys2Proof.Machine
end

section
/-! PROOFS. The statements of 30_encoding.md: words by their fields, the decoder, and the rows of the opcode table. -/

namespace Sys2Proof

/-! ### Words by their fields (R101) -/

/-- A word is its four fields. -/
theorem Word.ext_fields {w v : Word} (hop : Word.op w = Word.op v) (hrsv : Word.rsv w = Word.rsv v)
    (hb : Word.fieldB w = Word.fieldB v) (ha : Word.fieldA w = Word.fieldA v) : w = v := by
  simp only [Word.op, Word.rsv, Word.fieldB, Word.fieldA, ← BitVec.toNat_inj, BitVec.extractLsb'_toNat,
    Nat.shiftRight_eq_div_pow] at *
  omega

/-- A word with RSV = 0 is built from its other fields. -/
theorem cmdWord_of_fields {w : Word} {op : BitVec 4} (hr : Word.rsv w = 0) (hop : Word.op w = op) :
    cmdWord op (Word.fieldB w) (Word.fieldA w) = w :=
  Word.ext_fields ((cmdWord_op ..).trans hop.symm) ((cmdWord_rsv ..).trans hr.symm) (cmdWord_fieldB ..) (cmdWord_fieldA ..)

/-- Masking a word masks each field, so a masked word is a pattern exactly when each masked field is the pattern's. -/
theorem and_eq_iff_fields (w m p : Word) :
    w &&& m = p ↔
      Word.op w &&& Word.op m = Word.op p ∧ Word.rsv w &&& Word.rsv m = Word.rsv p ∧
      Word.fieldB w &&& Word.fieldB m = Word.fieldB p ∧ Word.fieldA w &&& Word.fieldA m = Word.fieldA p := by
  simp only [Word.op, Word.rsv, Word.fieldB, Word.fieldA, ← BitVec.extractLsb'_and]
  exact ⟨fun h => h ▸ ⟨rfl, rfl, rfl, rfl⟩, fun ⟨hop, hrsv, hb, ha⟩ => Word.ext_fields hop hrsv hb ha⟩

/-! ### The operand fields (R103 to R108) -/

/-- Bits [15:0] are the fields B and A. -/
theorem operands_eq_zero_iff (w : Word) : w.extractLsb' 0 16 = 0#16 ↔ Word.fieldB w = 0#8 ∧ Word.fieldA w = 0#8 := by
  simp only [Word.fieldB, Word.fieldA, ← BitVec.toNat_inj, BitVec.extractLsb'_toNat, Nat.shiftRight_eq_div_pow,
    BitVec.toNat_ofNat]
  omega

/-- The bits of a byte above bit 0, as R103's mask selects them. -/
theorem and_upper_eq_zero_iff : ∀ a : Byte, a &&& 0xFE#8 = 0#8 ↔ a.toNat < 2 := by decide

/-- Bits [15:1] are the field B and A[7:1]. -/
theorem upperOperands_eq_zero_iff (w : Word) :
    w.extractLsb' 1 15 = 0#15 ↔ Word.fieldB w = 0#8 ∧ Word.fieldA w &&& 0xFE#8 = 0#8 := by
  rw [and_upper_eq_zero_iff]
  simp only [Word.fieldB, Word.fieldA, ← BitVec.toNat_inj, BitVec.extractLsb'_toNat, Nat.shiftRight_eq_div_pow,
    BitVec.toNat_ofNat]
  omega

/-- A byte with A[7:1] = 0 is the operand bit A[0]. -/
theorem eq_bitOperand : ∀ a : Byte, a &&& 0xFE#8 = 0#8 → a = bitOperand (a.getLsbD 0) := by decide

/-- A[0] is bit 0 of the word. -/
theorem fieldA_bit0 (w : Word) : (Word.fieldA w).getLsbD 0 = w.getLsbD 0 := by simp [Word.fieldA]

/-- The bit of the direction a bit names. -/
theorem Dir.bit_ofBit (b : Bool) : (Dir.ofBit b).bit = b := by cases b <;> rfl

/-- A word whose only operand is the bit A[0], as those of BEGIN and SETACK (R103, R106). -/
theorem cmdWord_of_bitOperand {w : Word} {op : BitVec 4} (hr : Word.rsv w = 0) (hop : Word.op w = op)
    (hz : w.extractLsb' 1 15 = 0#15) : cmdWord op 0 (bitOperand (w.getLsbD 0)) = w := by
  obtain ⟨hb, ha⟩ := (upperOperands_eq_zero_iff w).mp hz
  have h := cmdWord_of_fields hr hop
  rwa [hb, eq_bitOperand _ ha, fieldA_bit0] at h

/-- A word without operands, as those of READB and STOP (R105, R107). -/
theorem cmdWord_of_noOperand {w : Word} {op : BitVec 4} (hr : Word.rsv w = 0) (hop : Word.op w = op)
    (hz : w.extractLsb' 0 16 = 0#16) : cmdWord op 0 0 = w := by
  obtain ⟨hb, ha⟩ := (operands_eq_zero_iff w).mp hz
  have h := cmdWord_of_fields hr hop
  rwa [hb, ha] at h

/-- A count that fits its field is read back from it (R109). -/
theorem toNat_ofNat_count {n : Nat} (h : decide (n < 256) = true) : (BitVec.ofNat 8 n).toNat = n := by
  rw [BitVec.toNat_ofNat, Nat.mod_eq_of_lt (of_decide_eq_true h)]

/-! ### The decoder, by operation (R110, R111) -/

/-- OP is a reserved value or one of the six operations (R102). -/
theorem op_cases : ∀ op : BitVec 4,
    (op = 0 ∨ 7 ≤ op.toNat) ∨ op = 0x1 ∨ op = 0x2 ∨ op = 0x3 ∨ op = 0x4 ∨ op = 0x5 ∨ op = 0x6 := by decide

/-- A reserved OP is none of the six operations (R102). -/
theorem op_ne_of_reserved : ∀ op : BitVec 4, op = 0 ∨ 7 ≤ op.toNat →
    op ≠ 0x1 ∧ op ≠ 0x2 ∧ op ≠ 0x3 ∧ op ≠ 0x4 ∧ op ≠ 0x5 ∧ op ≠ 0x6 := by decide

/-- A reserved bit makes a word illegal, whatever its OP (R101, R111). -/
theorem decode_of_rsv {w : Word} (h : Word.rsv w ≠ 0) : decode w = .error .reservedBits := if_pos h

section
variable {w : Word} (hr : Word.rsv w = 0)
include hr

/-- With RSV = 0, a reserved OP makes a word illegal (R102, R111). -/
theorem decode_of_reservedOp (h : Word.op w = 0 ∨ 7 ≤ (Word.op w).toNat) : decode w = .error .reservedOp := by
  obtain ⟨h1, h2, h3, h4, h5, h6⟩ := op_ne_of_reserved _ h
  rw [decode, if_neg (not_not.mpr hr), if_neg h1, if_neg h2, if_neg h3, if_neg h4, if_neg h5, if_neg h6]

/-- OP 0x1 is BEGIN (R103). -/
theorem decode_begin (h : Word.op w = 0x1) :
    decode w = if w.extractLsb' 1 15 = 0 then .ok (.begin (Dir.ofBit (w.getLsbD 0))) else .error .operandBits := by
  rw [decode, if_neg (not_not.mpr hr), h]; rfl

/-- OP 0x2 is WRITE (R104). -/
theorem decode_write (h : Word.op w = 0x2) :
    decode w = if w.extractLsb' 8 8 = 0 then .ok (.write (Word.fieldA w).toNat) else .error .operandBits := by
  rw [decode, if_neg (not_not.mpr hr), h]; rfl

/-- OP 0x3 is READB (R105). -/
theorem decode_readb (h : Word.op w = 0x3) :
    decode w = if w.extractLsb' 0 16 = 0 then .ok .readb else .error .operandBits := by
  rw [decode, if_neg (not_not.mpr hr), h]; rfl

/-- OP 0x4 is SETACK (R106). -/
theorem decode_setack (h : Word.op w = 0x4) :
    decode w = if w.extractLsb' 1 15 = 0 then .ok (.setack (w.getLsbD 0)) else .error .operandBits := by
  rw [decode, if_neg (not_not.mpr hr), h]; rfl

/-- OP 0x5 is STOP (R107). -/
theorem decode_stop (h : Word.op w = 0x5) :
    decode w = if w.extractLsb' 0 16 = 0 then .ok .stop else .error .operandBits := by
  rw [decode, if_neg (not_not.mpr hr), h]; rfl

/-- OP 0x6 is BURST, which uses every operand bit (R108). -/
theorem decode_burst (h : Word.op w = 0x6) : decode w = .ok (.burst (Word.fieldA w) (Word.fieldB w).toNat) := by
  rw [decode, if_neg (not_not.mpr hr), h]; rfl

end

/-- An operation that answers `.ok` found its unused operand bits 0. -/
theorem ok_of_ite {c : Prop} [Decidable c] {i j : Instr} {r : IllegalWord}
    (h : (if c then Except.ok j else .error r) = Except.ok i) : c ∧ j = i := by
  split at h
  · next hc => exact ⟨hc, Except.ok.inj h⟩
  · cases h

/-- An operation answers an error exactly when it finds an unused operand bit set. -/
theorem error_ite_iff {c : Prop} [Decidable c] {j : Instr} {e : IllegalWord} :
    (∃ r, (if c then Except.ok j else .error e) = Except.error r) ↔ ¬ c := by
  by_cases hc : c <;> simp [hc]

/-- R111's list of the illegal words. -/
theorem decode_error_iff (w : Word) :
    (∃ r, decode w = .error r) ↔
      (Word.op w = 0 ∨ 7 ≤ (Word.op w).toNat) ∨ Word.rsv w ≠ 0 ∨
      ((Word.op w = 1 ∨ Word.op w = 4) ∧ w.extractLsb' 1 15 ≠ 0) ∨
      (Word.op w = 2 ∧ w.extractLsb' 8 8 ≠ 0) ∨
      ((Word.op w = 3 ∨ Word.op w = 5) ∧ w.extractLsb' 0 16 ≠ 0) := by
  by_cases hr : Word.rsv w = 0
  case neg => exact ⟨fun _ => .inr (.inl hr), fun _ => ⟨_, decode_of_rsv hr⟩⟩
  rcases op_cases (Word.op w) with hop | hop | hop | hop | hop | hop | hop
  · exact ⟨fun _ => .inl hop, fun _ => ⟨_, decode_of_reservedOp hr hop⟩⟩
  · rw [decode_begin hr hop, error_ite_iff]; simp [hop, hr]
  · rw [decode_write hr hop, error_ite_iff]; simp [hop, hr]
  · rw [decode_readb hr hop, error_ite_iff]; simp [hop, hr]
  · rw [decode_setack hr hop, error_ite_iff]; simp [hop, hr]
  · rw [decode_stop hr hop, error_ite_iff]; simp [hop, hr]
  · simp [decode_burst hr hop, hop, hr]

/-! ### Decoding and encoding (R110, R112) -/

/-- Settles O3: the decoder tests the fields of the word, which are those it was built from, and reads the operands back. -/
theorem decodeOfEncodeIsIdentity : Obligations.DecodeOfEncodeIsIdentity := by
  intro i h
  cases i with
  | begin d =>
    have hz := (cmdWord_upperOperands 0x1 0 _).trans (bitOperand_upper d.bit)
    rw [encode, decode_begin (cmdWord_rsv ..) (cmdWord_op ..), if_pos hz, cmdWord_bit0, bitOperand_bit0, Dir.ofBit_bit]
  | write len =>
    have hz : (cmdWord 0x2 0 (BitVec.ofNat 8 len)).extractLsb' 8 8 = 0 := cmdWord_fieldB ..
    rw [encode, decode_write (cmdWord_rsv ..) (cmdWord_op ..), if_pos hz, cmdWord_fieldA, toNat_ofNat_count h]
  | readb => decide
  | setack en =>
    have hz := (cmdWord_upperOperands 0x4 0 _).trans (bitOperand_upper en)
    rw [encode, decode_setack (cmdWord_rsv ..) (cmdWord_op ..), if_pos hz, cmdWord_bit0, bitOperand_bit0]
  | stop => decide
  | burst reg wc =>
    rw [encode, decode_burst (cmdWord_rsv ..) (cmdWord_op ..), cmdWord_fieldA, cmdWord_fieldB, toNat_ofNat_count h]

/-- Settles O4: a word that decodes has RSV = 0 and no operand bit its operation does not use, so it is built from the fields
the decoder read. -/
theorem encodeOfDecodeIsIdentity : Obligations.EncodeOfDecodeIsIdentity := by
  intro w i h
  by_cases hr : Word.rsv w = 0
  case neg => cases (decode_of_rsv hr).symm.trans h
  rcases op_cases (Word.op w) with hop | hop | hop | hop | hop | hop | hop
  · cases (decode_of_reservedOp hr hop).symm.trans h
  · obtain ⟨hz, rfl⟩ := ok_of_ite ((decode_begin hr hop).symm.trans h)
    refine ⟨rfl, ?_⟩
    rw [encode, Dir.bit_ofBit, cmdWord_of_bitOperand hr hop hz]
  · obtain ⟨hb, rfl⟩ := ok_of_ite ((decode_write hr hop).symm.trans h)
    refine ⟨decide_eq_true (Word.fieldA w).isLt, ?_⟩
    rw [encode, BitVec.ofNat_toNat, BitVec.setWidth_eq, ← hb]
    exact cmdWord_of_fields hr hop
  · obtain ⟨hz, rfl⟩ := ok_of_ite ((decode_readb hr hop).symm.trans h)
    exact ⟨rfl, cmdWord_of_noOperand hr hop hz⟩
  · obtain ⟨hz, rfl⟩ := ok_of_ite ((decode_setack hr hop).symm.trans h)
    exact ⟨rfl, cmdWord_of_bitOperand hr hop hz⟩
  · obtain ⟨hz, rfl⟩ := ok_of_ite ((decode_stop hr hop).symm.trans h)
    exact ⟨rfl, cmdWord_of_noOperand hr hop hz⟩
  · cases (decode_burst hr hop).symm.trans h
    refine ⟨decide_eq_true (Word.fieldB w).isLt, ?_⟩
    rw [encode, BitVec.ofNat_toNat, BitVec.setWidth_eq, cmdWord_of_fields hr hop]

/-! ### The rows of the opcode table (R103 to R108) -/

/-- Every row's mask takes in OP and RSV whole, and its pattern sets no bit below OP. -/
theorem opcodeRows_format : ∀ r ∈ opcodeRows,
    Word.op r.mask = BitVec.allOnes 4 ∧ Word.rsv r.mask = BitVec.allOnes 12 ∧ Word.rsv r.pattern = 0 ∧
    Word.fieldB r.pattern = 0 ∧ Word.fieldA r.pattern = 0 := by decide

/-- A word belongs to a row when its OP is the row's, RSV is 0, and so is every operand bit the row does not use. -/
theorem matchesWord_iff {r : OpcodeRow} (w : Word) (hr : r ∈ opcodeRows) :
    r.matchesWord w = true ↔
      Word.op w = Word.op r.pattern ∧ Word.rsv w = 0 ∧ Word.fieldB w &&& Word.fieldB r.mask = 0 ∧
      Word.fieldA w &&& Word.fieldA r.mask = 0 := by
  obtain ⟨hop, hrsv, hrsv', hb, ha⟩ := opcodeRows_format r hr
  rw [OpcodeRow.matchesWord, decide_eq_true_iff, and_eq_iff_fields, hop, hrsv, hrsv', hb, ha, BitVec.and_allOnes,
    BitVec.and_allOnes]

/-- A field the row does not use is masked whole. -/
theorem and_full_eq_zero_iff (b : Byte) : b &&& 0xFF#8 = 0#8 ↔ b = 0#8 := by
  rw [show 0xFF#8 = BitVec.allOnes 8 from rfl, BitVec.and_allOnes]

/-- A word of a row decodes. -/
theorem decode_ok_of_row {r : OpcodeRow} {w : Word} (hr : r ∈ opcodeRows) (h : r.matchesWord w = true) :
    ∃ i, decode w = .ok i := by
  obtain ⟨hop, hrsv, hb, ha⟩ := (matchesWord_iff w hr).mp h
  simp only [opcodeRows, List.mem_cons, List.not_mem_nil, or_false] at hr
  rcases hr with rfl | rfl | rfl | rfl | rfl | rfl
  · have hz := (upperOperands_eq_zero_iff w).mpr ⟨(and_full_eq_zero_iff _).mp hb, ha⟩
    exact ⟨_, (decode_begin hrsv hop).trans (if_pos hz)⟩
  · exact ⟨_, (decode_write hrsv hop).trans (if_pos ((and_full_eq_zero_iff _).mp hb))⟩
  · have hz := (operands_eq_zero_iff w).mpr ⟨(and_full_eq_zero_iff _).mp hb, (and_full_eq_zero_iff _).mp ha⟩
    exact ⟨_, (decode_readb hrsv hop).trans (if_pos hz)⟩
  · have hz := (upperOperands_eq_zero_iff w).mpr ⟨(and_full_eq_zero_iff _).mp hb, ha⟩
    exact ⟨_, (decode_setack hrsv hop).trans (if_pos hz)⟩
  · have hz := (operands_eq_zero_iff w).mpr ⟨(and_full_eq_zero_iff _).mp hb, (and_full_eq_zero_iff _).mp ha⟩
    exact ⟨_, (decode_stop hrsv hop).trans (if_pos hz)⟩
  · exact ⟨_, decode_burst hrsv hop⟩

/-- The word of a command belongs to the row of its mnemonic and to no other. -/
theorem matchesWord_encode {r : OpcodeRow} (hr : r ∈ opcodeRows) (i : Instr) :
    r.matchesWord (encode i) = decide (r.mnemonic = i.mnemonic) := by
  rw [Bool.eq_iff_iff, matchesWord_iff _ hr, decide_eq_true_iff]
  cases i with
  | begin d => revert r; cases d <;> decide
  | write len =>
    simp only [encode, cmdWord_op, cmdWord_rsv, cmdWord_fieldB, cmdWord_fieldA]
    revert r
    simp [opcodeRows, Word.op, Word.fieldB, Word.fieldA, Instr.mnemonic]
  | readb => revert r; decide
  | setack en => revert r; cases en <;> decide
  | stop => revert r; decide
  | burst reg wc =>
    simp only [encode, cmdWord_op, cmdWord_rsv, cmdWord_fieldB, cmdWord_fieldA]
    revert r
    simp [opcodeRows, Word.op, Word.fieldB, Word.fieldA, Instr.mnemonic]

/-- Settles O5: a word that decodes is its command's word, which belongs to the row of that mnemonic alone, and a word of a row
decodes. -/
theorem wordDecodesToExactlyOneRow : Obligations.WordDecodesToExactlyOneRow := by
  refine fun w => ⟨fun i h => ?_, fun e h => List.filter_eq_nil_iff.mpr fun r hr hm => ?_⟩
  · obtain ⟨-, rfl⟩ := encodeOfDecodeIsIdentity w i h
    rw [List.filter_congr fun r hr => matchesWord_encode hr i]
    cases i <;> rfl
  · obtain ⟨i, hi⟩ := decode_ok_of_row hr hm
    cases h.symm.trans hi

/-! ### The worked encodings and the syntax table (R113, R116) -/

/-- `{OP, RSV = 0, B, A}` by shifts, as R113 writes its words. -/
theorem cmdWord_eq_or (op : BitVec 4) (b a : Byte) :
    cmdWord op b a = (op.setWidth 32 <<< 28) ||| (b.setWidth 32 <<< 8) ||| a.setWidth 32 := by
  calc cmdWord op b a = (op ++ (0#12 ++ (b ++ a))).setWidth 32 := (BitVec.setWidth_eq _).symm
    _ = (op.setWidth 32 <<< 28) ||| ((0#12).setWidth 32 <<< 16 ||| ((b.setWidth 32 <<< 8) ||| a.setWidth 32)) := by
      rw [BitVec.setWidth_append_eq_shiftLeft_setWidth_or, BitVec.setWidth_append_eq_shiftLeft_setWidth_or,
        BitVec.setWidth_append_eq_shiftLeft_setWidth_or]
    _ = (op.setWidth 32 <<< 28) ||| (b.setWidth 32 <<< 8) ||| a.setWidth 32 := by
      rw [BitVec.setWidth_zero, BitVec.zero_shiftLeft, BitVec.zero_or, BitVec.or_assoc]

/-- Settles O2: the one word of each command without a count, and the field of a count below 256 is the count. -/
theorem encodeGivesSyntaxTableWord : Obligations.EncodeGivesSyntaxTableWord := by
  refine ⟨rfl, rfl, fun n hn => ?_, rfl, rfl, rfl, rfl, fun reg wc hwc => ?_⟩
  · rw [encode, cmdWord_eq_or, BitVec.setWidth_ofNat_of_le_of_lt (by decide) hn]
    rfl
  · rw [encode, cmdWord_eq_or, BitVec.setWidth_ofNat_of_le_of_lt (by decide) hwc]
    rfl

end Sys2Proof

namespace Sys2Proof.Machine

open Host

/-- A CMD write of an illegal word is rejected when BUSY = 0 (R111, R201). -/
theorem presentWord_of_error {w : Word} {r : IllegalWord} {s : State} (hb : s.busy = false) (hd : decode w = .error r) :
    presentWord w s = .next (reject .illegalCmd (clearOutcome s)) := by
  simp [presentWord, hb, hd]

/-- Settles O6: the CMD write presents the word, and R201's rejection writes ERR after the fields every taken CMD write clears. -/
theorem illegalWordsAndTheirOutcome : Obligations.IllegalWordsAndTheirOutcome :=
  fun w => ⟨decode_error_iff w, fun _ s hd hb => (hostStep_cmdWrite w s).trans (presentWord_of_error hb hd),
    .reservedOp, by decide⟩

/-- An idle block rejects a command out of range (R122, R213). -/
theorem present_of_badRange {c : Instr} {phaseOk : Bool} {latch : State → State} {s : State} (h : s.busy = false) :
    present c false phaseOk latch s = reject .badLength (clearOutcome s) := by
  simp [present, h]

/-- Settles O1: the words decode by evaluation, and WC = 0 is out of R122's range in every state. -/
theorem decodeWorkedEncodings : Obligations.DecodeWorkedEncodings := by
  refine ⟨by decide, by decide, by decide, by decide, by decide, by decide, by decide, fun s hb => ?_, by decide, by decide,
    by decide⟩
  obtain ⟨latch, hx, -⟩ := exec_eq_present_checks (.burst 0x3B 0) s
  rw [hx]
  exact congrArg Outcome.next (present_of_badRange hb)

end Sys2Proof.Machine
end

section
/-! PROOFS. The statements of 40_engine_commands.md: taking a command, and one ENGINE step. -/

namespace Sys2Proof.Machine
open Host

/-! ### Taking a command (R120 to R123) -/

/-- Everything taking a command can do, by the first check that applies (R120 to R123, R213). -/
theorem exec_cases (c : Instr) (s : State) :
    (s.busy = true ∧ exec c s = .next (overrun s)) ∨
    (s.busy = false ∧ rangeFails s.params c = true ∧ exec c s = .next (reject .badLength (clearOutcome s))) ∨
    (s.busy = false ∧ rangeFails s.params c = false ∧ phaseFails s c = true ∧
      exec c s = .next (reject .sequence (clearOutcome s))) ∨
    (s.busy = false ∧ rangeFails s.params c = false ∧ phaseFails s c = false ∧ exec c s = .next (acceptedState c s)) := by
  obtain ⟨latch, hx, hl⟩ := exec_eq_present_checks c s
  rw [hx, ← hl]
  have h := present_cases c (!rangeFails s.params c) (!phaseFails s c) latch s
  simpa only [Bool.not_eq_true', Bool.not_eq_false', Outcome.next.injEq] using h

section
variable {c : Instr} {s : State}

/-- A command presented with BUSY = 1 is dropped (R121). -/
theorem exec_of_busy (hb : s.busy = true) : exec c s = .next (overrun s) := by
  rcases exec_cases c s with ⟨-, h⟩ | ⟨hb', -⟩ | ⟨hb', -⟩ | ⟨hb', -⟩
  · exact h
  all_goals cases hb.symm.trans hb'

/-- A command out of range is rejected, whatever the phase (R122, R213). -/
theorem exec_of_rangeFails (hb : s.busy = false) (hr : rangeFails s.params c = true) :
    exec c s = .next (reject .badLength (clearOutcome s)) := by
  rcases exec_cases c s with ⟨hb', -⟩ | ⟨-, -, h⟩ | ⟨-, hr', -⟩ | ⟨-, hr', -⟩
  · cases hb.symm.trans hb'
  · exact h
  all_goals cases hr.symm.trans hr'

/-- A command in range and out of phase is rejected (R123). -/
theorem exec_of_phaseFails (hb : s.busy = false) (hr : rangeFails s.params c = false) (hp : phaseFails s c = true) :
    exec c s = .next (reject .sequence (clearOutcome s)) := by
  rcases exec_cases c s with ⟨hb', -⟩ | ⟨-, hr', -⟩ | ⟨-, -, -, h⟩ | ⟨-, -, hp', -⟩
  · cases hb.symm.trans hb'
  · cases hr.symm.trans hr'
  · exact h
  · cases hp.symm.trans hp'

/-- A command in range and in phase is accepted (R120). -/
theorem exec_of_accepted (hb : s.busy = false) (hr : rangeFails s.params c = false) (hp : phaseFails s c = false) :
    exec c s = .next (acceptedState c s) := by
  rcases exec_cases c s with ⟨hb', -⟩ | ⟨-, hr', -⟩ | ⟨-, -, hp', -⟩ | ⟨-, -, -, h⟩
  · cases hb.symm.trans hb'
  · cases hr.symm.trans hr'
  · cases hp.symm.trans hp'
  · exact h

end

/-- A CMD write with BUSY = 1 is dropped before its word is decoded (R121). -/
theorem presentWord_of_busy {w : Word} {s : State} (hb : s.busy = true) : presentWord w s = .next (overrun s) := by
  simp [presentWord, hb]

/-- A CMD write of a command's word, with BUSY = 0, takes the command (R120). -/
theorem hostStep_cmdWrite_of_ok {w : Word} {c : Instr} {s : State} (hb : s.busy = false) (hd : decode w = .ok c) :
    hostStep (cmdWrite w) s = exec c s :=
  (hostStep_cmdWrite w s).trans (presentWord_of_ok hb hd)

/-- Settles O8: the overrun comes before the word is decoded, and before any check of a command. -/
theorem commandWhileBusyIsDropped : Obligations.CommandWhileBusyIsDropped :=
  fun s hb => ⟨fun w => (hostStep_cmdWrite w s).trans (presentWord_of_busy hb), fun _ => exec_of_busy hb⟩

/-- Settles O9: one clause for each outcome of a CMD write, in the order of R213. -/
theorem checksOfACommandInOrder : Obligations.ChecksOfACommandInOrder := by
  refine fun s w => ⟨fun hb => ?overrun, fun hb r hd => ?illegal, fun hb c hd hr => ?range, fun hb c hd hr hp => ?phase,
    fun hb c hd hr hp => ?accepted⟩
  case overrun => exact (hostStep_cmdWrite w s).trans (presentWord_of_busy hb)
  case illegal => exact (hostStep_cmdWrite w s).trans (presentWord_of_error hb hd)
  case range => exact (hostStep_cmdWrite_of_ok hb hd).trans (exec_of_rangeFails hb hr)
  case phase => exact (hostStep_cmdWrite_of_ok hb hd).trans (exec_of_phaseFails hb hr hp)
  case accepted => exact ⟨_, (hostStep_cmdWrite_of_ok hb hd).trans (exec_of_accepted hb hr hp), rfl, rfl, rfl⟩

/-- Settles O10: `acceptedState` is what `present` latches once both checks pass. -/
theorem acceptanceLatchesTheCommand : Obligations.AcceptanceLatchesTheCommand :=
  fun _ _ hb hr hp => exec_of_accepted hb hr hp

/-- What acceptance writes for a BURST only, and for a WRITE only (R120). -/
theorem acceptedState_keeps (c : Instr) (s : State) :
    ((∀ reg wc, c ≠ .burst reg wc) →
      (acceptedState c s).resultValid = s.resultValid ∧ (acceptedState c s).bytes = s.bytes ∧
      (acceptedState c s).widx = s.widx ∧ (acceptedState c s).acc = s.acc ∧ (acceptedState c s).work = s.work) ∧
    ((∀ n, c ≠ .write n) → (acceptedState c s).payload = s.payload) := by
  cases c with
  | burst reg wc => exact ⟨fun h => absurd rfl (h reg wc), fun _ => rfl⟩
  | write n => exact ⟨fun _ => ⟨rfl, rfl, rfl, rfl, rfl⟩, fun h => absurd rfl (h n)⟩
  | _ => exact ⟨fun _ => ⟨rfl, rfl, rfl, rfl, rfl⟩, fun _ => rfl⟩

/-- Settles O11: of the four outcomes of taking a command, only acceptance writes more than the outcome fields. -/
theorem takingACommandFrame : Obligations.TakingACommandFrame := by
  intro s c
  rcases exec_cases c s with ⟨-, h⟩ | ⟨-, -, h⟩ | ⟨-, -, -, h⟩ | ⟨-, -, -, h⟩
  case inr.inr.inr => exact ⟨_, h, rfl, acceptedState_keeps c s⟩
  all_goals exact ⟨_, h, rfl, fun _ => ⟨rfl, rfl, rfl, rfl, rfl⟩, fun _ => rfl⟩

/-! ### One ENGINE step (R125 to R127) -/

section
variable {s : State} {u : MicroOp} (hb : s.busy = true) (hu : currentMicro s = some u) (ha : Advances u s)
include hb hu ha

/-- A µop that advances, before the last one, moves MPC by 1 (R125, R126). -/
theorem engineStep_of_more (hmore : s.mpc.toNat + 1 < (runningProg s).length) :
    engineStep s = .next { (runMicro u s).1 with mpc := s.mpc + 1 } := by
  obtain ⟨-, -, hm, -⟩ := runMicro_keeps u s
  rw [engineStep_of_micro hb hu, applyVerdict, runMicro_verdict_of_advances ha]
  exact congrArg Outcome.next ((advance_of_more (by rw [hm]; omega)).trans (by rw [hm]))

/-- A µop that advances, at the end of its µprogram, ends the command (R125). -/
theorem engineStep_of_last (hlast : s.mpc.toNat + 1 = (runningProg s).length) :
    engineStep s = .next (endCommand (runMicro u s).1) := by
  obtain ⟨-, -, hm, -⟩ := runMicro_keeps u s
  rw [engineStep_of_micro hb hu, applyVerdict, runMicro_verdict_of_advances ha]
  exact congrArg Outcome.next (advance_of_last (by rw [hm]; exact hlast))

end

/-- A µop other than a WAIT always advances (R125). -/
theorem advances_of_notWait {u : MicroOp} {s : State} (h : u.isWait = false) : Advances u s := by
  rintro f rfl
  cases h

/-- A WAIT advances when its flag is 1 (R127). -/
theorem advances_of_set {f : WaitFlag} {s : State} (h : flagValue f s = true) : Advances (.wait f) s := by
  rintro _ ⟨⟩
  exact h

/-- Settles O19: a µop other than a WAIT advances, and Advance is R125's two cases. -/
theorem engineStepAdvances : Obligations.EngineStepAdvances :=
  fun _ => ⟨engineStep_of_idle, fun _ hb hu hw =>
    ⟨engineStep_of_more hb hu (advances_of_notWait hw), engineStep_of_last hb hu (advances_of_notWait hw)⟩⟩

/-- TX_EMPTY is 1 exactly when no Tx is in PREQ (R32). -/
theorem txEmpty_iff (q : List Request) : txEmpty q = true ↔ ∀ b, Request.tx b ∉ q := by
  rw [txEmpty, List.all_eq_true]
  constructor
  · exact fun h b hb => Bool.false_ne_true (h _ hb)
  · intro h r hr
    cases r with
    | tx b => exact absurd hr (h b)
    | _ => rfl

/-- Settles O24: the poll succeeds, fails or times out, and SPIN after a failed poll is the saturated count. -/
theorem pollOfAWait : Obligations.PollOfAWait := by
  refine fun s f hb hu hmore => ⟨fun hf => ?set, fun hf n hn => ?failed, txEmpty_iff s.preq⟩
  case set => rw [engineStep_of_more hb hu (advances_of_set hf) hmore, runMicro_wait_of_set hf]
  case failed =>
    have hspin : spinAfterFail s.spin = n := BitVec.eq_of_toNat_eq (by rw [spinAfterFail_toNat, hn])
    have hiff := timesOut_iff s.limit n
    rw [engineStep_of_failedPoll hb hu hf, hspin]
    refine ⟨fun h => ?_, fun h0 hle => by rw [if_pos (hiff.mpr ⟨h0, hle⟩)]⟩
    rw [if_neg]
    intro ht
    obtain ⟨h0, hle⟩ := hiff.mp ht
    exact h.elim h0 fun hlt => by omega

/-! ### The effects of the µops (R128 to R135, R175 to R181) -/

/-- R129's address byte: the address shifted up by one, and the direction bit below it. -/
theorem addressByte_eq (d : Dir) :
    addressByte d = (Config.periphAddr.setWidth 8 <<< 1) ||| (BitVec.ofBool d.bit).setWidth 8 := by
  rw [addressByte, ← BitVec.setWidth_append_eq_shiftLeft_setWidth_or]
  exact (BitVec.setWidth_eq _).symm

/-- Settles O20: each µop that makes a request writes its own fields besides the queue, which has room. -/
theorem requestMicroOpEffects : Obligations.RequestMicroOpEffects := by
  intro s h
  have hq (q : Request) : enqueue q s = { s with preq := s.preq ++ [q] } := enqueue_of_room h
  refine ⟨?_, fun d => ?_, rfl, fun b => ?_, ?_⟩
  · rw [runMicro, microStart, hq]
  · rw [runMicro, microAddr, hq, addressByte_eq]
  · rw [runMicro, microTx, hq]
  · rw [runMicro, microStop, hq]

/-- Settles O21: the same with the queue full, which loses the request. -/
theorem requestIntoFullQueueSetsFault : Obligations.RequestIntoFullQueueSetsFault := by
  intro s h
  have hq (q : Request) : enqueue q s = { s with fault := true } := enqueue_of_full h.ge
  refine ⟨?_, fun b => ?_, ?_, fun d => ?_⟩
  · rw [runMicro, microStart, hq]
  · rw [runMicro, microTx, hq]
  · rw [runMicro, microStop, hq]
  · rw [runMicro, microAddr, hq]

/-- Settles O22: each of these µops is one update of the state. -/
theorem receiveMicroOpEffects : Obligations.ReceiveMicroOpEffects :=
  fun _ => ⟨rfl, fun _ => rfl, rfl, rfl, rfl, rfl, rfl, rfl⟩

/-! ### The µprograms (R124, R172, R255) -/

/-- The µprogram of `n` bytes: three µops each, two of them waits (R124). -/
theorem flatMap_txSeq_shape (g : Nat → Byte) (n : Nat) :
    ((List.range n).flatMap fun i => txSeq (g i)).length = 3 * n ∧
    ((List.range n).flatMap fun i => txSeq (g i)).countP MicroOp.isWait = 2 * n := by
  induction n with
  | zero => exact ⟨rfl, rfl⟩
  | succ n ih =>
    obtain ⟨hlen, hwait⟩ := ih
    simp only [List.range_succ, List.flatMap_append, List.length_append, List.countP_append, hlen, hwait]
    exact ⟨rfl, rfl⟩

/-- `n` words of a BURST before the final one: four µops each, two of them waits (R172). -/
theorem flatten_wordSeq_shape (n : Nat) :
    (List.replicate n wordSeq).flatten.length = 4 * n ∧
    (List.replicate n wordSeq).flatten.countP MicroOp.isWait = 2 * n := by
  induction n with
  | zero => exact ⟨rfl, rfl⟩
  | succ n ih =>
    obtain ⟨hlen, hwait⟩ := ih
    simp only [List.replicate_succ', List.flatten_append, List.length_append, List.countP_append, hlen, hwait]
    exact ⟨rfl, rfl⟩

/-- The length of the µprogram of a WRITE, and its waits. -/
theorem uprogWrite_shape (n : Nat) (ps : List Byte) :
    (uprogWrite n ps).length = 6 + 3 * n ∧ (uprogWrite n ps).countP MicroOp.isWait = 2 + 2 * n := by
  obtain ⟨hlen, hwait⟩ := flatMap_txSeq_shape (payloadByte ps) n
  have hopen : (beginSeq .write).countP MicroOp.isWait = 2 := rfl
  simp only [uprogWrite, List.length_append, List.countP_append, hlen, hwait, hopen]
  exact ⟨by simp [beginSeq]; omega, rfl⟩

/-- The length of the µprogram of a BURST, and its waits (log 24). -/
theorem uprogBurst_shape (reg : Byte) {wc : Nat} (h : 1 ≤ wc) :
    (uprogBurst reg wc).length = 17 + 4 * wc ∧ (uprogBurst reg wc).countP MicroOp.isWait = 6 + 2 * wc := by
  obtain ⟨hlen, hwait⟩ := flatten_wordSeq_shape (wc - 1)
  have hopen : (burstOpening reg).countP MicroOp.isWait = 6 := rfl
  have hlast : (lastWordSeq ++ [MicroOp.stop, .ackOn, .commit]).countP MicroOp.isWait = 2 := rfl
  rw [uprogBurst_eq, burstReceive, List.length_append, List.length_append, List.countP_append, List.countP_append, hlen,
    hwait, hopen, hlast]
  simp [burstOpening, lastWordSeq]
  omega

/-- No µop that ends a command is a WAIT. -/
theorem notWait_of_endsCommand {u : MicroOp} (h : u.endsCommand = true) : u.isWait = false := by
  cases u with
  | wait f => cases h
  | _ => rfl

/-- No µprogram ends in a WAIT (R126). -/
theorem notWait_of_getLast? {c : Instr} {ps : List Byte} {u : MicroOp} (h : (uprog c ps).getLast? = some u) :
    u.isWait = false := by
  rw [List.getLast?_eq_getElem?] at h
  obtain ⟨hlt, -⟩ := List.getElem?_eq_some_iff.mp h
  exact notWait_of_endsCommand (endsCommand_of_last h (by omega))

/-- Settles O18: the long µprograms are counted block by block, the others by evaluation. -/
theorem microprogramShapes : Obligations.MicroprogramShapes :=
  ⟨fun _ _ => ⟨rfl, rfl⟩, uprogWrite_shape, fun _ => ⟨rfl, rfl⟩, fun _ _ => ⟨rfl, rfl⟩, fun _ => ⟨rfl, rfl⟩,
    fun reg _ _ h => uprogBurst_shape reg h, fun _ _ _ => notWait_of_getLast?, fun _ _ _ => rfl⟩

end Sys2Proof.Machine
end

section
/-! PROOFS. The statements of 40_engine_commands.md: what a schedule performs of a µprogram, and the run of it. -/

namespace Sys2Proof.Machine
open Host

/-! ### The sequencer's own fields -/

/-- The state with BUSY, CUR, MPC and the steps to come as given: what the sequencer and the schedule write. -/
def State.withSequencer (busy : Bool) (cur : Option Instr) (mpc : Byte) (es : List Event) (s : State) : State :=
  { s with busy := busy, cur := cur, mpc := mpc, inputs := es }

section
variable (b : Bool) (c : Option Instr) (m : Byte) (es : List Event) (s : State)

/-- A request is queued alike, wherever the sequencer stands. -/
theorem enqueue_withSequencer (q : Request) :
    enqueue q (s.withSequencer b c m es) = (enqueue q s).withSequencer b c m es := by
  by_cases h : Config.preqCap ≤ s.preq.length
  · rw [enqueue_of_full h, enqueue_of_full (s := s.withSequencer b c m es) h]; rfl
  · have h := Nat.not_le.mp h
    rw [enqueue_of_room h, enqueue_of_room (s := s.withSequencer b c m es) h]; rfl

/-- No flag is read off them. -/
theorem flagValue_withSequencer (f : WaitFlag) : flagValue f (s.withSequencer b c m es) = flagValue f s := by
  cases f <;> rfl

/-- No µop reads or writes the sequencer's fields (R125). -/
theorem runMicro_withSequencer {u : MicroOp} (ha : Advances u s) :
    (runMicro u (s.withSequencer b c m es)).1 = (runMicro u s).1.withSequencer b c m es := by
  cases u with
  | wait f =>
    have hf := ha f rfl
    rw [runMicro_wait_of_set hf, runMicro_wait_of_set ((flagValue_withSequencer b c m es s f).trans hf)]
    rfl
  | start => rw [runMicro, microStart, enqueue_withSequencer]; rfl
  | addr d => rw [runMicro, microAddr, enqueue_withSequencer]; rfl
  | tx x => exact enqueue_withSequencer b c m es s (.tx x)
  | stop => rw [runMicro, microStop, enqueue_withSequencer]; rfl
  | _ => rfl

/-- BUS neither reads nor writes them (R85). -/
theorem busStep_withSequencer (x : BusMove) :
    busStep x (s.withSequencer b c m es) = (busStep x s).withSequencer b c m es := by
  have hen : busEnabled x (s.withSequencer b c m es) = busEnabled x s := by cases x <;> rfl
  unfold busStep
  rw [hen]
  simp only [State.withSequencer]
  split
  · split <;> rfl
  · rfl

end

/-! ### Performing a part of a µprogram -/

/-- The steps `es` of ENGINE and BUS perform the µops `us`, each ENGINE step advancing past one, and take `s` to `t`. The
sequencer's own fields are left out: `Performs.run` puts them back. -/
inductive Performs : List Event → List MicroOp → State → State → Prop where
  | nil (s : State) : Performs [] [] s s
  | bus (m : BusMove) {es : List Event} {us : List MicroOp} {s s' t : State} (h : busStep m s = s')
      (rest : Performs es us s' t) : Performs (.bus m :: es) us s t
  | micro (u : MicroOp) {es : List Event} {us : List MicroOp} {s s' t : State} (ha : Advances u s)
      (h : (runMicro u s).1 = s') (rest : Performs es us s' t) : Performs (.engine :: es) (u :: us) s t

/-- Two schedules one after the other perform two parts of a µprogram. -/
theorem Performs.append {es es' : List Event} {us us' : List MicroOp} {s t v : State} (h : Performs es us s t)
    (h' : Performs es' us' t v) : Performs (es ++ es') (us ++ us') s v := by
  induction h with
  | nil => exact h'
  | bus m hm _ ih => exact .bus m hm (ih h')
  | micro u ha hu _ ih => exact .micro u ha hu (ih h')

/-- Neither ENGINE's µops nor BUS write PAYLOAD (R45). -/
theorem Performs.payload {es : List Event} {us : List MicroOp} {s t : State} (h : Performs es us s t) :
    t.payload = s.payload := by
  induction h with
  | nil => rfl
  | bus m hm _ ih =>
    rw [ih, ← hm, busStep_frame]
  | micro u ha hu _ ih =>
    obtain ⟨-, -, -, -, -, hpay, -⟩ := runMicro_keeps u _
    rw [ih, ← hu, hpay]

/-- The state with command `c` running at position `i` of its µprogram, or ended when that is past its last µop (R125). -/
def State.seat (c : Instr) (i : Nat) (es : List Event) (s : State) : State :=
  if i < (uprog c s.payload).length then s.withSequencer true (some c) (BitVec.ofNat 8 i) es
  else s.withSequencer false none 0 es

section
variable {c : Instr} {i : Nat} {es : List Event} {s : State}

theorem seat_of_lt (h : i < (uprog c s.payload).length) :
    s.seat c i es = s.withSequencer true (some c) (BitVec.ofNat 8 i) es := if_pos h

theorem seat_of_end (h : i = (uprog c s.payload).length) : s.seat c i es = s.withSequencer false none 0 es :=
  if_neg h.not_lt

/-- The next step is the first one scheduled. -/
theorem step_seat (e : Event) : step (s.seat c i (e :: es)) = applyEvent e (s.seat c i es) := by
  unfold State.seat
  split <;> rfl

/-- A BUS step, wherever the sequencer stands. -/
theorem busStep_seat (m : BusMove) : busStep m (s.seat c i es) = (busStep m s).seat c i es := by
  have hpay : (busStep m s).payload = s.payload := by rw [busStep_frame]
  unfold State.seat
  rw [hpay]
  split <;> exact busStep_withSequencer ..

/-- The ENGINE step at position `i` performs the µop there and moves on, or ends the command (R125). -/
theorem engineStep_seat {u : MicroOp} (hlen : (uprog c s.payload).length < 256) (hu : (uprog c s.payload)[i]? = some u)
    (ha : Advances u s) : engineStep (s.seat c i es) = .next ((runMicro u s).1.seat c (i + 1) es) := by
  obtain ⟨hi, -⟩ := List.getElem?_eq_some_iff.mp hu
  obtain ⟨-, -, -, -, -, hpay, -⟩ := runMicro_keeps u s
  have hmpc : (BitVec.ofNat 8 i).toNat = i := by simp; omega
  rw [seat_of_lt hi]
  have hu' : currentMicro (s.withSequencer true (some c) (BitVec.ofNat 8 i) es) = some u := by
    rw [← hu]
    exact congrArg (fun n => (uprog c s.payload)[n]?) hmpc
  have ha' : Advances u (s.withSequencer true (some c) (BitVec.ofNat 8 i) es) :=
    fun f hf => (flagValue_withSequencer ..).trans (ha f hf)
  have hrun := runMicro_withSequencer true (some c) (BitVec.ofNat 8 i) es s ha
  rcases Nat.lt_or_eq_of_le (Nat.succ_le_of_lt hi) with hmore | hlast
  · rw [engineStep_of_more rfl hu' ha' (show (BitVec.ofNat 8 i).toNat + 1 < _ by rw [hmpc]; exact hmore), hrun,
      seat_of_lt (by rw [hpay]; exact hmore), BitVec.ofNat_add]
    rfl
  · rw [engineStep_of_last rfl hu' ha' (show (BitVec.ofNat 8 i).toNat + 1 = _ by rw [hmpc]; exact hlast), hrun,
      seat_of_end (by rw [hpay]; exact hlast)]
    rfl

end

/-- A schedule that performs the µops from position `i` on is a run of the machine that leaves the command behind them. -/
theorem Performs.run {es : List Event} {us : List MicroOp} {s t : State} (h : Performs es us s t) {c : Instr} {i : Nat}
    {vs : List MicroOp} (rest : List Event) (hlen : (uprog c s.payload).length < 256)
    (hat : (uprog c s.payload).drop i = us ++ vs) :
    Machine.run es.length (s.seat c i (es ++ rest)) = .next (t.seat c (i + us.length) rest) := by
  induction h generalizing i with
  | nil => rfl
  | bus m hm hrest ih =>
    rename_i es us s s' t
    have hpay : s'.payload = s.payload := by rw [← hm, busStep_frame]
    have hstep : step (s.seat c i (.bus m :: (es ++ rest))) = .next (s'.seat c i (es ++ rest)) := by
      rw [step_seat, ← hm, ← busStep_seat]
      rfl
    rw [List.length_cons, List.cons_append, run_succ_of_next hstep]
    exact ih (by rwa [hpay]) (by rwa [hpay])
  | micro u ha hu hrest ih =>
    rename_i es us s s' t
    have hpay : s'.payload = s.payload := by
      obtain ⟨-, -, -, -, -, h, -⟩ := runMicro_keeps u s
      rw [← hu, h]
    have hui : (uprog c s.payload)[i]? = some u := by
      rw [← List.head?_drop, hat]
      rfl
    have hstep : step (s.seat c i (.engine :: (es ++ rest))) = .next (s'.seat c (i + 1) (es ++ rest)) := by
      rw [step_seat, ← hu]
      exact engineStep_seat hlen hui ha
    have hat' : (uprog c s'.payload).drop (i + 1) = us ++ vs := by
      rw [hpay, ← List.tail_drop, hat]
      rfl
    rw [List.length_cons, List.cons_append, run_succ_of_next hstep, ih (by rwa [hpay]) hat', List.length_cons, Nat.add_assoc,
      Nat.add_comm 1]

/-- No µprogram is empty (R124). -/
theorem uprog_length_pos (c : Instr) (ps : List Byte) : 0 < (uprog c ps).length := by
  cases c with
  | write n =>
    obtain ⟨h, -⟩ := uprogWrite_shape n ps
    rw [uprog, h]
    omega
  | burst reg wc => rw [uprog, uprogBurst_eq, List.length_append]; exact Nat.lt_add_right _ (Nat.zero_lt_succ _)
  | _ => exact Nat.zero_lt_succ _

/-- An accepted command whose schedule performs all of its µprogram runs to its end. -/
theorem Performs.run_accepted {es rest : List Event} {c : Instr} {s t : State}
    (h : Performs es (uprog c (acceptedState c s).payload) (acceptedState c s) t)
    (hlen : (uprog c (acceptedState c s).payload).length < 256) (hin : s.inputs = es ++ rest) :
    Machine.run es.length (acceptedState c s) = .next { t with busy := false, cur := none, mpc := 0, inputs := rest } := by
  have hseat : acceptedState c s = (acceptedState c s).seat c 0 (es ++ rest) := by
    rw [seat_of_lt (uprog_length_pos c _), ← hin]
    rfl
  have hrun := h.run (c := c) (i := 0) (vs := []) rest hlen (by simp)
  rw [← hseat, Nat.zero_add, seat_of_end (by rw [h.payload])] at hrun
  exact hrun

end Sys2Proof.Machine
end

section
/-! PROOFS. The statements of 40_engine_commands.md: BEGIN, WRITE, READB, SETACK and STOP on a prompt schedule. -/

namespace Sys2Proof.Machine
open Host

/-! ### The parts of the µprograms, each on its part of a prompt schedule -/

/-- A WAIT whose flag is 1 (R127). -/
theorem Performs.wait {f : WaitFlag} {es : List Event} {us : List MicroOp} {s t : State} (hf : flagValue f s = true)
    (rest : Performs es us { s with spin := 0 } t) : Performs (.engine :: es) (.wait f :: us) s t :=
  .micro _ (advances_of_set hf) (runMicro_wait_of_set hf) rest

/-- Any other µop. -/
theorem Performs.effect {u : MicroOp} {es : List Event} {us : List MicroOp} {s s' t : State} (hw : u.isWait = false)
    (h : (runMicro u s).1 = s') (rest : Performs es us s' t) : Performs (.engine :: es) (u :: us) s t :=
  .micro u (advances_of_notWait hw) h rest

/-- Nothing left to perform. -/
theorem Performs.nil_of_eq {s t : State} (h : s = t) : Performs [] [] s t := h ▸ .nil s

/-- The state once an address byte is ACKed and its flag cleared: the data phase of direction `d` (R124, R129, R80). -/
def opened (d : Dir) (s : State) : State :=
  { s with
    phase := .transferring
    dir := d
    spin := 0
    startSent := false
    addrAcked := false
    rxmode := d.bit || s.rxmode
    rxmore := d.bit || s.rxmore
    trace := s.trace ++ [.start, .addr (addressByte d) true] }

/-- With nothing pending BUS has nothing to perform. -/
theorem afterPending_of_nil {s : State} (hq : s.preq = []) : afterPending s = s := by
  simp only [afterPending, hq]

/-- A pending Stop is performed (R245). -/
theorem afterPending_of_stop {s : State} (hq : s.preq = [.stop]) : afterPending s = bStop s := by
  simp only [afterPending, hq]

/-- Then PREQ is empty. -/
theorem afterPending_preq {s : State} (hq : s.preq = [] ∨ s.preq = [.stop]) : (afterPending s).preq = [] := by
  rcases hq with hq | hq
  · rw [afterPending_of_nil hq, hq]
  · rw [afterPending_of_stop hq, bStop, traceAppend_preq, popRequest_preq, hq, List.tail_cons]

/-- The Start is requested, and a pending Stop performed before it (R87, R128). -/
theorem performs_start {es : List Event} {us : List MicroOp} {s t : State} (hq : s.preq = [] ∨ s.preq = [.stop])
    (rest : Performs es us { afterPending s with preq := [.start], phase := .started } t) :
    Performs ([.engine] ++ drainEvents s.preq ++ es) (.start :: us) s t := by
  have hstart : microStart s = { s with preq := s.preq ++ [.start], phase := .started } := by
    rw [microStart, enqueue_of_room]
    rcases hq with hq | hq <;> simp [hq, Config.preqCap]
  refine .effect rfl hstart ?_
  rcases hq with hq | hq
  · rw [afterPending_of_nil hq] at rest
    rw [hq]
    exact rest
  · rw [afterPending_of_stop hq] at rest
    rw [hq]
    exact .bus _ (busStep_stop rfl) rest

/-- BEGIN_SEQ, the address ACKed (R124, R141). -/
theorem performs_beginSeq (d : Dir) {s : State} (hq : s.preq = [] ∨ s.preq = [.stop]) :
    Performs (promptBegin s.preq) (beginSeq d) s (opened d (afterPending s)) := by
  refine performs_start hq (.bus _ (busStep_start rfl) (.wait rfl ?_))
  have haddr (q : State) (h : q.preq = []) : microAddr d q =
      { q with preq := [.addr (addressByte d)], startSent := false, dir := d, phase := .addressSent } := by
    rw [microAddr, enqueue_of_empty h]
  refine .effect rfl (haddr _ rfl) (.bus _ (busStep_addr true rfl) (.wait rfl (.effect rfl rfl ?_)))
  have hnil := afterPending_preq hq
  refine .nil_of_eq ?_
  simp [opened, bAddr, bStart, runMicro, microClrAddr, popRequest, traceAppend, hnil, addressByte_getElem_zero]

/-- One byte sent, nothing pending before it (R131, R145). -/
theorem performs_txSeq (b : Byte) {s : State} (hq : s.preq = []) :
    Performs promptTx (txSeq b) s { s with spin := 0, trace := s.trace ++ [.tx b] } := by
  have hempty : txEmpty s.preq = true := by rw [hq]; rfl
  refine .wait hempty (.effect rfl (enqueue_of_empty hq) (.bus _ (busStep_tx rfl) (.wait rfl (.nil_of_eq ?_))))
  simp [bTx, popRequest, traceAppend, hq]

/-- Bytes sent one after the other. -/
theorem performs_txSeqs (bs : List Byte) {s : State} (hq : s.preq = []) (hs : s.spin = 0) :
    Performs (List.replicate bs.length promptTx).flatten (bs.flatMap txSeq) s
      { s with trace := s.trace ++ bs.map .tx } := by
  induction bs generalizing s with
  | nil => exact .nil_of_eq (by simp)
  | cons b bs ih =>
    have hrest := ih (s := { s with spin := 0, trace := s.trace ++ [.tx b] }) hq rfl
    have h := (performs_txSeq b hq).append hrest
    rw [← hs] at h
    simpa [List.replicate_succ] using h

/-- The Stop requested, nothing pending before it (R132). -/
theorem performs_stop {es : List Event} {us : List MicroOp} {s t : State} (hq : s.preq = [])
    (rest : Performs es us { s with preq := [.stop], phase := .stopped } t) :
    Performs (.engine :: es) (.stop :: us) s t :=
  .effect rfl (by rw [runMicro, microStop, enqueue_of_empty hq]) rest

/-- The state once BUS has delivered a byte into DR, ACKed or not as ACK_EN says (R83, R84). -/
def delivered (v : Byte) (s : State) : State :=
  { s with dr := v, rxNotEmpty := true, rxmore := s.ackEn, trace := s.trace ++ [.rx v s.ackEn] }

/-- What a byte needs to come, DR and SHIFT being empty (R83, R84). -/
structure AwaitsByte (s : State) : Prop where
  preq : s.preq = []
  rxmode : s.rxmode = true
  rxmore : s.rxmore = true
  addrAcked : s.addrAcked = false
  rxNotEmpty : s.rxNotEmpty = false
  shift : s.shift = none

/-- One byte delivered, for both values of RX_PREFETCH, and taken by the µop `u` (R83, R84, R133, R175 to R178). -/
theorem performs_byte {u : MicroOp} {s : State} (v : Byte) (hu : u.isWait = false) (ha : AwaitsByte s) (hs : s.spin = 0) :
    Performs (promptByte s.params.rxPrefetch v) [.wait .rxNotEmpty, u] s (runMicro u (delivered v s)).1 := by
  have htake : Performs [.engine, .engine] [.wait .rxNotEmpty, u] (delivered v s) (runMicro u (delivered v s)).1 := by
    refine .wait rfl (.effect hu ?_ (.nil _))
    exact congrArg (fun q => (runMicro u q).1) (by rw [← hs]; rfl)
  cases hp : s.params.rxPrefetch with
  | false =>
    refine .bus _ (busStep_rx ((busEnabled_rx_iff v hp).mpr ?_)) htake
    exact ⟨ha.preq, ha.rxmode, ha.rxmore, ha.addrAcked, ha.rxNotEmpty⟩
  | true =>
    have hshift : busEnabled (.bShift v) s = true :=
      (busEnabled_shift_iff v hp).mpr ⟨ha.preq, ha.rxmode, ha.rxmore, ha.addrAcked, ha.shift⟩
    have hmove : busEnabled .bMove (bShift v s) = true :=
      (busEnabled_move_iff (s := bShift v s) hp).mpr ⟨Option.some_ne_none _, ha.rxNotEmpty⟩
    refine .bus _ (busStep_shift hshift) (.bus _ ((busStep_move hmove rfl).trans ?_) htake)
    simp [bMove, bShift, delivered, traceAppend, ha.shift]

/-! ### The commands -/

/-- BEGIN, WRITE and BURST are in phase when no transaction is open (R123). -/
theorem phaseFails_of_closed {s : State} (h : s.phase = .idle ∨ s.phase = .stopped) :
    (!(s.phase == .idle || s.phase == .stopped)) = false := by
  rcases h with h | h <;> rw [h] <;> rfl

/-- The pending Stop leaves the buffers, ACK_EN and the parameters alone (R85). -/
theorem afterPending_keeps (s : State) :
    (afterPending s).txbuf = s.txbuf ∧ (afterPending s).payload = s.payload ∧ (afterPending s).ackEn = s.ackEn ∧
      (afterPending s).params = s.params := by
  unfold afterPending
  split <;> exact ⟨rfl, rfl, rfl, rfl⟩

/-- Acceptance does not touch what a pending Stop does (R120, R245). -/
theorem afterPending_acceptedState {s : State} (c : Instr) (hq : s.preq = [] ∨ s.preq = [.stop]) :
    afterPending (acceptedState c s) = acceptedState c (afterPending s) := by
  rcases hq with hq | hq
  · rw [afterPending_of_nil hq, afterPending_of_nil (s := acceptedState c s) hq]
  · rw [afterPending_of_stop hq, afterPending_of_stop (s := acceptedState c s) hq]
    rfl

/-- Settles O12: BEGIN's µprogram is BEGIN_SEQ. -/
theorem beginCompletes : Obligations.BeginCompletes := by
  intro s d rest hb hp hq hin
  refine ⟨exec_of_accepted hb rfl (phaseFails_of_closed hp), ?_⟩
  have h := performs_beginSeq d (s := acceptedState (.begin d) s) hq
  rw [afterPending_acceptedState _ hq] at h
  exact h.run_accepted (c := .begin d) (by decide : 5 < 256) hin

/-- The bytes of a WRITE's µprogram are those latched into PAYLOAD, TXBUF's first `n` (R45, R120, R124). -/
theorem uprog_write_accepted {s : State} {n : Nat} (hn : n ≤ s.txbuf.length) :
    uprog (.write n) (acceptedState (.write n) s).payload = beginSeq .write ++ (s.txbuf.take n).flatMap txSeq ++ [.stop] := by
  have hbytes : (List.range n).map (payloadByte (s.txbuf.take n ++ s.payload.drop n)) = s.txbuf.take n := by
    refine List.ext_getElem (by simp [hn]) fun i h1 h2 => ?_
    have hi : i < n := by simpa using h1
    simp [payloadByte, List.getElem?_append, hi, hn]
  rw [← hbytes, List.flatMap_map]
  rfl

/-- Settles O13: BEGIN_SEQ, the bytes one by one, and the Stop, which BUS has not performed yet. -/
theorem writeCompletes : Obligations.WriteCompletes := by
  intro s n rest hb hp hq hlegal hn hlen hin
  have hr : rangeFails s.params (.write n) = false := by simpa [rangeFails] using hn
  refine ⟨exec_of_accepted hb hr (phaseFails_of_closed hp), ?_⟩
  have hbegin := performs_beginSeq .write (s := acceptedState (.write n) s) hq
  rw [afterPending_acceptedState _ hq] at hbegin
  have hnil : (opened .write (acceptedState (.write n) (afterPending s))).preq = [] := afterPending_preq hq
  have h := (hbegin.append (performs_txSeqs (s.txbuf.take n) hnil rfl)).append (performs_stop hnil (.nil _))
  rw [← uprog_write_accepted (hlen.symm ▸ hn), List.length_take, hlen, Nat.min_eq_left hn] at h
  have hlt := uprog_length_lt (acceptedState (.write n) s).payload hlegal (commandInRange_of_range hr)
  obtain ⟨htx, hpay, -⟩ := afterPending_keeps s
  refine (h.run_accepted hlt hin).trans ?_
  rw [← htx, ← hpay]
  rfl

/-- Settles O14: READB takes the byte in DR, which BUS may still have to deliver. -/
theorem readbCompletes : Obligations.ReadbCompletes := by
  intro s rest hb hp hd
  have hphase : phaseFails s .readb = false := by rw [phaseFails, hp, hd]; rfl
  refine ⟨fun hn hin => ⟨exec_of_accepted hb rfl hphase, ?there⟩,
    fun v hn hs hq hmode hmore hack hin => ⟨exec_of_accepted hb rfl hphase, ?delivered⟩⟩
  case there =>
    have h : Performs [.engine, .engine] uprogReadb (acceptedState .readb s) _ := .wait hn (.effect rfl rfl (.nil _))
    refine (h.run_accepted (c := .readb) (by decide : 2 < 256) hin).trans ?_
    rw [hb]
    rfl
  case delivered =>
    have h := performs_byte (u := .rxb) (s := acceptedState .readb s) v rfl ⟨hq, hmode, hmore, hack, hn, hs⟩ rfl
    refine (h.run_accepted (c := .readb) (by decide : 2 < 256) hin).trans ?_
    rw [hb]
    rfl

/-- Settles O15: SETACK is one µop, legal in every phase. -/
theorem setackCompletes : Obligations.SetackCompletes := by
  intro s e rest hb hin
  refine ⟨exec_of_accepted hb rfl rfl, ?_⟩
  have h : Performs [.engine] [.setAck e] (acceptedState (.setack e) s) _ := .effect rfl rfl (.nil _)
  refine (h.run_accepted (c := .setack e) (by decide : 1 < 256) hin).trans ?_
  rw [hb]
  rfl

/-- Settles O16: STOP is one µop, and BUS performs its request between commands. -/
theorem stopCompletes : Obligations.StopCompletes := by
  intro s rest hb hp hq hin
  have hphase : phaseFails s .stop = false := by rw [phaseFails, hp]; rfl
  refine ⟨exec_of_accepted hb rfl hphase, ?_, ?_⟩
  · have h : Performs [.engine] [.stop] (acceptedState .stop s) _ := performs_stop hq (.nil _)
    refine (h.run_accepted (c := .stop) (by decide : 1 < 256) hin).trans ?_
    rw [hb]
    rfl
  · have h : Performs [.engine, .bus .bStop] [.stop] (acceptedState .stop s) _ :=
      performs_stop hq (.bus _ (busStep_stop rfl) (.nil _))
    refine (h.run_accepted (c := .stop) (by decide : 1 < 256) hin).trans ?_
    rw [hb, hq]
    rfl

end Sys2Proof.Machine
end

section
/-! PROOFS. The statements of 40_engine_commands.md: BURST on a prompt schedule. -/

namespace Sys2Proof.Machine
open Host

/-! ### The receive part of a BURST -/

/-- A BURST in its receive part, whole words taken: from the data phase `s`, the bytes `rs` with their ACK bits, ACK_EN being
`e` (R175 to R178, R182, R184). -/
def received (rs : List (Byte × Bool)) (e : Bool) (s : State) : State :=
  { s with
    ackEn := e
    rxmore := e
    acc := (bigEndianWords (rs.map Prod.fst)).getLastD s.acc
    work := workOf s.params.maxWords (rs.map Prod.fst)
    widx := BitVec.ofNat 8 (rs.length / 2)
    bytes := BitVec.ofNat 8 rs.length
    dr := (rs.map Prod.fst).getLastD s.dr
    trace := s.trace ++ rs.map (fun b => .rx b.1 b.2) }

/-- While ACK_EN = 1 the next byte comes (R182). -/
theorem awaitsByte_received {s : State} (h : AwaitsByte s) (rs : List (Byte × Bool)) : AwaitsByte (received rs true s) :=
  { h with rxmore := rfl }

/-- The two bytes of a word: the first is taken into the high half with ACK_EN as `e`, the second completes the word and is
ACKed as `e` says. -/
theorem received_word {s : State} {n : Nat} {rs : List (Byte × Bool)} (e : Bool) (h l : Byte) (ha : AwaitsByte s)
    (hn : rs.length = 2 * n) (hmax : n < s.params.maxWords) (h256 : n < 256) :
    storeWord (takeToAcc (h ++ l)
      (delivered l { takeToAcc (highByte h) (delivered h (received rs true s)) with ackEn := e })) =
      received (rs ++ [(h, true), (l, e)]) e s := by
  have hlen : (rs.map Prod.fst).length = 2 * n := by rw [List.length_map, hn]
  obtain ⟨-, -, hwords⟩ := bigEndianWords_even _ n hlen
  have hhalf : rs.length / 2 = n := by omega
  have hhalf' : (rs.length + 2) / 2 = n + 1 := by omega
  simp [received, delivered, takeToAcc, storeWord, hwords, workOf_pair hlen hmax, hhalf, hhalf', Nat.mod_eq_of_lt h256,
    ha.rxNotEmpty, BitVec.ofNat_add, BitVec.add_assoc]

section
variable {s : State} {n : Nat} {rs : List (Byte × Bool)} (ha : AwaitsByte s) (hs : s.spin = 0) (hn : rs.length = 2 * n)
  (hmax : n < s.params.maxWords) (h256 : n < 256)
include ha hs hn hmax h256

/-- A word on a prompt schedule: RXHI and RXLO with ACK_EN = 1 throughout, or RXHI_NACK and RXADD, which end with ACK_EN = 0
(R172, R182). -/
theorem performs_word (e : Bool) (h l : Byte) :
    Performs (promptByte s.params.rxPrefetch h ++ promptByte s.params.rxPrefetch l) (if e then wordSeq else lastWordSeq)
      (received rs true s) (received (rs ++ [(h, true), (l, e)]) e s) := by
  have hfirst := awaitsByte_received ha rs
  have hsecond : AwaitsByte { takeToAcc (highByte h) (delivered h (received rs true s)) with ackEn := e } :=
    { ha with rxmore := rfl, rxNotEmpty := rfl }
  rw [← received_word e h l ha hn hmax h256]
  cases e with
  | true =>
    rw [← orLow_highByte]
    exact (performs_byte (u := .rxHi) h rfl hfirst hs).append (performs_byte (u := .rxLo) l rfl hsecond hs)
  | false =>
    rw [← addLow_highByte]
    exact (performs_byte (u := .rxHiNack) h rfl hfirst hs).append (performs_byte (u := .rxAdd) l rfl hsecond hs)

end

/-- The words of a BURST before the final one, every byte ACKed (R172, R182). -/
theorem performs_words {s : State} {k : Nat} {rs : List (Byte × Bool)} (n : Nat) {bs : List Byte} (ha : AwaitsByte s)
    (hs : s.spin = 0) (hk : rs.length = 2 * k) (hn : bs.length = 2 * n) (hmax : k + n < s.params.maxWords)
    (h256 : k + n < 256) :
    Performs (bs.flatMap (promptByte s.params.rxPrefetch)) (List.replicate n wordSeq).flatten (received rs true s)
      (received (rs ++ bs.map (·, true)) true s) := by
  induction n generalizing k rs bs with
  | zero =>
    obtain rfl : bs = [] := List.length_eq_zero_iff.mp hn
    exact .nil_of_eq (by simp)
  | succ n ih =>
    match bs, hn with
    | h :: l :: bs, hn =>
      have hword := performs_word ha hs hk (by omega) (by omega) true h l
      have hrest := ih (k := k + 1) (rs := rs ++ [(h, true), (l, true)]) (bs := bs)
        (by rw [List.length_append, hk]; rfl) (by simp only [List.length_cons] at hn; omega) (by omega) (by omega)
      simpa [List.replicate_succ] using hword.append hrest

/-- Every element paired with the same one. -/
theorem zip_replicate {α β : Type} (b : β) (l : List α) : l.zip (List.replicate l.length b) = l.map (·, b) := by
  induction l with
  | nil => rfl
  | cons a l ih => rw [List.length_cons, List.replicate_succ, List.zip_cons_cons, ih, List.map_cons]

/-- The bytes of a successful burst with their ACK bits: all ACKed but the last (R182). -/
theorem zip_burstAcks {n : Nat} {bs : List Byte} (h l : Byte) (hn : bs.length = 2 * n) :
    (bs ++ [h, l]).zip (burstAcks (n + 1)) = bs.map (·, true) ++ [(h, true), (l, false)] := by
  have hacks : burstAcks (n + 1) = List.replicate (2 * n) true ++ [true, false] := by
    rw [burstAcks, show 2 * (n + 1) - 1 = 2 * n + 1 by omega, List.replicate_succ', List.append_assoc]
    rfl
  rw [hacks, List.zip_append (by simp [hn]), ← hn, zip_replicate]
  rfl

/-- A list of `2·(n + 1)` bytes ends in a pair. -/
theorem exists_pair_of_length {n : Nat} {bs : List Byte} (h : bs.length = 2 * (n + 1)) :
    ∃ init b c, bs = init ++ [b, c] ∧ init.length = 2 * n := by
  obtain ⟨b, c, hbc⟩ := List.length_eq_two.mp (show (bs.drop (2 * n)).length = 2 by rw [List.length_drop]; omega)
  exact ⟨bs.take (2 * n), b, c, by rw [← hbc, List.take_append_drop], by rw [List.length_take]; omega⟩

/-- STOP, ACKON and COMMIT (R179 to R181). -/
theorem performs_commit {s : State} (hq : s.preq = []) :
    Performs [.engine, .engine, .engine] [.stop, .ackOn, .commit] s
      { s with preq := [.stop], phase := .stopped, ackEn := true, result := s.work, resultValid := true } :=
  performs_stop hq (.effect rfl rfl (.effect rfl rfl (.nil _)))

/-! ### The commands -/

/-- The state at the end of a BURST's second BEGIN_SEQ, `p` being the state with no Stop pending any more (R173, R174). -/
def readOpened (reg : Byte) (p : State) : State :=
  { p with
    phase := .transferring
    dir := .read
    spin := 0
    startSent := false
    addrAcked := false
    rxNotEmpty := false
    preq := []
    rxmode := true
    rxmore := true
    shift := none
    trace := p.trace
      ++ [.start, .addr (addressByte .write) true, .tx reg, .stop, .start, .addr (addressByte .read) true] }

/-- The first two steps of a BURST: the register byte written, and the read transaction opened (R173, R174). -/
theorem performs_burstOpening (reg : Byte) {s : State} (hq : s.preq = [] ∨ s.preq = [.stop]) :
    Performs (promptBegin s.preq ++ promptTx ++ [.engine] ++ promptBegin [.stop]) (burstOpening reg) s
      (readOpened reg (afterPending s)) := by
  have hnil : (opened .write (afterPending s)).preq = [] := afterPending_preq hq
  have hwrite := ((performs_beginSeq .write hq).append (performs_txSeq reg hnil)).append (performs_stop hnil (.nil _))
  refine hwrite.append ?_
  generalize afterPending s = p
  have hread := performs_beginSeq .read
    (s := { opened .write p with preq := [.stop], phase := .stopped, trace := (opened .write p).trace ++ [.tx reg] })
    (.inr rfl)
  rw [afterPending_of_stop rfl] at hread
  refine (congrArg (Performs _ _ _) ?_).mp hread
  simp [readOpened, opened, bStop, traceAppend, popRequest, Dir.bit]

/-- A BURST before its first byte: everything its receive part counts from was cleared at acceptance (R120). -/
theorem received_nil {reg : Byte} {wc : Nat} {p : State} (hack : p.ackEn = true) :
    received [] true (readOpened reg (acceptedState (.burst reg wc) p)) = readOpened reg (acceptedState (.burst reg wc) p) := by
  simp [received, readOpened, acceptedState, workOf, bigEndianWords, hack]

/-- The receive part of a BURST of `n + 1` words: every byte but the last ACKed, and the words published (R172, R182). -/
theorem performs_burstReceive {s : State} {n : Nat} {bs : List Byte} (ha : AwaitsByte s) (hs : s.spin = 0)
    (hlen : bs.length = 2 * (n + 1)) (hmax : n < s.params.maxWords) (h256 : n < 256) :
    Performs (bs.flatMap (promptByte s.params.rxPrefetch) ++ [.engine, .engine, .engine]) (burstReceive n)
      (received [] true s)
      { received (bs.zip (burstAcks (n + 1))) false s with
        preq := [.stop]
        phase := .stopped
        ackEn := true
        result := (received (bs.zip (burstAcks (n + 1))) false s).work
        resultValid := true } := by
  obtain ⟨init, h, l, rfl, hinit⟩ := exists_pair_of_length hlen
  rw [zip_burstAcks h l hinit]
  have hacked : (init.map (·, true)).length = 2 * n := by rw [List.length_map, hinit]
  have hwords := performs_words (k := 0) (rs := []) n ha hs rfl hinit (by omega) (by omega)
  have hlast := (performs_word ha hs hacked hmax h256 false h l).append (performs_commit ha.preq)
  simpa [burstReceive] using hwords.append hlast

/-- All of a BURST of `n + 1` words, whose counters and WORK are cleared (R172). -/
theorem performs_burst (reg : Byte) {s : State} {n : Nat} {bs : List Byte} (hq : s.preq = [] ∨ s.preq = [.stop])
    (hclear : received [] true (readOpened reg (afterPending s)) = readOpened reg (afterPending s))
    (hlen : bs.length = 2 * (n + 1)) (hmax : n < s.params.maxWords) (h256 : n < 256) :
    Performs (promptBurst s.preq s.params.rxPrefetch bs) (uprogBurst reg (n + 1)) s
      { received (bs.zip (burstAcks (n + 1))) false (readOpened reg (afterPending s)) with
        preq := [.stop]
        phase := .stopped
        ackEn := true
        result := (received (bs.zip (burstAcks (n + 1))) false (readOpened reg (afterPending s))).work
        resultValid := true } := by
  obtain ⟨-, -, -, hparams⟩ := afterPending_keeps s
  have hreceive := performs_burstReceive (s := readOpened reg (afterPending s)) ⟨rfl, rfl, rfl, rfl, rfl, rfl⟩ rfl hlen
    (hparams.symm ▸ hmax) h256
  rw [hclear] at hreceive
  rw [uprogBurst_eq, promptBurst, List.append_assoc _ (bs.flatMap _), ← hparams]
  exact (performs_burstOpening reg hq).append hreceive

/-- Settles O17: the opening, the words one by one, and the publication. -/
theorem burstCompletes : Obligations.BurstCompletes := by
  intro s reg wc bs rest hb hp hq hlegal h2 hmax hack hlen hin
  have hr : rangeFails s.params (.burst reg wc) = false := by simp [rangeFails]; omega
  have hlt := uprog_length_lt (acceptedState (.burst reg wc) s).payload hlegal (commandInRange_of_range hr)
  refine ⟨exec_of_accepted hb hr (phaseFails_of_closed hp), ?_⟩
  obtain ⟨n, rfl⟩ := Nat.exists_eq_add_of_le' (Nat.le_of_succ_le h2)
  obtain ⟨-, -, hack', hparams⟩ := afterPending_keeps s
  have hpend := afterPending_acceptedState (.burst reg (n + 1)) hq
  have h256 : n < 256 := by
    have hshape := (uprogBurst_shape reg (Nat.le_add_left 1 n)).1
    rw [uprog] at hlt
    omega
  have h := performs_burst reg (s := acceptedState (.burst reg (n + 1)) s) hq (hpend.symm ▸ received_nil (hack'.trans hack))
    hlen hmax h256
  refine (h.run_accepted (c := .burst reg (n + 1)) hlt hin).trans ?_
  rw [hpend]
  have hbytes : (bs.zip (burstAcks (n + 1))).map Prod.fst = bs := List.map_fst_zip (by simp [burstAcks, hlen]; omega)
  have hcount : (bs.zip (burstAcks (n + 1))).length = 2 * (n + 1) := by
    rw [← hlen, ← congrArg List.length hbytes, List.length_map]
  have hlast := List.getLast?_eq_some_getLast (List.ne_nil_of_length_pos (show 0 < bs.length by omega))
  simp [received, readOpened, acceptedState, hbytes, hcount, hparams, hlast]

end Sys2Proof.Machine
end

section
/-! PROOFS. The statements of 40_engine_commands.md: the race of a host-driven read. -/

namespace Sys2Proof.Machine
open Host

/-- HOST's CMD write of a command, and the run of the command it accepts (R120, R124). -/
theorem run_command {c : Instr} {s t : State} {es : List Event} {k j : Nat} (hwf : c.wellFormed = true) (hb : s.busy = false)
    (hin : s.inputs = .host (cmdWrite (encode c)) :: es)
    (h : exec c (s.withInputs es) = .next (acceptedState c (s.withInputs es)) ∧
      run k (acceptedState c (s.withInputs es)) = .next t) : run (j + (k + 1)) s = run j t := by
  obtain ⟨hexec, hrun⟩ := h
  have hstep := stepRunsThePresentedCommand s (encode c) c es hb (decodeOfEncodeIsIdentity c hwf) hin
  rw [← Nat.add_assoc, run_succ_of_next (hstep.trans hexec), Nat.add_comm j k, run_add hrun]

/-- What the end of any accepted command leaves in the sequencer and the outcome fields, the steps `es` being still to come. -/
def settled (es : List Event) (s : State) : State :=
  { s with err := .none, cmdOvr := false, tmoWhere := none, cur := none, mpc := 0, spin := 0, inputs := es }

/-- Between commands in the data phase of a read, with RX_PREFETCH = false: what HOST's commands and BUS leave as it is until
the Stop. -/
structure HostReading (s : State) : Prop where
  busy : s.busy = false
  phase : s.phase = .transferring
  dir : s.dir = .read
  preq : s.preq = []
  rxmode : s.rxmode = true
  addrAcked : s.addrAcked = false
  shift : s.shift = none
  noPrefetch : s.params.rxPrefetch = false

/-- The invariant gives it for a read whose last byte was ACKed (R54, R83). -/
theorem hostReading_of_inv {s : State} (hi : s.inv = true) (hb : s.busy = false) (ht : s.phase = .transferring)
    (hd : s.dir = .read) (hp : s.params.rxPrefetch = false) (hmore : s.rxmore = true) : HostReading s := by
  obtain ⟨-, hl, -, -, ⟨hb', -⟩ | ⟨-, hrest, -⟩⟩ := (inv_iff s).mp hi
  · cases hb.symm.trans hb'
  · have htrans : transferringOk s = true := by
      rcases (restOk_iff s).mp hrest with ⟨hc, -⟩ | h
      · rcases (phaseClosed_iff s).mp hc with hc | hc <;> cases ht.symm.trans hc
      · exact h
    obtain ⟨-, hq, -, hack⟩ := (transferringOk_iff s).mp htrans
    obtain ⟨-, hmode, hmore', -⟩ := (linkOk_iff s).mp hl
    exact ⟨hb, ht, hd, hq, hmode.mpr (.inl (hmore'.mp hmore)), hack, shift_of_noPrefetch hl hp, hp⟩

namespace HostReading

section
variable {s : State} {es : List Event} (h : HostReading s)
include h

theorem rx (v : Byte) : HostReading (bRx v (s.withInputs es)) := { h with }

theorem setack (e : Bool) : HostReading (settled es (microSetAck e s)) := { h with }

theorem readb : HostReading (settled es (microRxb s)) := { h with }

variable {j : Nat}

/-- B_RX, where the byte before it was ACKed and taken (R83). -/
theorem run_rx {v : Byte} (hmore : s.rxmore = true) (hn : s.rxNotEmpty = false) (hin : s.inputs = .bus (.bRx v) :: es) :
    run (j + 1) s = run j (bRx v (s.withInputs es)) := by
  have hen : busEnabled (.bRx v) (s.withInputs es) = true :=
    (busEnabled_rx_iff v h.noPrefetch).mpr ⟨h.preq, h.rxmode, hmore, h.addrAcked, hn⟩
  rw [run_succ_of_next (step_of_cons hin)]
  exact congrArg (run j) (busStep_rx hen)

/-- SETACK, from its CMD write to its end (R155). -/
theorem run_setack {e : Bool} (hin : s.inputs = .host (cmdWrite (encode (.setack e))) :: .engine :: es) :
    run (j + 2) s = run j (settled es (microSetAck e s)) :=
  run_command rfl h.busy hin (setackCompletes (s.withInputs (.engine :: es)) e es h.busy rfl)

/-- READB with a byte in DR, from its CMD write to its end (R150). -/
theorem run_readb (hn : s.rxNotEmpty = true) (hin : s.inputs = .host (cmdWrite (encode .readb)) :: .engine :: .engine :: es) :
    run (j + 3) s = run j (settled es (microRxb s)) := by
  obtain ⟨hc, -⟩ := readbCompletes (s.withInputs (.engine :: .engine :: es)) es h.busy h.phase h.dir
  exact run_command rfl h.busy hin (hc hn rfl)

/-- STOP, from its CMD write to the stop condition on the bus (R160). -/
theorem run_stop (hin : s.inputs = .host (cmdWrite (encode .stop)) :: .engine :: .bus .bStop :: es) :
    run (j + 3) s = run j (settled es { bStop s with preq := s.preq, phase := .stopped }) := by
  obtain ⟨hexec, -, hrun⟩ := stopCompletes (s.withInputs (.engine :: .bus .bStop :: es)) es h.busy h.phase h.preq rfl
  rw [run_command rfl h.busy hin ⟨hexec, hrun⟩]
  rfl

end

end HostReading

/-- Settles O55: the byte comes after SETACK 0 has run, and is NACKed, or before it, and is ACKed, so that one more comes. -/
theorem hostDrivenReadRace : Obligations.HostDrivenReadRace := by
  intro s v w rest hi hb ht hd hp hack hmore hn
  have h := hostReading_of_inv hi hb ht hd hp hmore
  refine ⟨fun hin => ?late, fun hin => ?early⟩
  case late =>
    have hrun := calc run 9 s
      _ = run 7 _ := h.run_setack hin
      _ = run 6 _ := (h.setack false).run_rx (v := v) hmore hn rfl
      _ = run 3 _ := ((h.setack false).rx v).run_readb rfl rfl
      _ = run 0 _ := ((h.setack false).rx v).readb.run_stop rfl
    exact ⟨_, hrun, rfl, rfl, rfl, List.append_assoc ..⟩
  case early =>
    have hrun := calc run 10 s
      _ = run 9 _ := h.run_rx hmore hn hin
      _ = run 7 _ := (h.rx v).run_setack (e := false) rfl
      _ = run 4 _ := ((h.rx v).setack false).run_readb rfl rfl
      _ = run 3 _ := ((h.rx v).setack false).readb.run_rx (v := w) hack rfl rfl
      _ = run 0 _ := (((h.rx v).setack false).readb.rx w).run_stop rfl
    refine ⟨_, hrun, rfl, rfl, rfl, ?_⟩
    simp [settled, bStop, bRx, microRxb, microSetAck, hack]

end Sys2Proof.Machine
end

section
/-! PROOFS. The statements of 41_burst_read.md: the final word, and the bytes that come one ahead of the engine. -/

namespace Sys2Proof.Machine
open Host

/-- Settles O23: the low half of `highByte h` is 0, so adding the low byte and OR-ing it both put it beside `h`. -/
theorem lastWordPathIsBigEndian : Obligations.LastWordPathIsBigEndian :=
  ⟨fun h l => ⟨addLow_highByte h l, orLow_highByte h l⟩, by decide, by decide⟩

/-! ### Bytes shifted in as early as BUS can (R84, R187) -/

/-- With RX_PREFETCH = true, DR is empty and the byte `v` stands in SHIFT, ACKed, so that one more can come once it has moved
(R84). -/
structure HoldsAhead (v : Byte) (s : State) : Prop where
  prefetch : s.params.rxPrefetch = true
  preq : s.preq = []
  rxmode : s.rxmode = true
  rxmore : s.rxmore = true
  addrAcked : s.addrAcked = false
  rxNotEmpty : s.rxNotEmpty = false
  shift : s.shift = some (v, true)

/-- The byte in SHIFT moves to DR, the next one is shifted in behind it under the old ACK_EN, and only then µop `u` takes the
one in DR (R84, R187). -/
theorem performs_byteAhead {u : MicroOp} {s : State} {v : Byte} (w : Byte) (hu : u.isWait = false) (h : HoldsAhead v s)
    (hs : s.spin = 0) :
    Performs [.bus .bMove, .bus (.bShift w), .engine, .engine] [.wait .rxNotEmpty, u] s
      (runMicro u (bShift w (bMove v s))).1 := by
  have hmove : busEnabled .bMove s = true :=
    (busEnabled_move_iff h.prefetch).mpr ⟨h.shift.symm ▸ Option.some_ne_none _, h.rxNotEmpty⟩
  have hshift : busEnabled (.bShift w) (bMove v s) = true :=
    (busEnabled_shift_iff (s := bMove v s) w h.prefetch).mpr ⟨h.preq, h.rxmode, h.rxmore, h.addrAcked, rfl⟩
  refine .bus _ (busStep_move hmove h.shift) (.bus _ (busStep_shift hshift) (.wait rfl (.effect hu ?_ (.nil _))))
  exact congrArg (fun q => (runMicro u q).1) (by rw [← hs]; rfl)

/-- The state after a word `h`, `l` whose bytes were taken one behind the bus: the byte `x` after them stands in SHIFT, its
ACK being `e`, the ACK_EN that the word's first µop left. -/
def wordAhead (e : Bool) (h l x : Byte) (s : State) : State :=
  { s with
    ackEn := e
    rxmore := e
    acc := h ++ l
    bytes := s.bytes + 2
    work := s.work.set s.widx.toNat (h ++ l)
    widx := s.widx + 1
    dr := l
    shift := some (x, e)
    trace := s.trace ++ [.rx l true, .rx x e] }

/-- A word taken one byte behind the bus: ACK_EN = 0 comes when the word's last byte has been ACKed already (R187). -/
theorem performs_wordAhead (e : Bool) {h : Byte} (l x : Byte) {s : State} (ha : HoldsAhead h s) (hack : s.ackEn = true)
    (hs : s.spin = 0) :
    Performs [.bus .bMove, .bus (.bShift l), .engine, .engine, .bus .bMove, .bus (.bShift x), .engine, .engine]
      (if e then wordSeq else lastWordSeq) s (wordAhead e h l x s) := by
  have hnext : HoldsAhead l { takeToAcc (highByte h) (bShift l (bMove h s)) with ackEn := e } :=
    { ha with rxmore := hack, rxNotEmpty := rfl, shift := by simp [takeToAcc, bShift, bMove, traceAppend, hack] }
  have hword : storeWord (takeToAcc (h ++ l)
      (bShift x (bMove l { takeToAcc (highByte h) (bShift l (bMove h s)) with ackEn := e }))) = wordAhead e h l x s := by
    simp [wordAhead, storeWord, takeToAcc, bShift, bMove, traceAppend, ha.rxNotEmpty, hack, BitVec.add_assoc]
  rw [← hword]
  cases e with
  | true =>
    rw [← orLow_highByte]
    have hfirst := performs_byteAhead (u := .rxHi) l rfl ha hs
    have hkept : (runMicro .rxHi (bShift l (bMove h s))).1 =
        { takeToAcc (highByte h) (bShift l (bMove h s)) with ackEn := true } := by rw [← hack]; rfl
    exact (hkept ▸ hfirst).append (performs_byteAhead (u := .rxLo) x rfl hnext hs)
  | false =>
    rw [← addLow_highByte]
    exact (performs_byteAhead (u := .rxHiNack) l rfl ha hs).append (performs_byteAhead (u := .rxAdd) x rfl hnext hs)

/-- The state at the end of a BURST of 2 words whose bytes were shifted in as early as they can be, from its data phase `s`, the
final Stop performed (R187, R250). -/
def readAhead (b1 b2 b3 b4 b5 : Byte) (s : State) : State :=
  let t := wordAhead false b3 b4 b5 (wordAhead true b1 b2 b3 (bShift b1 s))
  bStop { t with preq := [.stop], phase := .stopped, ackEn := true, result := t.work, resultValid := true }

/-- The receive part of a BURST of 2 words with every byte shifted in as early as it can be: byte 4 is ACKed, and byte 5 comes,
NACKed (R187, R250). -/
theorem performs_earlyShifts (b1 b2 b3 b4 b5 : Byte) {s : State} (ha : AwaitsByte s) (hp : s.params.rxPrefetch = true)
    (hack : s.ackEn = true) (hs : s.spin = 0) :
    Performs (earlyShifts b1 b2 b3 b4 b5) (burstReceive 1) s (readAhead b1 b2 b3 b4 b5 s) := by
  have hshift : busEnabled (.bShift b1) s = true :=
    (busEnabled_shift_iff b1 hp).mpr ⟨ha.preq, ha.rxmode, ha.rxmore, ha.addrAcked, ha.shift⟩
  have hfirst : HoldsAhead b1 (bShift b1 s) :=
    { ha with prefetch := hp, rxmore := hack, shift := congrArg (fun a => some (b1, a)) hack }
  have hsecond : HoldsAhead b3 (wordAhead true b1 b2 b3 (bShift b1 s)) := { hfirst with rxmore := rfl, shift := rfl }
  have hwords := (performs_wordAhead true b2 b3 hfirst hack hs).append (performs_wordAhead false b4 b5 hsecond rfl hs)
  refine .bus _ (busStep_shift hshift) (hwords.append (performs_stop hsecond.preq ?_))
  exact .effect rfl rfl (.effect rfl rfl (.bus _ (busStep_stop rfl) (.nil _)))

/-- RESULT is that of the first four bytes (R187). -/
theorem readAhead_result (b1 b2 b3 b4 b5 : Byte) (s : State) :
    (readAhead b1 b2 b3 b4 b5 s).result = (s.work.set s.widx.toNat (b1 ++ b2)).set (s.widx + 1).toNat (b3 ++ b4) := rfl

/-- Five bytes come, the fourth still ACKed (R187). -/
theorem readAhead_trace (b1 b2 b3 b4 b5 : Byte) {s : State} (hack : s.ackEn = true) :
    (readAhead b1 b2 b3 b4 b5 s).trace =
      s.trace ++ [.rx b1 true, .rx b2 true, .rx b3 true, .rx b4 true, .rx b5 false, .stop] := by
  simp [readAhead, bStop, wordAhead, bShift, hack]

/-- An accepted BURST performs its opening, after the Stop still pending (R173, R174, R245). -/
theorem performs_acceptedOpening (reg : Byte) (wc : Nat) {s : State} (hq : s.preq = [] ∨ s.preq = [.stop]) :
    Performs (promptBegin s.preq ++ promptTx ++ [.engine] ++ promptBegin [.stop]) (burstOpening reg)
      (acceptedState (.burst reg wc) s) (readOpened reg (acceptedState (.burst reg wc) (afterPending s))) := by
  rw [← afterPending_acceptedState _ hq]
  exact performs_burstOpening reg (s := acceptedState (.burst reg wc) s) hq

/-- Its first byte can come then. -/
theorem awaitsByte_readOpened (reg : Byte) (s : State) : AwaitsByte (readOpened reg s) := ⟨rfl, rfl, rfl, rfl, rfl, rfl⟩

/-- Settles O54: the opening, then the two words taken one byte behind the bus. -/
theorem prefetchAcksTheLastByte : Obligations.PrefetchAcksTheLastByte := by
  intro s reg b1 b2 b3 b4 b5 rest hb hp hq hlegal hpre hack hin
  obtain ⟨-, -, hack', hparams⟩ := afterPending_keeps s
  have hopen : (readOpened reg (acceptedState (.burst reg 2) (afterPending s))).ackEn = true := hack'.trans hack
  have h := (performs_acceptedOpening reg 2 hq).append
    (performs_earlyShifts b1 b2 b3 b4 b5 (awaitsByte_readOpened reg _) (hparams.symm ▸ hpre) hopen rfl)
  have hrun := h.run_accepted (c := .burst reg 2) (by decide : 25 < 256) hin
  refine ⟨_, _, hrun, rfl, rfl, rfl, rfl, rfl, rfl, ?result, ?trace⟩
  case result =>
    obtain ⟨n, hn⟩ : ∃ n, s.params.maxWords = n + 2 :=
      Nat.exists_eq_add_of_le' (by simp [Params.legal] at hlegal; omega)
    rw [readAhead_result]
    simp [readOpened, acceptedState, hparams, hn, List.replicate_succ]
  case trace =>
    rw [readAhead_trace _ _ _ _ _ hopen]
    exact List.append_assoc ..

end Sys2Proof.Machine
end

section
/-! PROOFS. The statements of 41_burst_read.md: a wait that times out, and a BURST begun with ACK_EN = 0. -/

namespace Sys2Proof.Machine
open Host

/-! ### A wait that times out (R206, R207) -/

/-- One poll of a wait whose flag is 0, ENGINE's step being the next one scheduled (R127). -/
theorem step_of_failedPoll {s : State} {f : WaitFlag} {es : List Event} {n : Half} (hb : s.busy = true)
    (hu : currentMicro s = some (.wait f)) (hf : flagValue f s = false) (hin : s.inputs = .engine :: es)
    (hn : spinAfterFail s.spin = n) :
    step s = .next (if timesOut s.limit n then abort f { s with spin := n, inputs := es }
      else { s with spin := n, inputs := es }) := by
  subst hn
  exact (step_of_cons hin).trans (engineStep_of_failedPoll (s := s.withInputs es) hb hu hf)

/-- Below LIMIT a failed poll counts up without saturating (R43). -/
theorem spinAfterFail_of_lt {spin limit : Half} (h : spin.toNat < limit.toNat) :
    (spinAfterFail spin).toNat = spin.toNat + 1 := by
  rw [spinAfterFail_toNat]
  omega

/-- A wait whose flag stays 0 aborts the command at the poll that makes SPIN equal to LIMIT, and not before (R206). -/
theorem run_of_timeout {f : WaitFlag} {es : List Event} (n : Nat) {s : State} (hb : s.busy = true)
    (hu : currentMicro s = some (.wait f)) (hf : flagValue f s = false) (hn : s.limit.toNat = s.spin.toNat + (n + 1))
    (hin : s.inputs = List.replicate (n + 1) .engine ++ es) :
    run (n + 1) s = .next (abort f { s with spin := s.limit, inputs := es }) := by
  induction n generalizing s with
  | zero =>
    have hlt : s.spin.toNat < s.limit.toNat := by omega
    have hlast : spinAfterFail s.spin = s.limit :=
      BitVec.eq_of_toNat_eq ((spinAfterFail_of_lt hlt).trans hn.symm)
    have ht : timesOut s.limit s.limit = true := (timesOut_iff ..).mpr ⟨fun h => by simp [h] at hn, le_rfl⟩
    rw [run_succ_of_next (step_of_failedPoll hb hu hf hin hlast), if_pos ht]
    rfl
  | succ n ih =>
    have hcount := spinAfterFail_of_lt (show s.spin.toNat < s.limit.toNat by omega)
    have hmore : s.limit.toNat = (spinAfterFail s.spin).toNat + (n + 1) := by omega
    have ht : ¬ timesOut s.limit (spinAfterFail s.spin) = true := by
      rw [timesOut_iff]
      omega
    rw [run_succ_of_next (step_of_failedPoll hb hu hf hin rfl), if_neg ht]
    exact ih hb hu hf hmore rfl

/-! ### A BURST begun with ACK_EN = 0 (R188) -/

/-- With PREQ empty the abort requests one Stop (R207). -/
theorem abort_preq_of_empty {f : WaitFlag} {s : State} (h : s.preq = []) : (abort f s).preq = [.stop] := by
  have hflush : (flushRequests s).preq = [] := by rw [flushRequests, h, List.filter_nil]
  rw [abort_preq, stopIfStarted_of_started (h ▸ List.not_mem_nil), enqueue_of_empty hflush]

/-- An accepted command whose schedule performs the first µops of its µprogram runs up to the µop behind them. -/
theorem Performs.run_accepted_part {es rest : List Event} {us vs : List MicroOp} {c : Instr} {s t : State}
    (h : Performs es us (acceptedState c s) t) (hat : uprog c (acceptedState c s).payload = us ++ vs)
    (hlen : (uprog c (acceptedState c s).payload).length < 256) (hin : s.inputs = es ++ rest) :
    Machine.run es.length (acceptedState c s) = .next (t.seat c us.length rest) := by
  have hseat : acceptedState c s = (acceptedState c s).seat c 0 (es ++ rest) := by
    rw [seat_of_lt (uprog_length_pos c _), ← hin]
    rfl
  have hrun := h.run (c := c) (i := 0) (vs := vs) rest hlen hat
  rwa [← hseat, Nat.zero_add] at hrun

/-- The sequencer stands at the µop of its position (R125). -/
theorem currentMicro_withSequencer {c : Instr} {i : Nat} {es : List Event} {s : State} {u : MicroOp}
    (hlen : (uprog c s.payload).length < 256) (hu : (uprog c s.payload)[i]? = some u) :
    currentMicro (s.withSequencer true (some c) (BitVec.ofNat 8 i) es) = some u := by
  obtain ⟨hi, -⟩ := List.getElem?_eq_some_iff.mp hu
  have hmpc : (BitVec.ofNat 8 i).toNat = i := by simp; omega
  rw [← hu]
  exact congrArg (fun n => (uprog c s.payload)[n]?) hmpc

/-- An accepted command whose schedule performs its µops up to a WAIT, the flag staying 0 from there on, is aborted after LIMIT
polls (R206). -/
theorem Performs.run_timeout {es rest : List Event} {us vs : List MicroOp} {f : WaitFlag} {c : Instr} {s t : State}
    (h : Performs es us (acceptedState c s) t) (hat : uprog c (acceptedState c s).payload = us ++ .wait f :: vs)
    (hlen : (uprog c (acceptedState c s).payload).length < 256) (hf : flagValue f t = false) (hs : t.spin = 0)
    (h0 : t.limit ≠ 0) (hin : s.inputs = es ++ List.replicate t.limit.toNat .engine ++ rest) :
    Machine.run (es.length + t.limit.toNat) (acceptedState c s) =
      .next (abort f ({ t with spin := t.limit }.withSequencer true (some c) (BitVec.ofNat 8 us.length) rest)) := by
  have hu : (uprog c t.payload)[us.length]? = some (.wait f) := by
    rw [h.payload, hat, List.getElem?_append_right le_rfl, Nat.sub_self]
    rfl
  obtain ⟨n, hn⟩ : ∃ n, t.limit.toNat = n + 1 :=
    Nat.exists_eq_succ_of_ne_zero fun hz => h0 (BitVec.eq_of_toNat_eq hz)
  rw [← h.payload] at hlen
  rw [List.append_assoc] at hin
  rw [run_add (h.run_accepted_part hat (h.payload ▸ hlen) hin), seat_of_lt (List.getElem?_eq_some_iff.mp hu).1, hn]
  have hcount : t.limit.toNat = t.spin.toNat + (n + 1) := by rw [hs, hn]; exact (Nat.zero_add _).symm
  exact run_of_timeout n rfl (currentMicro_withSequencer hlen hu) ((flagValue_withSequencer ..).trans hf) hcount rfl

/-- The µprogram of a BURST of at least two words, split at the wait for its second byte (R172). -/
theorem uprogBurst_firstByte (reg : Byte) {wc : Nat} (h2 : 2 ≤ wc) :
    ∃ vs, uprogBurst reg wc = (burstOpening reg ++ [.wait .rxNotEmpty, .rxHi]) ++ .wait .rxNotEmpty :: vs := by
  obtain ⟨n, rfl⟩ := Nat.exists_eq_add_of_le' h2
  refine ⟨.rxLo :: burstReceive n, ?_⟩
  rw [uprogBurst_eq, show n + 2 - 1 = n + 1 from rfl, burstReceive_succ, List.append_assoc]
  rfl

/-- The byte's ACK on the bus is ACK_EN (R83, R84). -/
theorem delivered_trace_of_ackEn (v : Byte) {s : State} {a : Bool} (h : s.ackEn = a) :
    (delivered v s).trace = s.trace ++ [.rx v a] := by
  rw [delivered, h]

/-- The pending Stop leaves TIMEOUT and RESULT alone (R85). -/
theorem afterPending_limit_result (s : State) : (afterPending s).limit = s.limit ∧ (afterPending s).result = s.result := by
  unfold afterPending
  split <;> exact ⟨rfl, rfl⟩

/-- Settles O53: the first byte is taken, and no second one comes, so that its wait is polled until it times out. -/
theorem burstWithAckDisabledTimesOut : Obligations.BurstWithAckDisabledTimesOut := by
  intro s reg wc v rest hb hp hq hlegal h2 hmax hack h0 hin
  have hr : rangeFails s.params (.burst reg wc) = false := by simp [rangeFails]; omega
  have hlt := uprog_length_lt (acceptedState (.burst reg wc) s).payload hlegal (commandInRange_of_range hr)
  obtain ⟨-, -, hack', hparams⟩ := afterPending_keeps s
  obtain ⟨hlimit, hresult⟩ := afterPending_limit_result s
  have hnack : (readOpened reg (acceptedState (.burst reg wc) (afterPending s))).ackEn = false := hack'.trans hack
  obtain ⟨vs, hat⟩ := uprogBurst_firstByte reg h2
  have h := (performs_acceptedOpening reg wc hq).append
    (performs_byte (u := .rxHi) v rfl (awaitsByte_readOpened reg _) rfl)
  rw [← hparams, ← hlimit] at hin
  have hrun := h.run_timeout (c := .burst reg wc) hat hlt rfl rfl (hlimit ▸ h0) hin
  refine ⟨_, _, hrun, ?inputs, rfl, rfl, rfl, rfl, ?bytes, ?valid, ?result, ?preq, rfl, ?trace⟩
  case inputs => exact abort_inputs ..
  case bytes => exact abort_bytes ..
  case valid => exact abort_resultValid ..
  case result => exact (abort_result ..).trans hresult
  case preq => exact abort_preq_of_empty rfl
  case trace => exact (abort_trace ..).trans ((delivered_trace_of_ackEn v hnack).trans (List.append_assoc ..))

end Sys2Proof.Machine
end

section
/-! PROOFS. The statements of 60_exceptions.md: a wait that times out or hangs, and what the abort does and leaves. -/

namespace Sys2Proof.Machine
open Host

/-! ### A failed poll (R127, R206) -/

section
variable {s : State} {f : WaitFlag} (hb : s.busy = true) (hu : currentMicro s = some (.wait f)) (hf : flagValue f s = false)
include hb hu hf

/-- A failed poll below the limit, or without one, only counts (R127). -/
theorem engineStep_of_stay (ht : timesOut s.limit (spinAfterFail s.spin) = false) :
    engineStep s = .next { s with spin := spinAfterFail s.spin } := by
  rw [engineStep_of_failedPoll hb hu hf, ht]
  rfl

/-- The failed poll that reaches the limit aborts the command (R206). -/
theorem engineStep_of_timeout (ht : timesOut s.limit (spinAfterFail s.spin) = true) :
    engineStep s = .next (abort f { s with spin := spinAfterFail s.spin }) := by
  rw [engineStep_of_failedPoll hb hu hf, ht]
  rfl

end

/-- A failed poll adds 1 to a count below 0xFFFF (R43). -/
theorem spinAfterFail_ofNat {k : Nat} (hk : k < 0xFFFF) : spinAfterFail (BitVec.ofNat 16 k) = BitVec.ofNat 16 (k + 1) := by
  apply BitVec.eq_of_toNat_eq
  rw [spinAfterFail_toNat, BitVec.toNat_ofNat, BitVec.toNat_ofNat]
  omega

/-- After `k + 1` failed polls a wait times out exactly when LIMIT is not above `k + 1` (R206). -/
theorem timesOut_afterPolls {limit : Half} {k : Nat} (hk : k < limit.toNat) :
    timesOut limit (spinAfterFail (BitVec.ofNat 16 k)) = true ↔ limit.toNat ≤ k + 1 := by
  have hlimit := limit.isLt
  have h0 : limit ≠ 0 := by
    rintro rfl
    exact Nat.not_lt_zero k hk
  rw [timesOut_iff, spinAfterFail_ofNat (by omega), BitVec.toNat_ofNat, Nat.mod_eq_of_lt (by omega)]
  exact and_iff_right h0

/-! ### A wait in the run of an empty schedule (R206; log 2) -/

/-- With no event left, the step after a run is ENGINE's (log 2). -/
theorem run_succ_of_unscheduled {k : Nat} {s t : State} (h : run k s = .next t) (hin : t.inputs = []) :
    run (k + 1) s = engineStep t := by
  rw [run_add h, run_one, step_of_nil hin]

/-- Below LIMIT, `k` failed polls leave SPIN at `k` and change nothing else. -/
theorem run_of_failedPolls {s : State} {f : WaitFlag} (hb : s.busy = true) (hu : currentMicro s = some (.wait f))
    (hf : flagValue f s = false) (hs : s.spin = 0) (hin : s.inputs = []) {k : Nat} (hk : k < s.limit.toNat) :
    run k s = .next { s with spin := BitVec.ofNat 16 k } := by
  induction k with
  | zero =>
    change Outcome.next s = .next { s with spin := (0 : Half) }
    rw [← hs]
  | succ k ih =>
    have hlimit := s.limit.isLt
    have hlt : k < s.limit.toNat := by omega
    have ht : timesOut s.limit (spinAfterFail (BitVec.ofNat 16 k)) = false := by
      rw [← Bool.not_eq_true, timesOut_afterPolls hlt]
      omega
    rw [run_succ_of_unscheduled (ih hlt) hin,
      engineStep_of_stay (s := { s with spin := BitVec.ofNat 16 k }) hb hu hf ht, spinAfterFail_ofNat (by omega)]

/-- Settles O25: LIMIT − 1 failed polls only count, and the next one reaches LIMIT and aborts. -/
theorem waitTimesOutAtItsLimit : Obligations.WaitTimesOutAtItsLimit := by
  intro s f hb hu hf hs h0 hin
  refine ⟨fun k hk => run_of_failedPolls hb hu hf hs hin hk, ?_⟩
  obtain ⟨n, hn⟩ : ∃ n, s.limit.toNat = n + 1 :=
    Nat.exists_eq_succ_of_ne_zero fun hz => h0 (BitVec.eq_of_toNat_eq hz)
  have hlt : n < s.limit.toNat := by omega
  have ht := (timesOut_afterPolls hlt).mpr (by omega)
  rw [hn, run_succ_of_unscheduled (run_of_failedPolls hb hu hf hs hin hlt) hin,
    engineStep_of_timeout (s := { s with spin := BitVec.ofNat 16 n }) hb hu hf ht]
  exact ⟨_, rfl, rfl, rfl, rfl, rfl⟩

/-! ### A wait without a limit (R210) -/

/-- BUSY, the command, its position and payload, and LIMIT are the same. -/
structure SamePosition (s t : State) : Prop where
  busy : t.busy = s.busy
  limit : t.limit = s.limit
  cur : t.cur = s.cur
  mpc : t.mpc = s.mpc
  payload : t.payload = s.payload

/-- The µop at MPC depends on CUR, MPC and PAYLOAD only (R125). -/
theorem SamePosition.micro {s t : State} (h : SamePosition s t) : currentMicro t = currentMicro s := by
  rw [currentMicro, currentMicro, runningProg, runningProg, h.cur, h.mpc, h.payload]

/-- While a command runs, HOST leaves it at its position, and LIMIT alone but for a write to TIMEOUT (R36, R76). -/
theorem hostStep_keeps_position {a : Access} {s t : State} (hb : s.busy = true) (ha : ∀ v, a ≠ .write 0x0C 4 v)
    (h : hostStep a s = .next t) : SamePosition s t := by
  obtain ⟨-, rfl | ⟨off, -, rfl⟩ | ⟨w, -, hw⟩ | ⟨v, rfl, -⟩ | ⟨off, v, i, -, -, rfl⟩ | rfl⟩ := hostStep_cases h
  case inr.inr.inl =>
    cases (presentWord_of_busy hb).symm.trans hw
    exact ⟨rfl, rfl, rfl, rfl, rfl⟩
  case inr.inr.inr.inl => exact absurd rfl (ha v)
  all_goals exact ⟨rfl, rfl, rfl, rfl, rfl⟩

/-- BUS leaves the command, its position and LIMIT alone (R85). -/
theorem busStep_keeps_position (m : BusMove) (s : State) : SamePosition s (busStep m s) := by
  rw [busStep_frame]
  exact ⟨rfl, rfl, rfl, rfl, rfl⟩

section
variable {s : State} {f : WaitFlag} (hb : s.busy = true) (hu : currentMicro s = some (.wait f)) (hf : flagValue f s = false)
  (h0 : s.limit = 0)
include hb hu hf h0

/-- Without a limit a failed poll changes only SPIN (R36, R210). -/
theorem engineStep_of_unbounded : engineStep s = .next { s with spin := spinAfterFail s.spin } :=
  engineStep_of_stay hb hu hf (by rw [h0, timesOut_zero])

/-- Without a limit, no step but RESET and a write to TIMEOUT takes a failing wait from its position (R210). -/
theorem applyEvent_keeps_position {e : Event} {t : State} (hne : e ≠ .reset) (hw : ∀ v, e ≠ .host (.write 0x0C 4 v))
    (h : applyEvent e s = .next t) : SamePosition s t := by
  cases e with
  | reset => exact absurd rfl hne
  | host a => exact hostStep_keeps_position hb (fun v ha => hw v (congrArg Event.host ha)) h
  | bus m =>
    cases h
    exact busStep_keeps_position m s
  | engine =>
    cases (engineStep_of_unbounded hb hu hf h0).symm.trans h
    exact ⟨rfl, rfl, rfl, rfl, rfl⟩

end

/-- Settles O27: every step keeps the wait's position, and so does every run, by induction on its length. -/
theorem unboundedWaitHangs : Obligations.UnboundedWaitHangs := by
  constructor
  · intro e s t f hb hu hf h0 hne hw h _
    have hsame := applyEvent_keeps_position hb hu hf h0 hne hw h
    have hbt : t.busy = true := hsame.busy.trans hb
    have hut : currentMicro t = some (.wait f) := hsame.micro.trans hu
    refine ⟨hbt, hsame.limit.trans h0, hut, hsame.cur, hsame.mpc, waitField_of_wait hbt hut, ?_⟩
    rintro rfl
    cases (engineStep_of_unbounded hb hu hf h0).symm.trans h
    rfl
  · intro sched states f hrun hw hf hb hu h0 k
    have hwait : (states k).busy = true ∧ currentMicro (states k) = some (.wait f) ∧ (states k).limit = 0 := by
      induction k with
      | zero => exact ⟨hb, hu, h0⟩
      | succ k ih =>
        obtain ⟨hbk, huk, h0k⟩ := ih
        have hsame := applyEvent_keeps_position hbk huk (hf k) h0k (hrun.noReset k) (hw k) (hrun.steps k)
        exact ⟨hsame.busy.trans hbk, hsame.micro.trans huk, hsame.limit.trans h0k⟩
    obtain ⟨hbk, huk, -⟩ := hwait
    exact ⟨hbk, waitField_of_wait hbk huk⟩

/-! ### What the abort does and leaves (R207 to R209) -/

/-- With room for it behind the Stops queued, the abort adds its Stop to them, unless the Start was still queued (R207). -/
theorem stopIfStarted_of_room {s : State} (hroom : (s.preq.filter (fun q => decide (q = .stop))).length < 2) :
    stopIfStarted s =
      { s with preq := s.preq.filter (fun q => decide (q = .stop)) ++ (if Request.start ∈ s.preq then [] else [.stop]) } := by
  by_cases h : Request.start ∈ s.preq
  · rw [stopIfStarted_of_queued h, if_pos h, List.append_nil]
    rfl
  · rw [stopIfStarted_of_started h, if_neg h]
    exact enqueue_of_room hroom

/-- Settles O28: the poll times out, and the abort is R207's procedure, with room in PREQ for its Stop. -/
theorem timeoutAbortsTheCommand : Obligations.TimeoutAbortsTheCommand := by
  intro s f c hb hc hu hf h0 hle hroom
  have ht : timesOut s.limit (spinAfterFail s.spin) = true :=
    (timesOut_iff ..).mpr ⟨h0, hle.trans_eq (spinAfterFail_toNat s.spin).symm⟩
  rw [engineStep_of_timeout hb hu hf ht, abort,
    stopIfStarted_of_room (s := { s with spin := spinAfterFail s.spin }) hroom]
  simp only [burstRunning, hc]
  cases c <;> rfl

/-- From the invariant, a step that ends a command with BUS_TIMEOUT is the abort of a wait whose poll failed (R204). -/
theorem aborted_of_busTimeout {s t : State} (hi : s.inv = true) (h : engineStep s = .next t) (hb : s.busy = true)
    (he : t.err = .busTimeout) :
    ∃ c f, Running s c (.wait f) ∧ flagValue f s = false ∧ t = abort f { s with spin := spinAfterFail s.spin } := by
  obtain ⟨-, u, hu, -⟩ := (engineStep_cases h).resolve_left fun ⟨hidle, _⟩ => by simp [hb] at hidle
  obtain ⟨c, hr⟩ := running_of_inv hi hb hu
  have hne : s.err ≠ .busTimeout := by simp [hr.noErr]
  cases engineEffect_of_step h with
  | idle | stayed => exact absurd he hne
  | ended u' | moved u' =>
    obtain ⟨-, -, -, -, -, -, herr, -⟩ := runMicro_keeps u' s
    exact absurd (herr.symm.trans he) hne
  | aborted f _ hu' hf =>
    obtain rfl : u = .wait f := Option.some.inj (hu.symm.trans hu')
    exact ⟨c, f, hr, hf, rfl⟩

/-- Settles O29: the step is an abort, which leaves a resting queue, PHASE = Stopped and the published data. -/
theorem abortLeavesARecoverableState : Obligations.AbortLeavesARecoverableState := by
  intro s t hi h hb he
  obtain ⟨c, f, hr, hf, rfl⟩ := aborted_of_busTimeout hi h hb he
  obtain ⟨hrest, -⟩ := restingQueue_of_abort (s := { s with spin := spinAfterFail s.spin }) hr.link hr.ok hf
  have hqueue := ((restingQueue_iff _).mp hrest).imp And.left And.left
  refine ⟨hqueue, abort_result .., abort_rxdata .., abort_trace .., abort_resultValid .., fun reg wc hc => ?burst,
    rfl, rfl, fun _ => rfl, fun _ => rfl, fun _ _ => rfl, rfl⟩
  case burst =>
    obtain ⟨-, hack, ⟨hnone, -⟩ | ⟨-, hvalid⟩⟩ := burstEndsWithAckEnabled .engine s _ reg wc hi nofun h hb hc rfl
    · cases hnone
    · exact ⟨hvalid, hack⟩

/-! ### A flag and a timeout at one moment (R214) -/

/-- The state once BUS has performed the one request queued, a Start (R79). -/
def startPerformed (es : List Event) (s : State) : State :=
  { s with startSent := true, preq := [], trace := s.trace ++ [.start], inputs := es }

/-- BUS performs the Start, its step being the next one scheduled. -/
theorem step_bStart {es : List Event} {s : State} (hq : s.preq = [.start]) (hin : s.inputs = .bus .bStart :: es) :
    step s = .next (startPerformed es s) := by
  rw [step_of_cons hin, applyEvent, busStep_start (s := s.withInputs es) hq, bStart,
    popRequest_of_cons (s := s.withInputs es) hq]
  rfl

/-- The abort flushes a Start that is all of PREQ, and requests no Stop (R207). -/
theorem abort_preq_of_start {f : WaitFlag} {s : State} (hq : s.preq = [.start]) : (abort f s).preq = [] := by
  rw [abort_preq, stopIfStarted_of_queued (by simp [hq]), flushRequests, hq]
  rfl

/-- With PREQ empty, an event that names the performing of a Start passes (log 1). -/
theorem step_bStart_of_empty {es : List Event} {s : State} (hq : s.preq = []) (hin : s.inputs = .bus .bStart :: es) :
    step s = .next (s.withInputs es) := by
  have hoff : busEnabled .bStart (s.withInputs es) = false := by simp [busEnabled, hq]
  rw [step_of_cons hin, applyEvent, busStep_of_disabled hoff]

/-- Settles O30: BUS sets the flag before the poll, or the poll aborts and leaves BUS no Start to perform. -/
theorem timeoutAndFlagInBothOrders : Obligations.TimeoutAndFlagInBothOrders := by
  intro s hb hu hmore hf hq hl hs
  refine ⟨fun rest hin => ?busFirst, fun rest hin => ?engineFirst⟩
  case busFirst =>
    have hpoll : step (startPerformed (.engine :: rest) s) = engineStep (startPerformed rest s) :=
      step_of_cons (e := .engine) (es := rest) rfl
    rw [run_succ_of_next (step_bStart (es := .engine :: rest) hq hin), run_one, hpoll,
      engineStep_of_more (s := startPerformed rest s) hb hu (advances_of_set rfl) hmore, runMicro_wait_of_set rfl, ← hs]
    rfl
  case engineFirst =>
    have hspin : spinAfterFail s.spin = 1 := by rw [hs]; rfl
    have ht : timesOut s.limit 1 = true := by rw [hl]; rfl
    have habort := step_of_failedPoll (es := .bus .bStart :: rest) hb hu hf hin hspin
    rw [if_pos ht] at habort
    have hempty := abort_preq_of_start (f := .startSent) (s := { s with spin := 1, inputs := .bus .bStart :: rest }) hq
    have hrun := (run_succ_of_next habort).trans ((run_one _).trans (step_bStart_of_empty hempty (abort_inputs ..)))
    exact ⟨_, hrun, rfl, rfl, rfl, hempty, abort_trace .startSent _, (abort_startSent .startSent _).trans hf⟩

end Sys2Proof.Machine
end

section
/-! PROOFS. The statements of 70_reset_and_hazards.md: what HOST reads after reset. -/

namespace Sys2Proof.Machine
open Host

/-- Settles O41: only ACK_EN is set in STATUS, and TXBUF and RESULT hold 0 at every index. -/
theorem readsAfterReset : Obligations.ReadsAfterReset := by
  intro off
  have hstatus : statusWord State.reset = 0x00000004 := by decide
  have hzero : ∀ (w n i : Nat), ((List.replicate n (0 : BitVec w)).getD i 0).setWidth 32 = 0 := by simp
  unfold readReg
  split
  case isTrue hcmd => subst hcmd; rfl
  split
  case isTrue => exact hstatus
  split
  case isTrue => rfl
  split
  case isTrue => rfl
  cases txbufIndex State.reset off with
  | some i => exact hzero 8 _ i
  | none =>
    cases resultIndex State.reset off with
    | some i => exact hzero 16 _ i
    | none => rfl

end Sys2Proof.Machine
end

section
/-! PROOFS. The statements of 70_reset_and_hazards.md: with LIMIT set, every command ends within a number of ENGINE steps. -/

namespace Sys2Proof.Machine
open Host

/-! ### A running command along one step -/

/-- The µop of a running command. -/
theorem exists_running {s : State} (hi : s.inv = true) (hb : s.busy = true) : ∃ c u, Running s c u := by
  obtain ⟨-, -, -, -, ⟨-, c, u, -, hu, -⟩ | ⟨hb', -⟩⟩ := (inv_iff s).mp hi
  · obtain ⟨c, h⟩ := running_of_inv hi hb hu
    exact ⟨c, u, h⟩
  · simp [hb] at hb'

/-- The µop of a running command that is known. -/
theorem exists_running_of_cur {s : State} {c : Instr} (hi : s.inv = true) (hb : s.busy = true) (hc : s.cur = some c) :
    ∃ u, Running s c u := by
  obtain ⟨c', u, h⟩ := exists_running hi hb
  obtain rfl : c' = c := Option.some.inj (h.cur.symm.trans hc)
  exact ⟨u, h⟩

/-- In the same position the same µop runs, and the invariant says the same of it. -/
theorem SamePosition.running {s t : State} {c : Instr} {u : MicroOp} (h : SamePosition s t) (hr : Running s c u)
    (hi : t.inv = true) : Running t c u := by
  obtain ⟨u', hr'⟩ := exists_running_of_cur hi (h.busy.trans hr.busy) (h.cur.trans hr.cur)
  obtain rfl : u' = u := Option.some.inj (hr'.current.symm.trans (h.micro.trans hr.current))
  exact hr'

/-- In the same position the same µprogram runs. -/
theorem SamePosition.prog {s t : State} (h : SamePosition s t) : runningProg t = runningProg s := by
  rw [runningProg, runningProg, h.cur, h.payload]

/-- The rest of the running µprogram begins with the µop at MPC. -/
theorem Running.drop {s : State} {c : Instr} {u : MicroOp} (h : Running s c u) :
    (runningProg s).drop s.mpc.toNat = u :: (runningProg s).drop (s.mpc.toNat + 1) := by
  obtain ⟨hlt, hu⟩ := List.getElem?_eq_some_iff.mp h.current
  rw [List.drop_eq_getElem_cons hlt, hu]

/-- An event that keeps LIMIT and is not ENGINE's leaves a running command at its position, SPIN and the steps to come alone
(R57, R76, R85). -/
theorem position_of_keepsLimit {e : Event} {s t : State} (hb : s.busy = true) (hk : e.keepsLimit = true) (he : e ≠ .engine)
    (h : applyEvent e s = .next t) : SamePosition s t ∧ t.spin = s.spin ∧ t.inputs = s.inputs := by
  cases e with
  | host a =>
    have hne : ∀ v, a ≠ .write 0x0C 4 v := by
      rintro v rfl
      simp [Event.keepsLimit] at hk
    obtain ⟨-, -, -, -, -, -, -, -, -, -, -, -, -, hframe⟩ := hostCannotTouchTheBus s t a h
    obtain ⟨ht, -⟩ := hframe hb
    exact ⟨hostStep_keeps_position hb hne h, by rw [ht], by rw [ht]⟩
  | engine => exact absurd rfl he
  | bus m =>
    cases h
    exact ⟨busStep_keeps_position m s, by rw [busStep_frame], by rw [busStep_frame]⟩
  | reset => cases hk

/-! ### The ENGINE steps left (R252, R255) -/

/-- One µop more in the bound: one step, and `n − 1` failed polls at a WAIT. -/
theorem engineBound_cons (u : MicroOp) (us : List MicroOp) (n : Nat) :
    engineBound (u :: us) n = engineBound us n + 1 + if u.isWait then n - 1 else 0 := by
  cases hw : u.isWait
  · simp [engineBound, hw]
    omega
  · simp [engineBound, hw, Nat.succ_mul]
    omega

/-- The bound of R252 for what is left of the running µprogram, this µop counted in full: SPIN of its polls are already made. -/
def stepsLeft (s : State) : Nat := engineBound ((runningProg s).drop s.mpc.toNat) s.limit.toNat

/-- The bound at a µop, and what it leaves for the µops after it. -/
theorem Running.stepsLeft_eq {s : State} {c : Instr} {u : MicroOp} (h : Running s c u) :
    stepsLeft s =
      engineBound ((runningProg s).drop (s.mpc.toNat + 1)) s.limit.toNat + 1 + if u.isWait then s.limit.toNat - 1 else 0 := by
  rw [stepsLeft, h.drop, engineBound_cons]

/-- The failed polls so far are fewer than the bound counts for this µop alone: SPIN < LIMIT, and SPIN = 0 but at a WAIT. -/
theorem Running.spin_lt {s : State} {c : Instr} {u : MicroOp} (h : Running s c u) (hs : s.spin.toNat < s.limit.toNat) :
    s.spin.toNat < 1 + if u.isWait then s.limit.toNat - 1 else 0 := by
  rcases h.spin with hw | h0
  · rw [if_pos hw]
    omega
  · rw [h0]
    simp

/-- A failed poll that does not time out adds 1 to SPIN and stays below LIMIT (R206). -/
theorem spin_of_stay {limit spin : Half} (hs : spin.toNat < limit.toNat) (ht : timesOut limit (spinAfterFail spin) = false) :
    (spinAfterFail spin).toNat = spin.toNat + 1 ∧ spin.toNat + 1 < limit.toNat := by
  have hlimit := limit.isLt
  have hspin : (spinAfterFail spin).toNat = spin.toNat + 1 := by
    rw [spinAfterFail_toNat]
    omega
  have hne : limit ≠ 0 := by
    rintro rfl
    exact Nat.not_lt_zero _ hs
  have hlt : ¬ limit.toNat ≤ spin.toNat + 1 := fun hle => by
    have := (timesOut_iff limit (spinAfterFail spin)).mpr ⟨hne, hspin ▸ hle⟩
    simp [ht] at this
  exact ⟨hspin, by omega⟩

/-- A command is running, with fewer than LIMIT failed polls at its µop. -/
structure Polling (s : State) : Prop where
  inv : s.inv = true
  busy : s.busy = true
  spin : s.spin.toNat < s.limit.toNat

/-- An ENGINE step ends the command, or takes one from the ENGINE steps it has left (R206). -/
theorem Polling.engine {s t : State} (h : Polling s) (hst : engineStep s = .next t) (hbt : t.busy = true) :
    t.inputs = s.inputs ∧ Polling t ∧ stepsLeft t + s.spin.toNat + 1 ≤ stepsLeft s + t.spin.toNat := by
  have hi := engineStep_keeps_inv h.inv hst
  cases engineEffect_of_step hst with
  | idle hb => cases hb.symm.trans hbt
  | ended | aborted => cases hbt
  | moved u hb hu ha hmore =>
    obtain ⟨c, hr⟩ := running_of_inv h.inv hb hu
    obtain ⟨-, hcur, -, -, -, hpay, -, -, -, hlimit, hin, -⟩ := runMicro_keeps u s
    have hspin : (runMicro u s).1.spin = 0 := runMicro_spin ha hr.spin
    have hleft : stepsLeft { (runMicro u s).1 with mpc := s.mpc + 1 } =
        engineBound ((runningProg s).drop (s.mpc.toNat + 1)) s.limit.toNat := by
      simp only [stepsLeft, runningProg, hcur, hpay, hlimit, hr.mpc_succ hmore]
    have hlt := hr.spin_lt h.spin
    have hpos : 0 < s.limit.toNat := Nat.zero_lt_of_lt h.spin
    refine ⟨hin, ⟨hi, hbt, ?_⟩, ?_⟩
    · simpa [hspin, hlimit] using hpos
    · rw [hleft, hr.stepsLeft_eq]
      omega
  | stayed f hb hu hf =>
    have ht : timesOut s.limit (spinAfterFail s.spin) = false := Bool.eq_false_iff.mpr fun ht => by
      have habort := Outcome.next.inj (hst.symm.trans (engineStep_of_timeout hb hu hf ht))
      exact absurd (congrArg State.busy habort) (by simp [hb])
    obtain ⟨hspin, hlt⟩ := spin_of_stay h.spin ht
    refine ⟨rfl, ⟨hi, hb, hspin ▸ hlt⟩, ?_⟩
    show stepsLeft s + _ + 1 ≤ stepsLeft s + (spinAfterFail s.spin).toNat
    omega

/-- A step that keeps LIMIT ends the command, or takes one from its ENGINE steps left if it is ENGINE's. -/
theorem Polling.step_of_keepsLimit {e : Event} {s t : State} (h : Polling s) (hk : e.keepsLimit = true)
    (hst : applyEvent e s = .next t) (hbt : t.busy = true) :
    t.inputs = s.inputs ∧ Polling t ∧
      stepsLeft t + s.spin.toNat + (if e = .engine then 1 else 0) ≤ stepsLeft s + t.spin.toNat := by
  by_cases he : e = .engine
  · subst he
    exact h.engine hst hbt
  · obtain ⟨hp, hspin, hin⟩ := position_of_keepsLimit h.busy hk he hst
    refine ⟨hin, ⟨applyEvent_keeps_inv h.inv hst, hbt, by rw [hspin, hp.limit]; exact h.spin⟩, ?_⟩
    rw [if_neg he, stepsLeft, hp.prog, hp.mpc, hp.limit, hspin, stepsLeft]
    omega

/-- An event inside the window is answered in every state that meets the invariant (R62). -/
theorem answered_of_keepsLimit {e : Event} {s : State} (hi : s.inv = true) (hk : e.keepsLimit = true) :
    ∃ t, applyEvent e s = .next t := by
  rcases applyEvent_answers (e := e) hi with h | ⟨a, rfl, ha, -⟩
  · exact h
  · have hwindow : a.offset < Config.windowBytes := by
      cases a with
      | read off n => exact of_decide_eq_true hk
      | write off n v =>
        simp only [Event.keepsLimit, Bool.and_eq_true, decide_eq_true_eq] at hk
        exact hk.1
    exact absurd hwindow (Nat.not_lt.mpr ha)

/-- A schedule with as many ENGINE steps as are left ends the command. -/
theorem Polling.ends {es : List Event} {s : State} (h : Polling s) (hin : s.inputs = es)
    (hk : ∀ e ∈ es, e.keepsLimit = true)
    (hle : stepsLeft s ≤ es.countP (fun e => decide (e = .engine)) + s.spin.toNat) :
    ∃ k t, k ≤ es.length ∧ run k s = .next t ∧ t.busy = false := by
  induction es generalizing s with
  | nil =>
    obtain ⟨c, u, hr⟩ := exists_running h.inv h.busy
    have hlt := hr.spin_lt h.spin
    rw [hr.stepsLeft_eq] at hle
    simp only [List.countP_nil] at hle
    omega
  | cons e es ih =>
    obtain ⟨hke, hkes⟩ := List.forall_mem_cons.mp hk
    have h' : Polling (s.withInputs es) := { h with }
    obtain ⟨t, ht⟩ := answered_of_keepsLimit h'.inv hke
    have hst : step s = .next t := (step_of_cons hin).trans ht
    by_cases hbt : t.busy = true
    · obtain ⟨hint, hpt, hleft⟩ := h'.step_of_keepsLimit hke ht hbt
      replace hleft : stepsLeft t + s.spin.toNat + _ ≤ stepsLeft s + t.spin.toNat := hleft
      rw [List.countP_cons] at hle
      simp only [decide_eq_true_eq] at hle
      obtain ⟨k, v, hkl, hrun, hbv⟩ := ih hpt hint hkes (by omega)
      exact ⟨k + 1, v, by simpa using hkl, (run_succ_of_next hst).trans hrun, hbv⟩
    · exact ⟨1, t, by simp, (run_one s).trans hst, by simpa using hbt⟩

/-- Settles O56: each ENGINE step takes one from the bound, which a running command never has used up. -/
theorem boundedWaitsEndEveryCommand : Obligations.BoundedWaitsEndEveryCommand := by
  intro s hi hb hm hs hl hk hle
  have hpos : 0 < s.limit.toNat := Nat.pos_of_ne_zero fun h => hl (BitVec.eq_of_toNat_eq h)
  have hspin : s.spin.toNat = 0 := by rw [hs]; rfl
  have hleft : stepsLeft s = engineBound (runningProg s) s.limit.toNat := by rw [stepsLeft, hm]; rfl
  exact Polling.ends ⟨hi, hb, by omega⟩ rfl hk (by omega)

end Sys2Proof.Machine
end

section
/-! PROOFS. The statements of 70_reset_and_hazards.md: what a command in service needs from BUS, and that every step keeps it. -/

namespace Sys2Proof.Machine
open Host

/-! ### Where a BURST still ACKs -/

/-- The position is at or before RXHI_NACK in a BURST: the byte asked for next is not the last one (R172, R177). -/
def beforeNack (c : Instr) (i : Nat) : Prop :=
  match c with
  | .burst _ wc => i ≤ 14 + (4 * (wc - 1) + 1)
  | _ => False

/-- One position back the last byte is still to come. -/
theorem beforeNack_of_succ {c : Instr} {i : Nat} (h : beforeNack c (i + 1)) : beforeNack c i := by
  cases c with
  | burst r wc => exact Nat.le_of_succ_le h
  | _ => exact h

/-- The µops of the opening take no byte and leave ACK_EN alone. -/
theorem burstOpening_quiet {r : Byte} {u : MicroOp} (h : u ∈ burstOpening r) :
    u.takesByte = false ∧ u ≠ .ackOn ∧ ∀ e, u ≠ .setAck e := by
  have hall : ∀ v ∈ burstOpening r, v.takesByte = false ∧ v ≠ .ackOn ∧ ∀ e, v ≠ .setAck e := by
    simp [burstOpening, MicroOp.takesByte]
  exact hall u h

/-- Before RXHI_NACK no µop of a BURST writes ACK_EN (R170, R177, R180). -/
theorem runMicro_ackEn_of_beforeNack {c : Instr} {ps : List Byte} {i : Nat} {u : MicroOp} (hu : (uprog c ps)[i]? = some u)
    (h : beforeNack c (i + 1)) (s : State) : (runMicro u s).1.ackEn = s.ackEn := by
  obtain ⟨-, -, -, -, -, -, -, hack, -⟩ := runMicro_writes u s
  cases c with
  | burst r wc =>
    replace h : i + 1 ≤ 14 + (4 * (wc - 1) + 1) := h
    rcases Nat.lt_or_ge i 14 with hi | hi
    · rw [uprog, uprogBurst_opening _ _ _ hi] at hu
      obtain ⟨htakes, hon, hset⟩ := burstOpening_quiet (List.mem_of_getElem? hu)
      rcases hack with hack | h | ⟨rfl, -⟩ | ⟨rfl, -⟩
      · exact hack
      · exact absurd h (hset _)
      · cases htakes
      · exact absurd rfl hon
    · have hpos := burstReceive_position hi hu
      rcases hack with hack | hset | ⟨rfl, -⟩ | ⟨rfl, -⟩
      · exact hack
      · rw [hset] at hpos
        exact hpos.elim
      · simp only [standsAt] at hpos
        omega
      · simp only [standsAt] at hpos
        omega
  | _ => exact h.elim

/-- Every byte but the last one is taken at or before RXHI_NACK (R172). -/
theorem beforeNack_of_takesByte {c : Instr} {ps : List Byte} {i : Nat} {u : MicroOp} (hu : (uprog c ps)[i]? = some u)
    (ht : u.takesByte = true) (hadd : u ≠ .rxAdd) : beforeNack c i := by
  obtain ⟨r, wc, rfl⟩ := burst_of_takesByte hu ht
  rcases Nat.lt_or_ge i 14 with hi | hi
  · rw [uprog, uprogBurst_opening _ _ _ hi] at hu
    exact absurd ht (by simp [(burstOpening_quiet (List.mem_of_getElem? hu)).1])
  · have hpos := burstReceive_position hi hu
    show i ≤ 14 + (4 * (wc - 1) + 1)
    cases u with
    | rxHi | rxLo | rxHiNack =>
      simp only [standsAt] at hpos
      omega
    | rxAdd => exact absurd rfl hadd
    | _ => cases ht

/-! ### What a command in service needs from BUS -/

/-- A byte is in DR, or shifted in, or the peripheral still sends. -/
def byteComes (s : State) : Prop := s.rxNotEmpty = true ∨ s.shift ≠ none ∨ s.rxmore = true

/-- A µop that waits for a byte or takes one. -/
def MicroOp.receives (u : MicroOp) : Prop := u = .wait .rxNotEmpty ∨ u.takesByte = true

/-- What keeps the waits of command `c`, standing at `u`, from hanging (R188, R252): its address is not NACKed, the byte it waits
for comes, and until RXHI_NACK has been run a BURST ACKs, so that the peripheral goes on sending. -/
structure Served (c : Instr) (u : MicroOp) (s : State) : Prop where
  answered : u = .wait .addrAcked → busView s.trace ≠ .unanswered
  comes : u = .wait .rxNotEmpty → byteComes s
  acks : beforeNack c s.mpc.toNat → s.ackEn = true
  more : beforeNack c s.mpc.toNat → u.receives → s.rxmore = true

/-- A running command whose waits cannot hang. -/
structure InService (c : Instr) (u : MicroOp) (s : State) : Prop where
  running : Running s c u
  served : Served c u s

/-- An accepted command that can be served is in service at its first µop. -/
theorem inService_of_accepted {c : Instr} {s : State} (hi : s.inv = true) (hb : s.busy = true) (hc : s.cur = some c)
    (hm : s.mpc = 0) (hserve : canBeServed c s = true) : ∃ u, InService c u s := by
  obtain ⟨u, hr⟩ := exists_running_of_cur hi hb hc
  have hu := hr.micro
  rw [hm] at hu
  refine ⟨u, hr, ?_⟩
  cases c with
  | readb =>
    obtain rfl : MicroOp.wait .rxNotEmpty = u := Option.some.inj hu
    refine ⟨nofun, fun _ => ?_, False.elim, False.elim⟩
    simpa [canBeServed, byteComes, or_assoc, Option.isSome_iff_ne_none] using hserve
  | burst r wc =>
    obtain rfl : MicroOp.start = u := Option.some.inj hu
    exact ⟨nofun, nofun, fun _ => hserve, fun _ h => by simp [MicroOp.receives, MicroOp.takesByte] at h⟩
  | begin | write | setack | stop =>
    obtain rfl := Option.some.inj hu
    exact ⟨nofun, nofun, False.elim, False.elim⟩

/-! ### BUS -/

/-- Only a NACKed address leaves the bus unanswered (R80, R91). -/
theorem addr_of_unanswered {v : BusView} {e : BusEvent} (h : v.next e = .unanswered) : ∃ b, e = .addr b false := by
  cases e with
  | addr b ack => cases ack <;> cases v <;> simp [BusView.next] at h ⊢; split at h <;> cases h
  | rx b ack => cases ack <;> cases v <;> simp [BusView.next] at h
  | _ => cases v <;> simp [BusView.next] at h

/-- A BUS step records at most one event, a NACKed address only if it has drawn that NACK (R80, R85). -/
theorem busStep_records (m : BusMove) (s : State) :
    (busStep m s).trace = s.trace ∨
      ∃ e, (busStep m s).trace = s.trace ++ [e] ∧ ∀ b, e = .addr b false → m = .bAddr false := by
  rcases busStep_cases m s with e | ⟨-, -, e⟩ | ⟨ack, b, q, rfl, -, e⟩ | ⟨b, q, -, -, e⟩ | ⟨-, -, e⟩ | ⟨v, -, -, -, -, e⟩ |
      ⟨v, -, -, -, -, e⟩ | ⟨v, a, -, -, -, -, e⟩ <;>
    rw [e]
  · exact .inl rfl
  · exact .inr ⟨.start, rfl, nofun⟩
  · exact .inr ⟨.addr b ack, rfl, fun _ h => by cases h; rfl⟩
  · exact .inr ⟨.tx b, rfl, nofun⟩
  · exact .inr ⟨.stop, rfl, nofun⟩
  · exact .inr ⟨.rx v s.ackEn, rfl, nofun⟩
  · exact .inr ⟨.rx v s.ackEn, rfl, nofun⟩
  · exact .inl rfl

/-- As long as every address is ACKed, BUS leaves no address unanswered (R252). -/
theorem busStep_keeps_answered {m : BusMove} {s : State} (hm : m ≠ .bAddr false) (h : busView s.trace ≠ .unanswered) :
    busView (busStep m s).trace ≠ .unanswered := by
  rcases busStep_records m s with e | ⟨ev, e, hnack⟩ <;> rw [e]
  · exact h
  · rw [busView_append]
    intro hview
    obtain ⟨b, hb⟩ := addr_of_unanswered hview
    exact hm (hnack b hb)

/-- At a µop that waits for a byte or takes one, nothing is pending. -/
theorem preq_of_receives {u : MicroOp} {s : State} (hu : u.receives) (hm : microOk u s = true) : s.preq = [] := by
  rcases hu with rfl | ht
  · exact preq_of_transferring ((microOk_waitRxNotEmpty_iff s).mp hm).1
  · exact preq_of_transferring ((microOk_rx_iff (.inr ht) s).mp hm).1

/-- BUS only brings a byte nearer. -/
theorem BusEffect.keeps_byteComes {s t : State} (h : BusEffect s t) (hq : s.preq = []) (hc : byteComes s) : byteComes t := by
  cases h with
  | none => exact hc
  | start hq' | addr b ack hq' | tx b hq' | stop hq' => simp [hq] at hq'
  | rx | move => exact .inl rfl
  | shift => exact .inr (.inl nofun)

/-- While ACK_EN = 1 the peripheral goes on sending (R83, R84). -/
theorem BusEffect.keeps_rxmore {s t : State} (h : BusEffect s t) (hq : s.preq = []) (hack : s.ackEn = true)
    (hmore : s.rxmore = true) : t.rxmore = true := by
  cases h with
  | none | move => exact hmore
  | start hq' | addr b ack hq' | tx b hq' | stop hq' => simp [hq] at hq'
  | rx | shift => exact hack

/-- A BUS step that NACKs no address keeps a command in service. -/
theorem InService.keeps_busStep {c : Instr} {u : MicroOp} {s : State} (h : InService c u s) {m : BusMove}
    (hm : m ≠ .bAddr false) : InService c u (busStep m s) := by
  obtain ⟨hr, hv⟩ := h
  have he := busEffect_of_inv hr.inv m
  have hpos := busStep_keeps_position m s
  obtain ⟨-, -, hack⟩ := he.keeps_frame
  refine ⟨hpos.running hr (busStep_keeps_inv m hr.inv),
    { answered := fun hu => busStep_keeps_answered hm (hv.answered hu), comes := fun hu => ?_, acks := ?_, more := ?_ }⟩
  · exact he.keeps_byteComes (preq_of_receives (.inl hu) hr.ok) (hv.comes hu)
  · rw [hpos.mpc, hack]
    exact hv.acks
  · rw [hpos.mpc]
    exact fun hb hu => he.keeps_rxmore (preq_of_receives hu hr.ok) (hv.acks hb) (hv.more hb hu)

/-! ### HOST and ENGINE -/

/-- Nothing but these fields says whether a command is served. -/
theorem Served.congr {c : Instr} {u : MicroOp} {s t : State} (h : Served c u s) (htrace : t.trace = s.trace)
    (hrx : t.rxNotEmpty = s.rxNotEmpty) (hshift : t.shift = s.shift) (hmore : t.rxmore = s.rxmore) (hack : t.ackEn = s.ackEn)
    (hmpc : t.mpc = s.mpc) : Served c u t where
  answered := htrace.symm ▸ h.answered
  comes := by
    rw [byteComes, hrx, hshift, hmore]
    exact h.comes
  acks := by
    rw [hmpc, hack]
    exact h.acks
  more := by
    rw [hmpc, hmore]
    exact h.more

/-- The µop after an advancing one fits the direction of the transaction. -/
theorem Running.follows {s : State} {c : Instr} {u v : MicroOp} (h : Running s c u)
    (hv : (uprog c s.payload)[s.mpc.toNat + 1]? = some v) : followsIn s.dir u v = true := by
  refine followsIn_of_positions h.micro hv ?_
  rintro - d hd
  exact (dirOk_iff h.cur).mp h.dir d hd

/-- Before WAIT(ADDR_ACKED) stands the ADDR (R124). -/
theorem addr_of_follows {d : Dir} {u : MicroOp} (h : followsIn d u (.wait .addrAcked) = true) : ∃ d', u = .addr d' := by
  cases u with
  | addr d' => exact ⟨d', rfl⟩
  | wait f => cases f <;> cases h
  | _ => cases h

/-- Before a wait for a byte stands the CLRADDR of a read, or a µop that has taken a byte, not the last one (R172). -/
theorem clrAddr_or_takesByte_of_follows {d : Dir} {u : MicroOp} (h : followsIn d u (.wait .rxNotEmpty) = true) :
    (u = .clrAddr ∧ d = .read) ∨ (u.takesByte = true ∧ u ≠ .rxAdd) := by
  cases u with
  | clrAddr => exact .inl ⟨rfl, of_decide_eq_true h⟩
  | rxHi | rxLo | rxHiNack => exact .inr ⟨rfl, nofun⟩
  | wait f => cases f <;> cases h
  | _ => cases h

/-- Before a µop that takes a byte stands the wait for it (R172). -/
theorem wait_of_follows_takesByte {d : Dir} {u v : MicroOp} (h : followsIn d u v = true) (ht : v.takesByte = true) :
    u = .wait .rxNotEmpty := by
  cases v with
  | rxHi | rxLo | rxHiNack | rxAdd =>
    cases u with
    | wait f =>
      cases f with
      | rxNotEmpty => rfl
      | _ => cases h
    | _ => cases h
  | _ => cases ht

/-- When a command comes to wait for a byte the peripheral is sending: the address has just been ACKed for a read, or the byte
before was ACKed. -/
theorem InService.rxmore_of_next {c : Instr} {u : MicroOp} {s : State} (h : InService c u s)
    (hv : (uprog c s.payload)[s.mpc.toNat + 1]? = some (.wait .rxNotEmpty)) : s.rxmore = true := by
  obtain ⟨hr, hserved⟩ := h
  rcases clrAddr_or_takesByte_of_follows (hr.follows hv) with ⟨rfl, hdir⟩ | ⟨ht, hadd⟩
  · obtain ⟨-, ha, hd⟩ := (microOk_clrAddr_iff s).mp hr.ok
    obtain ⟨-, -, hmore, -⟩ := (linkOk_iff s).mp hr.link
    refine hmore.mpr ?_
    rcases (answered_of_addrAcked hr.link ha).1 with hw | hw
    · simp [dataPhase_iff, hdir, hw] at hd
    · exact hw
  · exact hserved.more (beforeNack_of_takesByte hr.micro ht hadd) (.inr ht)

/-- An ENGINE step to the next µop keeps a command in service. -/
theorem InService.moved {c : Instr} {u : MicroOp} {s : State} (h : InService c u s) (ha : Advances u s)
    (hmore : s.mpc.toNat + 1 < (runningProg s).length) :
    ∃ v, InService c v { (runMicro u s).1 with mpc := s.mpc + 1 } := by
  obtain ⟨hr, hv⟩ := h
  obtain ⟨hbusy, hcur, -, -, -, hpay, -⟩ := runMicro_keeps u s
  obtain ⟨htrace, -, -, -, hrxmore, -⟩ := runMicro_busSide u s
  have hmpc := hr.mpc_succ hmore
  obtain ⟨v, hr'⟩ := exists_running_of_cur (hr.inv_of_moved ha hmore) (hbusy.trans hr.busy) (hcur.trans hr.cur)
  have hnext : (uprog c s.payload)[s.mpc.toNat + 1]? = some v := by
    have := hr'.micro
    rwa [show _ = s.payload from hpay, hmpc] at this
  have hf := hr.follows hnext
  refine ⟨v, hr', { answered := ?_, comes := ?_, acks := fun hb => ?_, more := fun hb hu => ?_ }⟩
  · rintro rfl
    obtain ⟨d, rfl⟩ := addr_of_follows hf
    have hopen := (opened_of_startSent hr.link ((microOk_addr_iff d s).mp hr.ok).2).1
    simp [htrace, hopen]
  · rintro rfl
    exact .inr (.inr (hrxmore.trans (InService.rxmore_of_next ⟨hr, hv⟩ hnext)))
  · replace hb : beforeNack c (s.mpc.toNat + 1) := hmpc ▸ hb
    exact (runMicro_ackEn_of_beforeNack hr.micro hb s).trans (hv.acks (beforeNack_of_succ hb))
  · refine hrxmore.trans ?_
    replace hb : beforeNack c (s.mpc.toNat + 1) := hmpc ▸ hb
    rcases hu with rfl | ht
    · exact InService.rxmore_of_next ⟨hr, hv⟩ hnext
    · exact hv.more (beforeNack_of_succ hb) (.inl (wait_of_follows_takesByte hf ht))

end Sys2Proof.Machine
end

section
/-! PROOFS. The statements of 70_reset_and_hazards.md: every command in service ends on a responsive bus. -/

namespace Sys2Proof.Machine
open Host

/-! ### How far a wait is from its flag -/

/-- How many BUS steps the flag of the wait at `u` is away; 0 at a µop that does not wait. -/
def busDebt (u : MicroOp) (s : State) : Nat :=
  match u with
  | .wait .rxNotEmpty => if s.rxNotEmpty then 0 else if s.shift.isSome then 1 else 2
  | .wait _ => s.preq.length
  | _ => 0

/-- The BUS step that brings the flag `f` nearer when it is `n` steps away: the request at the head of PREQ, or the next step of
a byte, the draw left open (R79 to R84). -/
def servingMove (rxPrefetch : Bool) (f : WaitFlag) (n : Nat) : BusMove :=
  match f, n with
  | .startSent, 1 => .bStart
  | .startSent, _ => .bStop
  | .addrAcked, _ => .bAddr true
  | .txEmpty, _ => .bTx
  | .rxNotEmpty, 1 => .bMove
  | .rxNotEmpty, _ => if rxPrefetch then .bShift 0 else .bRx 0

/-- No wait is more than two BUS steps from its flag (R90). -/
theorem InService.busDebt_le {c : Instr} {u : MicroOp} {s : State} (h : InService c u s) : busDebt u s ≤ 2 := by
  obtain ⟨-, -, -, hlen, -⟩ := invariantGivesTheRulesOfState s h.running.inv
  unfold busDebt
  split
  · split
    · omega
    · split <;> omega
  · exact hlen
  · omega

/-- What stands between a wait in service and its flag. -/
inductive Awaits (s : State) : WaitFlag → Prop where
  | set (f : WaitFlag) (hf : flagValue f s = true) : Awaits s f
  | start (hq : s.preq = [.start]) : Awaits s .startSent
  | stop (hq : s.preq = [.stop, .start]) : Awaits s .startSent
  | addr (b : Byte) (hq : s.preq = [.addr b]) : Awaits s .addrAcked
  | tx (b : Byte) (hq : s.preq = [.tx b]) : Awaits s .txEmpty
  | move (v : Byte) (a : Bool) (hn : s.rxNotEmpty = false) (hp : s.params.rxPrefetch = true) (hs : s.shift = some (v, a)) :
      Awaits s .rxNotEmpty
  | receive (hn : s.rxNotEmpty = false) (hs : s.shift = none) (hr : canReceive s = true) : Awaits s .rxNotEmpty

/-- In service a wait has its flag set, or BUS has a step to take towards it. -/
theorem InService.awaits {c : Instr} {f : WaitFlag} {s : State} (h : InService c (.wait f) s) : Awaits s f := by
  obtain ⟨hr, hv⟩ := h
  cases f with
  | startSent =>
    obtain ⟨-, ⟨hq, -⟩ | ⟨hq, -⟩ | ⟨-, hs⟩⟩ := (microOk_waitStartSent_iff s).mp hr.ok
    · exact .start hq
    · exact .stop hq
    · exact .set _ hs
  | addrAcked =>
    obtain ⟨-, ⟨hq, -⟩ | ⟨ha, -⟩ | ⟨-, hview⟩⟩ := (microOk_waitAddrAcked_iff s).mp hr.ok
    · exact .addr _ hq
    · exact .set _ ha
    · exact absurd hview (hv.answered rfl)
  | txEmpty =>
    obtain ⟨-, -, -, -, hq | ⟨b, hq⟩⟩ := (microOk_waitTxEmpty_iff s).mp hr.ok
    · exact .set _ (by simp [flagValue, hq, txEmpty])
    · exact .tx b hq
  | rxNotEmpty =>
    obtain ⟨ht, hdir⟩ := (microOk_waitRxNotEmpty_iff s).mp hr.ok
    obtain ⟨-, hq, hd, ha⟩ := (transferringOk_iff s).mp ht
    obtain ⟨-, hmode, -, -, hshift, -⟩ := (linkOk_iff s).mp hr.link
    have hview : busView s.trace = .reading ∨ busView s.trace = .readEnd := by simpa [dataPhase_iff, hdir] using hd
    cases hn : s.rxNotEmpty with
    | true => exact .set _ hn
    | false =>
      cases hs : s.shift with
      | some p => exact .move p.1 p.2 hn (hshift (by simp [hs])).2 hs
      | none =>
        have hmore : s.rxmore = true := by simpa [byteComes, hn, hs] using hv.comes rfl
        exact .receive hn hs ((canReceive_iff s).mpr ⟨hq, hmode.mpr hview, hmore, ha⟩)

/-- With nothing owed the µop advances (R127). -/
theorem InService.advances {c : Instr} {u : MicroOp} {s : State} (h : InService c u s) (hd : busDebt u s = 0) :
    Advances u s := by
  rintro f rfl
  cases h.awaits with
  | set _ hf => exact hf
  | start hq | stop hq | addr b hq | tx b hq => simp [busDebt, hq] at hd
  | move v a hn hp hs | receive hn hs => simp [busDebt, hn, hs] at hd

/-- A wait whose flag is set owes nothing. -/
theorem InService.busDebt_of_set {c : Instr} {f : WaitFlag} {s : State} (h : InService c (.wait f) s)
    (hf : flagValue f s = true) : busDebt (.wait f) s = 0 := by
  cases f with
  | startSent => simp [busDebt, (opened_of_startSent h.running.link hf).2]
  | addrAcked => simp [busDebt, (answered_of_addrAcked h.running.link hf).2]
  | txEmpty => simp [busDebt, preq_of_transferring (transferringOk_of_txEmpty h.running.ok hf).1]
  | rxNotEmpty => exact if_pos hf

/-- As long as something is owed, the step that serves the wait is enabled (R79 to R84). -/
theorem InService.servingMove_enabled {c : Instr} {f : WaitFlag} {s : State} (h : InService c (.wait f) s)
    (hd : busDebt (.wait f) s ≠ 0) : busEnabled (servingMove s.params.rxPrefetch f (busDebt (.wait f) s)) s = true := by
  cases h.awaits with
  | set _ hf => exact absurd (h.busDebt_of_set hf) hd
  | start hq | stop hq | addr b hq | tx b hq => simp [busDebt, hq, servingMove, busEnabled]
  | move v a hn hp hs => simp [busDebt, hn, hs, hp, servingMove, busEnabled]
  | receive hn hs hr => cases hp : s.params.rxPrefetch <;> simp [busDebt, hn, hs, hr, hp, servingMove, busEnabled]

/-- Taken, whatever it draws, that step pays one. -/
theorem InService.servingMove_pays {c : Instr} {f : WaitFlag} {s : State} (h : InService c (.wait f) s)
    (hd : busDebt (.wait f) s ≠ 0) {m : BusMove}
    (hm : (servingMove s.params.rxPrefetch f (busDebt (.wait f) s)).sameStep m = true) :
    busDebt (.wait f) (busStep m s) < busDebt (.wait f) s := by
  cases h.awaits with
  | set _ hf => exact absurd (h.busDebt_of_set hf) hd
  | start hq =>
    replace hm : BusMove.sameStep .bStart m = true := by simpa [busDebt, hq, servingMove] using hm
    cases m with
    | bStart => simp [busDebt, busStep_start hq, bStart, hq]
    | _ => cases hm
  | stop hq =>
    replace hm : BusMove.sameStep .bStop m = true := by simpa [busDebt, hq, servingMove] using hm
    cases m with
    | bStop => simp [busDebt, busStep_stop hq, bStop, hq]
    | _ => cases hm
  | addr b hq =>
    cases m with
    | bAddr ack => simp [busDebt, busStep_addr ack hq, bAddr, hq]
    | _ => cases hm
  | tx b hq =>
    cases m with
    | bTx => simp [busDebt, busStep_tx hq, bTx, hq]
    | _ => cases hm
  | move v a hn hp hs =>
    replace hm : BusMove.sameStep .bMove m = true := by simpa [busDebt, hn, hs, servingMove] using hm
    have hen : busEnabled .bMove s = true := by simp [busEnabled, hp, hs, hn]
    cases m with
    | bMove => simp [busDebt, busStep_move hen hs, bMove, hn, hs]
    | _ => cases hm
  | receive hn hs hr =>
    cases hp : s.params.rxPrefetch with
    | false =>
      replace hm : BusMove.sameStep (.bRx 0) m = true := by simpa [busDebt, hn, hs, hp, servingMove] using hm
      cases m with
      | bRx v =>
        have hen : busEnabled (.bRx v) s = true := by simp [busEnabled, hp, hn, hr]
        simp [busDebt, busStep_rx hen, bRx, hn, hs]
      | _ => cases hm
    | true =>
      replace hm : BusMove.sameStep (.bShift 0) m = true := by simpa [busDebt, hn, hs, hp, servingMove] using hm
      cases m with
      | bShift v =>
        have hen : busEnabled (.bShift v) s = true := by simp [busEnabled, hp, hs, hr]
        simp [busDebt, busStep_shift hen, bShift, hn, hs]
      | _ => cases hm

/-- No BUS step adds to what is owed. -/
theorem InService.busDebt_busStep {c : Instr} {u : MicroOp} {s : State} (h : InService c u s) (m : BusMove) :
    busDebt u (busStep m s) ≤ busDebt u s := by
  have hlen : (busStep m s).preq.length ≤ s.preq.length := by
    rcases busStep_preq m s with e | e <;> simp [e]
  by_cases hu : u = .wait .rxNotEmpty
  · subst hu
    have hq := preq_of_transferring ((microOk_waitRxNotEmpty_iff s).mp h.running.ok).1
    have he := busEffect_of_inv h.running.inv m
    generalize busStep m s = t at he
    cases he with
    | none => exact le_rfl
    | start hq' | addr b ack hq' | tx b hq' | stop hq' => simp [hq] at hq'
    | rx | move => exact Nat.zero_le _
    | shift v hp hq hv ha hs => simp [busDebt, bShift, hs]; split <;> omega
  · cases u with
    | wait f =>
      cases f with
      | rxNotEmpty => exact absurd rfl hu
      | _ => exact hlen
    | _ => exact le_rfl

/-! ### One step of a run -/

/-- What is left to do of command `c`, standing at `u`: its µops, and the BUS steps owed to this one. -/
def workLeft (c : Instr) (u : MicroOp) (s : State) : Nat :=
  3 * ((uprog c s.payload).length - s.mpc.toNat) + busDebt u s

/-- The step from `s` has ended the command with ERR = NONE, or left less to do. -/
def Closer (c : Instr) (u : MicroOp) (s t : State) : Prop :=
  (t.busy = false ∧ t.err = .none) ∨ ∃ v, InService c v t ∧ workLeft c v t < workLeft c u s

/-- In `t` the command is where it was in `s`, and waits for the same. -/
structure StandsAs (c : Instr) (u : MicroOp) (s t : State) : Prop where
  inService : InService c u t
  debt : busDebt u t = busDebt u s
  work : workLeft c u t = workLeft c u s
  params : t.params = s.params

/-- In the same position, with nothing more owed, the command stands as it did or is closer to its end. -/
theorem closer_or_stands {c : Instr} {u : MicroOp} {s t : State} (h : SamePosition s t) (ht : InService c u t)
    (hd : busDebt u t ≤ busDebt u s) (hp : t.params = s.params) : Closer c u s t ∨ StandsAs c u s t := by
  have hwork : workLeft c u t + busDebt u s = workLeft c u s + busDebt u t := by
    rw [workLeft, workLeft, h.payload, h.mpc]
    omega
  rcases Nat.lt_or_eq_of_le hd with hlt | heq
  · exact .inl (.inr ⟨u, ht, by omega⟩)
  · exact .inr ⟨ht, heq, by omega, hp⟩

/-- A HOST step that leaves LIMIT at 0 changes nothing a command in service depends on (R57, R76). -/
theorem InService.host_stands {c : Instr} {u : MicroOp} {s t : State} (h : InService c u s) {a : Access}
    (hst : hostStep a s = .next t) (hl : t.limit = s.limit) : Closer c u s t ∨ StandsAs c u s t := by
  obtain ⟨hr, hv⟩ := h
  obtain ⟨hq, htrace, -, -, hrx, -, -, hmore, hshift, -, -, hack, -, hframe⟩ := hostCannotTouchTheBus s t a hst
  obtain ⟨ht, -⟩ := hframe hr.busy
  have hpos : SamePosition s t := ⟨by rw [ht], hl, by rw [ht], by rw [ht], by rw [ht]⟩
  have hdebt : busDebt u t = busDebt u s := by simp only [busDebt, hq, hrx, hshift]
  exact closer_or_stands hpos
    ⟨hpos.running hr (applyEvent_keeps_inv (e := .host a) hr.inv hst), hv.congr htrace hrx hshift hmore hack hpos.mpc⟩
    hdebt.le (by rw [ht])

/-- A µop that advances brings the command closer to its end. -/
theorem InService.engine_closer {c : Instr} {u : MicroOp} {s t : State} (h : InService c u s) (hst : engineStep s = .next t)
    (ha : Advances u s) : Closer c u s t := by
  have hr := h.running
  obtain ⟨-, -, -, -, -, hpay, herr, -⟩ := runMicro_keeps u s
  by_cases hlast : s.mpc.toNat + 1 = (runningProg s).length
  · cases (engineStep_of_last hr.busy hr.current ha hlast).symm.trans hst
    exact .inl ⟨rfl, herr.trans hr.noErr⟩
  · have hlt := (List.getElem?_eq_some_iff.mp hr.current).1
    have hmore : s.mpc.toNat + 1 < (runningProg s).length := by omega
    cases (engineStep_of_more hr.busy hr.current ha hmore).symm.trans hst
    obtain ⟨v, hv⟩ := h.moved ha hmore
    refine .inr ⟨v, hv, ?_⟩
    have hmpc := hr.mpc_succ hmore
    rw [runningProg_of_cur hr.cur] at hmore
    calc workLeft c v _ ≤ 3 * ((uprog c (runMicro u s).1.payload).length - (s.mpc + 1).toNat) + 2 :=
          Nat.add_le_add_left hv.busDebt_le _
      _ < workLeft c u s := by
        rw [hpay, hmpc, workLeft]
        omega

/-- Without a limit an ENGINE step brings the command closer to its end, or fails a poll and leaves it where it was (R36, R127). -/
theorem InService.engine_step {c : Instr} {u : MicroOp} {s t : State} (h : InService c u s) (h0 : s.limit = 0)
    (hst : engineStep s = .next t) : Closer c u s t ∨ StandsAs c u s t := by
  by_cases ha : Advances u s
  · exact .inl (h.engine_closer hst ha)
  · obtain ⟨f, rfl, hf⟩ : ∃ f, u = .wait f ∧ flagValue f s = false := by simpa [Advances] using ha
    cases (engineStep_of_unbounded h.running.busy h.running.current hf h0).symm.trans hst
    exact .inr ⟨⟨{ h.running with spin := .inl rfl }, { h.served with }⟩, rfl, rfl, rfl⟩

/-- A BUS step that NACKs no address brings the command closer to its end, or leaves it where it was. -/
theorem InService.bus_step {c : Instr} {u : MicroOp} {s : State} (h : InService c u s) {m : BusMove} (hm : m ≠ .bAddr false) :
    Closer c u s (busStep m s) ∨ StandsAs c u s (busStep m s) :=
  closer_or_stands (busStep_keeps_position m s) (h.keeps_busStep hm) (h.busDebt_busStep m) (by rw [busStep_frame])

/-- The step that serves the wait brings the command closer to its end. -/
theorem InService.bus_closer {c : Instr} {f : WaitFlag} {s : State} (h : InService c (.wait f) s)
    (hd : busDebt (.wait f) s ≠ 0) {m : BusMove} (hack : m ≠ .bAddr false)
    (hm : (servingMove s.params.rxPrefetch f (busDebt (.wait f) s)).sameStep m = true) :
    Closer c (.wait f) s (busStep m s) := by
  have hpays := h.servingMove_pays hd hm
  exact (h.bus_step hack).resolve_right fun hs => hpays.ne hs.debt

/-! ### The run (R252) -/

/-- From step `k` on the run passes states with BUSY = 1 up to one with BUSY = 0 and ERR = NONE. -/
def EndsFrom (states : Nat → State) (k : Nat) : Prop :=
  ∃ j, k ≤ j ∧ (∀ i, k ≤ i → i < j → (states i).busy = true) ∧ (states j).busy = false ∧ (states j).err = .none

/-- One step earlier, with a command running, the run still ends. -/
theorem EndsFrom.prepend {states : Nat → State} {k : Nat} (hb : (states k).busy = true) (h : EndsFrom states (k + 1)) :
    EndsFrom states k := by
  obtain ⟨j, hkj, hbusy, hend⟩ := h
  refine ⟨j, by omega, fun i hi hij => ?_, hend⟩
  rcases Nat.lt_or_eq_of_le hi with hlt | rfl
  · exact hbusy i hlt hij
  · exact hb

section
variable {sched : Nat → Event} {states : Nat → State} {c : Instr} (hrun : IsRun sched states)
  (hbus : BusResponsive sched states)
include hrun hbus

/-- Every step of the run brings the command closer to its end or leaves it where it was. -/
theorem closer_or_stands_of_run (hlimit : ∀ k, (states k).limit = 0) {k : Nat} {u : MicroOp} (h : InService c u (states k)) :
    Closer c u (states k) (states (k + 1)) ∨ StandsAs c u (states k) (states (k + 1)) := by
  have hst := hrun.steps k
  cases he : sched k <;> rw [he] at hst
  case host a => exact h.host_stands hst ((hlimit (k + 1)).trans (hlimit k).symm)
  case engine => exact h.engine_step (hlimit k) hst
  case bus m =>
    rw [← Outcome.next.inj hst]
    exact h.bus_step fun hm => hbus.acks k (hm ▸ he)
  case reset => exact absurd he (hrun.noReset k)

/-- A command that stands where it is forever is brought closer to its end by some step: ENGINE's if its flag is set, otherwise
the BUS step that serves it. -/
theorem exists_closer_of_stands (hfair : EngineFair sched states) {k : Nat} {u : MicroOp} {s : State}
    (h : ∀ i, StandsAs c u s (states (k + i))) : ∃ i, Closer c u (states (k + i)) (states (k + i + 1)) := by
  have hall : ∀ j, k ≤ j → StandsAs c u s (states j) := fun j hj => by
    obtain ⟨i, rfl⟩ := Nat.exists_eq_add_of_le hj
    exact h i
  by_cases hd : busDebt u s = 0
  · obtain ⟨j, hj, he⟩ := hfair k fun j hj => (hall j hj).inService.running.busy
    have hs := hall j hj
    have hst := hrun.steps j
    rw [he] at hst
    obtain ⟨i, rfl⟩ := Nat.exists_eq_add_of_le hj
    exact ⟨i, hs.inService.engine_closer hst (hs.inService.advances (hs.debt.trans hd))⟩
  · obtain ⟨f, rfl⟩ : ∃ f, u = .wait f := by
      cases u with
      | wait f => exact ⟨f, rfl⟩
      | _ => exact absurd rfl hd
    have hne : ∀ j, k ≤ j → busDebt (.wait f) (states j) ≠ 0 := fun j hj => (hall j hj).debt ▸ hd
    obtain ⟨j, m, hj, he, hm⟩ := hbus.fair (servingMove s.params.rxPrefetch f (busDebt (.wait f) s)) k fun j hj => by
      rw [← (hall j hj).params, ← (hall j hj).debt]
      exact (hall j hj).inService.servingMove_enabled (hne j hj)
    have hs := hall j hj
    have hst := hrun.steps j
    rw [he] at hst
    have hclose := hs.inService.bus_closer (hne j hj) (fun h => hbus.acks j (h ▸ he)) (by rw [hs.params, hs.debt]; exact hm)
    obtain ⟨i, rfl⟩ := Nat.exists_eq_add_of_le hj
    exact ⟨i, Outcome.next.inj hst ▸ hclose⟩

/-- A command in service ends, by induction on what is left to do: it cannot stand where it is forever. -/
theorem endsFrom_of_inService (hfair : EngineFair sched states) (hlimit : ∀ k, (states k).limit = 0) {n k : Nat}
    {u : MicroOp} (h : InService c u (states k)) (hn : workLeft c u (states k) = n) : EndsFrom states k := by
  induction n using Nat.strong_induction_on generalizing k u with
  | _ n ih =>
    have hcloser : ∀ {j}, StandsAs c u (states k) (states j) → Closer c u (states j) (states (j + 1)) → EndsFrom states j := by
      intro j hs hclose
      refine EndsFrom.prepend hs.inService.running.busy ?_
      rcases hclose with ⟨hb, he⟩ | ⟨v, hv, hlt⟩
      · exact ⟨j + 1, le_rfl, fun i h1 h2 => by omega, hb, he⟩
      · exact ih _ (by rw [← hn, ← hs.work]; exact hlt) hv rfl
    by_contra hno
    have hstands : ∀ i, StandsAs c u (states k) (states (k + i)) ∧ ¬ EndsFrom states (k + i) := by
      intro i
      induction i with
      | zero => exact ⟨⟨h, rfl, rfl, rfl⟩, hno⟩
      | succ i hi =>
        obtain ⟨hs, hno⟩ := hi
        have hs' := (closer_or_stands_of_run hrun hbus hlimit hs.inService).resolve_left fun hc => hno (hcloser hs hc)
        exact ⟨⟨hs'.inService, hs'.debt.trans hs.debt, hs'.work.trans hs.work, hs'.params.trans hs.params⟩,
          fun he => hno (he.prepend hs.inService.running.busy)⟩
    obtain ⟨i, hclose⟩ := exists_closer_of_stands hrun hbus hfair fun i => (hstands i).1
    exact (hstands i).2 (hcloser (hstands i).1 hclose)

end

/-- Settles O57: an accepted command that can be served is in service, and a command in service ends. -/
theorem responsiveBusEndsEveryCommand : Obligations.ResponsiveBusEndsEveryCommand := by
  intro sched states c hi _ hb hc hm hserve hrun hfair hbus hlimit
  obtain ⟨u, hu⟩ := inService_of_accepted hi hb hc hm hserve
  obtain ⟨k, -, hbusy, hend⟩ := endsFrom_of_inService hrun hbus hfair hlimit hu rfl
  exact ⟨k, fun j hj => hbusy j (Nat.zero_le j) hj, hend⟩

end Sys2Proof.Machine
end
